-- ==== Sys2Proof/Word.lean ====
section
/-! DEFINITION. The word types of the block (00_scope.md R8): bytes, 16-bit fields, 32-bit registers. All are unsigned;
no quantity of the block is signed. -/

namespace Sys2Proof

/-- `u8` (R8). -/
abbrev Byte := BitVec 8

/-- `u16` (R8). -/
abbrev Half := BitVec 16

/-- `u32` (R8), the width of every host register and of every interval (R6, TIME_W and CNT_W). -/
abbrev Word := BitVec 32

end Sys2Proof
end

