-- ==== Sys2Proof/Machine/Crc.lean ====
section
/-! DEFINITION. The CRC-16/MODBUS arithmetic (40_crc_and_envelope.md R140, R144): pure functions on bytes. -/

namespace Sys2Proof

/-- One shift step of R140: a logical right shift, with the reflected polynomial folded in when the bit shifted out was 1. -/
def crcShift (c : Half) : Half :=
  if c.getLsbD 0 then (c >>> 1) ^^^ 0xA001#16 else c >>> 1

/-- `repeat n times` of R140's shift step. -/
def crcShifts : Nat → Half → Half
  | 0, c => c
  | n + 1, c => crcShifts n (crcShift c)

/-- `crc_step` (R140): the byte meets the low 8 bits, then eight shift steps. -/
def crcStep (c : Half) (b : Byte) : Half :=
  crcShifts 8 (c ^^^ b.setWidth 16)

/-- `crc16` (R144): `crc_step` folded over the bytes from 0xFFFF, left to right. -/
def crc16 (bytes : List Byte) : Half :=
  bytes.foldl crcStep 0xFFFF#16

/-- `v[7:0]` (R8). -/
def lo (v : Half) : Byte := v.setWidth 8

/-- `v[15:8]` (R8). -/
def hi (v : Half) : Byte := (v >>> 8).setWidth 8

/-- `{h, l}` (R8): a u16 from its high and its low byte. -/
def ofHiLo (h l : Byte) : Half := h ++ l

/-- The two CRC bytes in wire order, low byte first (20_memory.md R72). -/
def crcBytes (bytes : List Byte) : List Byte := [lo (crc16 bytes), hi (crc16 bytes)]

end Sys2Proof
end

