-- ==== Sys2Proof/Config.lean ====
section
/-! DEFINITION. What an instance of the block fixes (00_scope.md R6, R7), and the one value the spec leaves free.
The parameters are a plain structure held in State.params and written by no step, so a statement about every state
is a statement about every instance: the OPEN parameters ROLE, BAUD_RESET and RESP_TIMEOUT_RESET_US are quantified
over that way (log 3). -/

namespace Sys2Proof

/-- `ROLE` (R7): a static parameter of the instance, not a register. -/
inductive Role
  | slave
  | master
  deriving DecidableEq, Repr

/-- The instantiation parameters of R6. -/
structure Params where
  /-- `CAP`, the capacity in bytes of each buffer. -/
  cap : Nat
  /-- `ROLE`. -/
  role : Role
  /-- `CHAR_BITS`, the bits of one character on the line. -/
  charBits : Nat
  /-- `SENDBACK_MULT`, the send-back delay as a multiple of the silence interval. -/
  sendbackMult : Nat
  /-- `BAUD_RESET`. -/
  baudReset : Word
  /-- `RESP_TIMEOUT_RESET_US`. -/
  respTimeoutReset : Word
  /-- `STATION_RESET`. -/
  stationReset : Byte
  /-- `HDATA_DEPTH`, the entries of the host data FIFO. -/
  hdataDepth : Nat
  deriving DecidableEq, Repr

/-- The defaults of R6. The three OPEN parameters have no default in the spec: `slave`, 9600 and 1000000 are the
instance State.reset shows. DESIGN CHOICE (log 3), unsafe for a statement that rests on them. -/
def Params.default : Params where
  cap := 384
  role := .slave
  charBits := 11
  sendbackMult := 80
  baudReset := 9600
  respTimeoutReset := 1000000
  stationReset := 1
  hdataDepth := 2040

/-- What R6 and R40 ask of an instance: `CAP >= 9`, a reset baud rate the setter would accept (log 10), and a legal reset
station. -/
abbrev Params.wf (p : Params) : Prop :=
  9 ≤ p.cap ∧ p.baudReset ≠ 0 ∧ 1 ≤ p.stationReset.toNat ∧ p.stationReset.toNat ≤ 247

/-- `MIN_ADU` (R6), fixed: the least frame length that is a frame and not a timeout. -/
def minAdu : Nat := 4

/-- The word a host read of the write-only register CMD_OP returns, applied to a counter that every step but a host read
advances. The spec gives it no value (10_state.md R45). DESIGN CHOICE (log 8), safe: nothing constrains it. -/
opaque Config.cmdOpRead : Nat → Word

end Sys2Proof
end

