-- ==== Sys2Proof/Syntax.lean ====
section
/-! DEFINITION. The closed types of the block's two encodings (30_encoding.md): the wire forms and the host commands
as ONE inductive `Instr`, one constructor per row of spec/opcode_table.json, and the code tables the spec numbers. -/

namespace Sys2Proof

/-- The eight supported function codes (R102). -/
inductive BaseFc
  | readCoils
  | readDiscrete
  | readHolding
  | readInput
  | writeCoil
  | writeReg
  | writeCoils
  | writeRegs
  deriving DecidableEq, Repr

/-- The payload layouts (10_state.md R34). -/
inductive Variant
  | none
  | rqRead
  | rsBits
  | rsRegs
  | rwSingle
  | rqWbits
  | rqWregs
  | rsWmulti
  | diag
  deriving DecidableEq, Repr

/-- Decode statuses (10_state.md R36, 60_exceptions.md R406). -/
inductive DecodeStatus
  | ok
  | unsupported
  | short
  | excess
  | countMismatch
  deriving DecidableEq, Repr

/-- A decoded view (10_state.md R33): variant, status, byteCount, value quantity. -/
structure View where
  variant : Variant
  status : DecodeStatus
  bc : Byte
  vq : Half
  deriving DecidableEq, Repr

/-- Framing failure kinds (10_state.md R41, 60_exceptions.md R400). -/
inductive FailKind
  | none
  | timedout
  | verifyFailed
  | overflow
  | unsupportedFunctionCode
  deriving DecidableEq, Repr

/-- Result codes of host commands (60_exceptions.md R405). -/
inductive ResultCode
  | ok
  | badVariant
  | range
  | noSpace
  | busy
  | badArg
  | unsupported
  | noFrame
  | badCmd
  deriving DecidableEq, Repr

/-- Receiver states (10_state.md R24). -/
inductive RxState
  | waitStation
  | waitFunctionCode
  | waitData
  deriving DecidableEq, Repr

/-- The selector operand (R113): 0 is RX, 1 is TX. -/
inductive Sel
  | rx
  | tx
  deriving DecidableEq, Repr

/-- The named fields 0 to 11 of R113. The codes 12 to 15 name no field. -/
inductive Field
  | station
  | fc
  | address
  | quantity
  | value
  | byteCount
  | diagCode
  | vq
  | status
  | variant
  | len
  | crcField
  deriving DecidableEq, Repr

/-- The instructions: one constructor per row of spec/opcode_table.json (R124). A wire form's operands are the station
byte and the payload bytes of its ADU (R100); a command's are the operand fields of R112. -/
inductive Instr
  -- wire forms (41_pdu_decode.md)
  | rdcoilsReq (station : Byte) (payload : List Byte)
  | rddiscReq (station : Byte) (payload : List Byte)
  | rdholdReq (station : Byte) (payload : List Byte)
  | rdinputReq (station : Byte) (payload : List Byte)
  | rdcoilsRsp (station : Byte) (payload : List Byte)
  | rddiscRsp (station : Byte) (payload : List Byte)
  | rdholdRsp (station : Byte) (payload : List Byte)
  | rdinputRsp (station : Byte) (payload : List Byte)
  | wrcoilReq (station : Byte) (payload : List Byte)
  | wrcoilRsp (station : Byte) (payload : List Byte)
  | wrregReq (station : Byte) (payload : List Byte)
  | wrregRsp (station : Byte) (payload : List Byte)
  | wrcoilsReq (station : Byte) (payload : List Byte)
  | wrcoilsRsp (station : Byte) (payload : List Byte)
  | wrregsReq (station : Byte) (payload : List Byte)
  | wrregsRsp (station : Byte) (payload : List Byte)
  | diagRsp (base : BaseFc) (station : Byte) (payload : List Byte)
  -- host commands (R112)
  | crcReset
  | crcUpdate (b : Byte)
  | crcValue
  | envApplycrc
  | envVerifycrc (sel : Sel)
  | envCreq (fc : Byte)
  | envCrsp (fc : Byte)
  | envCdiag (fc : Byte)
  | plGetf (sel : Sel) (field : BitVec 4)
  | plSetf (value : Half) (field : BitVec 4)
  | plResize (q : Half)
  | plGetbit (sel : Sel) (i : Half)
  | plSetbit (b : Bool) (i : Half)
  | plGetreg (sel : Sel) (i : Half)
  | plSetreg (w : Half) (i : Half)
  | plInsbitsH (n : Half)
  | plInsbitsT (n : Half)
  | plRembitsH (n : Half)
  | plRembitsT (n : Half)
  | plInsregsH (n : Half)
  | plInsregsT (n : Half)
  | plRemregsH (n : Half)
  | plRemregsT (n : Half)
  | fsmUpdate
  | roleXmit (target : Byte)
  | roleXmitdef (target : Byte)
  | roleAvail
  | cfgSetbaud (baud : Word)
  | cfgSetsilence (us : Word)
  | cfgSetsendback (us : Word)
  | cfgSettimeout (us : Word)
  | cfgSetstation (s : Byte)
  | sysSoftreset
  | evAck (m : BitVec 2)
  | evSetmask (m : BitVec 2)
  | sysRdbuf (sel : Sel) (off : Half)
  deriving DecidableEq, Repr

/-- The wire forms alone: what frame completion decodes an ADU's function code and direction to (R103). -/
inductive WireForm
  | rdcoilsReq
  | rddiscReq
  | rdholdReq
  | rdinputReq
  | rdcoilsRsp
  | rddiscRsp
  | rdholdRsp
  | rdinputRsp
  | wrcoilReq
  | wrcoilRsp
  | wrregReq
  | wrregRsp
  | wrcoilsReq
  | wrcoilsRsp
  | wrregsReq
  | wrregsRsp
  | diagRsp (base : BaseFc)
  deriving DecidableEq, Repr

/-- A frame whose CRC and function code have been accepted: its form and the operands of that form. -/
structure Frame where
  form : WireForm
  station : Byte
  payload : List Byte
  deriving DecidableEq, Repr

/-- What the block is given to decode: a command triple (R112), or the bytes of an ADU with the direction they travel
in, which is not on the wire (R103). -/
inductive Code
  | command (op : Byte) (arg0 arg1 : Word)
  | adu (isResponse : Bool) (bytes : List Byte)
  deriving DecidableEq, Repr

/-- Why an encoding is not an instruction. -/
inductive Reject
  /-- An `op` outside the table of R112 (R114). -/
  | reservedOpcode (op : Byte)
  /-- Fewer than MIN_ADU bytes (R100). -/
  | shortAdu
  /-- The trailing two bytes are not the CRC of the rest (R100). -/
  | crcMismatch
  /-- The function code has no variant in this direction (R109). -/
  | unsupportedFunctionCode (fc : Byte)
  deriving DecidableEq, Repr

/-- The typed payloads of 42_pdu_create_encode.md R215, the closed union R218 asks for. -/
inductive Payload
  | readReq (fc : BaseFc) (addr qty : Half)
  | bitsRsp (fc : BaseFc) (bits : List Bool)
  | regsRsp (fc : BaseFc) (regs : List Half)
  | single (fc : BaseFc) (addr value : Half)
  | wBitsReq (addr : Half) (bits : List Bool)
  | wRegsReq (addr : Half) (regs : List Half)
  | wMultiRsp (fc : BaseFc) (addr qty : Half)
  | diag (base : BaseFc) (code : Byte)
  deriving DecidableEq, Repr

/-- The registers of the host map (10_state.md R45), in the order of their offsets. -/
inductive Register
  | cmdOp
  | cmdArg0
  | cmdArg1
  | result
  | rdata
  | hdata
  | status
  | failKind
  | totalFrames
  | failedFrames
  | rxLen
  | txLen
  | now
  | baud
  | silenceUs
  | sendbackUs
  | respTimeoutUs
  | station
  | crc
  | evPending
  | evMask
  | rxView
  | txView
  | lastRxUs
  | lastActUs
  | txStampUs
  | pendingTarget
  deriving DecidableEq, Repr

end Sys2Proof
end

