-- ==== Sys2Proof/WellFormed.lean ====
section
/-! DEFINITION. Which instructions and typed payloads are well formed: a wire form's ADU must be one the receiver can
complete (30_encoding.md R100), a typed payload must meet the constraints of 42_pdu_create_encode.md R215. A command has no
ill-formed operand: the types of `Instr` hold every operand value the encoding admits. -/

namespace Sys2Proof

/-- The payload bytes of a wire form; none for a command. -/
def Instr.payload? : Instr → Option (List Byte)
  | .rdcoilsReq _ p | .rddiscReq _ p | .rdholdReq _ p | .rdinputReq _ p
  | .rdcoilsRsp _ p | .rddiscRsp _ p | .rdholdRsp _ p | .rdinputRsp _ p
  | .wrcoilReq _ p | .wrcoilRsp _ p | .wrregReq _ p | .wrregRsp _ p
  | .wrcoilsReq _ p | .wrcoilsRsp _ p | .wrregsReq _ p | .wrregsRsp _ p
  | .diagRsp _ _ p => some p
  | .crcReset | .crcUpdate _ | .crcValue | .envApplycrc | .envVerifycrc _ | .envCreq _ | .envCrsp _ | .envCdiag _
  | .plGetf _ _ | .plSetf _ _ | .plResize _ | .plGetbit _ _ | .plSetbit _ _ | .plGetreg _ _ | .plSetreg _ _
  | .plInsbitsH _ | .plInsbitsT _ | .plRembitsH _ | .plRembitsT _
  | .plInsregsH _ | .plInsregsT _ | .plRemregsH _ | .plRemregsT _
  | .fsmUpdate | .roleXmit _ | .roleXmitdef _ | .roleAvail
  | .cfgSetbaud _ | .cfgSetsilence _ | .cfgSetsendback _ | .cfgSettimeout _ | .cfgSetstation _
  | .sysSoftreset | .evAck _ | .evSetmask _ | .sysRdbuf _ _ => none

/-- R100: the ADU of a wire form is `N + 4` bytes with `N + 4 <= CAP - 1`, the longest frame the receiver can complete. -/
def Instr.wf (cap : Nat) (i : Instr) : Bool :=
  match i.payload? with
  | some p => decide (p.length + 5 ≤ cap)
  | none => true

/-- The constraint column of R215. -/
def Payload.valid : Payload → Bool
  | .readReq fc _ _ => [BaseFc.readCoils, .readDiscrete, .readHolding, .readInput].contains fc
  | .bitsRsp fc bits => [BaseFc.readCoils, .readDiscrete].contains fc && decide (bits.length ≤ 2040)
  | .regsRsp fc regs => [BaseFc.readHolding, .readInput].contains fc && decide (regs.length ≤ 127)
  | .single fc _ _ => [BaseFc.writeCoil, .writeReg].contains fc
  | .wBitsReq _ bits => decide (bits.length ≤ 2040)
  | .wRegsReq _ regs => decide (regs.length ≤ 127)
  | .wMultiRsp fc _ _ => [BaseFc.writeCoils, .writeRegs].contains fc
  | .diag _ _ => true

end Sys2Proof
end

