-- ==== Sys2Proof/Decode.lean ====
section
/-! DEFINITION. The decoder, total on any command triple and on any bytes of an ADU, rejecting by name, and the encoder
written from the same tables (30_encoding.md). -/

namespace Sys2Proof

/-- The function-code byte of a supported base code (R102). -/
def BaseFc.code : BaseFc → Byte
  | .readCoils => 0x01#8
  | .readDiscrete => 0x02#8
  | .readHolding => 0x03#8
  | .readInput => 0x04#8
  | .writeCoil => 0x05#8
  | .writeReg => 0x06#8
  | .writeCoils => 0x0F#8
  | .writeRegs => 0x10#8

/-- `SUPPORTED` (R102). -/
def BaseFc.all : List BaseFc :=
  [.readCoils, .readDiscrete, .readHolding, .readInput, .writeCoil, .writeReg, .writeCoils, .writeRegs]

/-- The member of `SUPPORTED` with this code, if any. -/
def BaseFc.ofByte (fc : Byte) : Option BaseFc := BaseFc.all.find? (fun b => b.code == fc)

/-- The base of a diagnose code: bit 7 set and `fc & 0x7F` in `SUPPORTED` (R102, R108). -/
def BaseFc.ofDiagByte (fc : Byte) : Option BaseFc :=
  if fc.getLsbD 7 then BaseFc.ofByte (fc &&& 0x7F#8) else .none

/-- The request column of R103. -/
def BaseFc.requestForm : BaseFc → WireForm
  | .readCoils => .rdcoilsReq
  | .readDiscrete => .rddiscReq
  | .readHolding => .rdholdReq
  | .readInput => .rdinputReq
  | .writeCoil => .wrcoilReq
  | .writeReg => .wrregReq
  | .writeCoils => .wrcoilsReq
  | .writeRegs => .wrregsReq

/-- The response column of R103. -/
def BaseFc.responseForm : BaseFc → WireForm
  | .readCoils => .rdcoilsRsp
  | .readDiscrete => .rddiscRsp
  | .readHolding => .rdholdRsp
  | .readInput => .rdinputRsp
  | .writeCoil => .wrcoilRsp
  | .writeReg => .wrregRsp
  | .writeCoils => .wrcoilsRsp
  | .writeRegs => .wrregsRsp

/-- Which wire form a function-code byte selects in a direction (R103, R124); none is `NONE`, the unsupported rest (R109).
A diagnose exists only in the response direction. -/
def wireFormOf (fc : Byte) (isResponse : Bool) : Option WireForm :=
  match BaseFc.ofByte fc with
  | some b => some (if isResponse then b.responseForm else b.requestForm)
  | none => if isResponse then (BaseFc.ofDiagByte fc).map .diagRsp else none

/-- The layout of a wire form (R103). -/
def WireForm.variant : WireForm → Variant
  | .rdcoilsReq | .rddiscReq | .rdholdReq | .rdinputReq => .rqRead
  | .rdcoilsRsp | .rddiscRsp => .rsBits
  | .rdholdRsp | .rdinputRsp => .rsRegs
  | .wrcoilReq | .wrcoilRsp | .wrregReq | .wrregRsp => .rwSingle
  | .wrcoilsReq => .rqWbits
  | .wrregsReq => .rqWregs
  | .wrcoilsRsp | .wrregsRsp => .rsWmulti
  | .diagRsp _ => .diag

/-- `variant_of` (R103). -/
def variantOf (fc : Byte) (isResponse : Bool) : Variant :=
  match wireFormOf fc isResponse with
  | some f => f.variant
  | none => .none

/-- The direction a wire form travels in: the `dir` key of spec/opcode_table.json (R124). -/
def WireForm.isResponse : WireForm → Bool
  | .rdcoilsReq | .rddiscReq | .rdholdReq | .rdinputReq | .wrcoilReq | .wrregReq | .wrcoilsReq | .wrregsReq => false
  | .rdcoilsRsp | .rddiscRsp | .rdholdRsp | .rdinputRsp | .wrcoilRsp | .wrregRsp | .wrcoilsRsp | .wrregsRsp
  | .diagRsp _ => true

/-- The function-code byte of a wire form (R102); a diagnose is `base | 0x80` (R108). -/
def WireForm.code : WireForm → Byte
  | .rdcoilsReq | .rdcoilsRsp => BaseFc.readCoils.code
  | .rddiscReq | .rddiscRsp => BaseFc.readDiscrete.code
  | .rdholdReq | .rdholdRsp => BaseFc.readHolding.code
  | .rdinputReq | .rdinputRsp => BaseFc.readInput.code
  | .wrcoilReq | .wrcoilRsp => BaseFc.writeCoil.code
  | .wrregReq | .wrregRsp => BaseFc.writeReg.code
  | .wrcoilsReq | .wrcoilsRsp => BaseFc.writeCoils.code
  | .wrregsReq | .wrregsRsp => BaseFc.writeRegs.code
  | .diagRsp b => b.code ||| 0x80#8

/-- The instruction a decoded frame is. -/
def Frame.toInstr (f : Frame) : Instr :=
  match f.form with
  | .rdcoilsReq => .rdcoilsReq f.station f.payload
  | .rddiscReq => .rddiscReq f.station f.payload
  | .rdholdReq => .rdholdReq f.station f.payload
  | .rdinputReq => .rdinputReq f.station f.payload
  | .rdcoilsRsp => .rdcoilsRsp f.station f.payload
  | .rddiscRsp => .rddiscRsp f.station f.payload
  | .rdholdRsp => .rdholdRsp f.station f.payload
  | .rdinputRsp => .rdinputRsp f.station f.payload
  | .wrcoilReq => .wrcoilReq f.station f.payload
  | .wrcoilRsp => .wrcoilRsp f.station f.payload
  | .wrregReq => .wrregReq f.station f.payload
  | .wrregRsp => .wrregRsp f.station f.payload
  | .wrcoilsReq => .wrcoilsReq f.station f.payload
  | .wrcoilsRsp => .wrcoilsRsp f.station f.payload
  | .wrregsReq => .wrregsReq f.station f.payload
  | .wrregsRsp => .wrregsRsp f.station f.payload
  | .diagRsp b => .diagRsp b f.station f.payload

/-- Decoding the bytes of an ended frame (R100, R103, 44_framing_fsm.md R303): at least MIN_ADU bytes, the CRC of all but
the last two bytes equal to the last two, low byte first, and only then the function code. The bytes between the function code
and the CRC are the payload (R120). -/
def decodeFrame (isResponse : Bool) (bytes : List Byte) : Except Reject Frame :=
  match bytes with
  | station :: fc :: rest =>
    if rest.length < 2 then .error .shortAdu
    else
      let payload := rest.take (rest.length - 2)
      if rest.drop (rest.length - 2) ≠ crcBytes (station :: fc :: payload) then .error .crcMismatch
      else
        match wireFormOf fc isResponse with
        | some form => .ok { form := form, station := station, payload := payload }
        | none => .error (.unsupportedFunctionCode fc)
  | [_] | [] => .error .shortAdu

/-- The `sel` operand in bit 0 (R113). -/
def selOfBit0 (w : Word) : Sel := if w.getLsbD 0 then .tx else .rx

/-- One row of the command table of R112: the opcode, and the instruction its operand words give. -/
structure CommandRow where
  op : Byte
  build : Word → Word → Instr

/-- The command table of R112, row by row. Operand bits not listed are ignored. -/
def commandTable : List CommandRow :=
  [ { op := 0x01#8, build := fun _ _ => .crcReset },
    { op := 0x02#8, build := fun a0 _ => .crcUpdate (a0.setWidth 8) },
    { op := 0x03#8, build := fun _ _ => .crcValue },
    { op := 0x08#8, build := fun _ _ => .envApplycrc },
    { op := 0x09#8, build := fun a0 _ => .envVerifycrc (selOfBit0 a0) },
    { op := 0x10#8, build := fun a0 _ => .envCreq (a0.setWidth 8) },
    { op := 0x11#8, build := fun a0 _ => .envCrsp (a0.setWidth 8) },
    { op := 0x12#8, build := fun a0 _ => .envCdiag (a0.setWidth 8) },
    { op := 0x20#8, build := fun a0 a1 => .plGetf (selOfBit0 a0) (a1.setWidth 4) },
    { op := 0x21#8, build := fun a0 a1 => .plSetf (a0.setWidth 16) (a1.setWidth 4) },
    { op := 0x22#8, build := fun a0 _ => .plResize (a0.setWidth 16) },
    { op := 0x23#8, build := fun a0 a1 => .plGetbit (selOfBit0 a0) (a1.setWidth 16) },
    { op := 0x24#8, build := fun a0 a1 => .plSetbit (a0.getLsbD 0) (a1.setWidth 16) },
    { op := 0x25#8, build := fun a0 a1 => .plGetreg (selOfBit0 a0) (a1.setWidth 16) },
    { op := 0x26#8, build := fun a0 a1 => .plSetreg (a0.setWidth 16) (a1.setWidth 16) } ] ++
  [ { op := 0x28#8, build := fun a0 _ => .plInsbitsH (a0.setWidth 16) },
    { op := 0x29#8, build := fun a0 _ => .plInsbitsT (a0.setWidth 16) },
    { op := 0x2A#8, build := fun a0 _ => .plRembitsH (a0.setWidth 16) },
    { op := 0x2B#8, build := fun a0 _ => .plRembitsT (a0.setWidth 16) },
    { op := 0x2C#8, build := fun a0 _ => .plInsregsH (a0.setWidth 16) },
    { op := 0x2D#8, build := fun a0 _ => .plInsregsT (a0.setWidth 16) },
    { op := 0x2E#8, build := fun a0 _ => .plRemregsH (a0.setWidth 16) },
    { op := 0x2F#8, build := fun a0 _ => .plRemregsT (a0.setWidth 16) } ] ++
  [ { op := 0x30#8, build := fun _ _ => .fsmUpdate },
    { op := 0x38#8, build := fun a0 _ => .roleXmit (a0.setWidth 8) },
    { op := 0x39#8, build := fun a0 _ => .roleXmitdef (a0.setWidth 8) },
    { op := 0x3A#8, build := fun _ _ => .roleAvail },
    { op := 0x40#8, build := fun a0 _ => .cfgSetbaud a0 },
    { op := 0x41#8, build := fun a0 _ => .cfgSetsilence a0 },
    { op := 0x42#8, build := fun a0 _ => .cfgSetsendback a0 },
    { op := 0x43#8, build := fun a0 _ => .cfgSettimeout a0 },
    { op := 0x44#8, build := fun a0 _ => .cfgSetstation (a0.setWidth 8) },
    { op := 0x48#8, build := fun _ _ => .sysSoftreset },
    { op := 0x49#8, build := fun a0 _ => .evAck (a0.setWidth 2) },
    { op := 0x4A#8, build := fun a0 _ => .evSetmask (a0.setWidth 2) },
    { op := 0x4B#8, build := fun a0 a1 => .sysRdbuf (selOfBit0 a0) (a1.setWidth 16) } ]

/-- Decoding a command triple (R112); any other `op` is reserved (R114). -/
def decodeCommand (op : Byte) (arg0 arg1 : Word) : Except Reject Instr :=
  match commandTable.find? (fun r => r.op == op) with
  | some r => .ok (r.build arg0 arg1)
  | none => .error (.reservedOpcode op)

/-- The whole decoder. -/
def decode : Code → Except Reject Instr
  | .command op arg0 arg1 => decodeCommand op arg0 arg1
  | .adu isResponse bytes =>
    match decodeFrame isResponse bytes with
    | .ok f => .ok f.toInstr
    | .error r => .error r

/-- The bytes of a frame's ADU (R100): station, function code, payload, CRC low byte first. -/
def Frame.bytes (f : Frame) : List Byte :=
  let body := f.station :: f.form.code :: f.payload
  body ++ crcBytes body

/-- The `sel` operand as a word. -/
def Sel.word : Sel → Word
  | .rx => 0
  | .tx => 1

/-- The code of a wire form: its ADU in its own direction. -/
def wireCode (form : WireForm) (station : Byte) (payload : List Byte) : Code :=
  .adu form.isResponse (Frame.bytes { form := form, station := station, payload := payload })

/-- The encoder: for a command the triple of R112 with every unlisted operand bit 0; for a wire form its ADU. -/
def encode : Instr → Code
  | .rdcoilsReq st p => wireCode .rdcoilsReq st p
  | .rddiscReq st p => wireCode .rddiscReq st p
  | .rdholdReq st p => wireCode .rdholdReq st p
  | .rdinputReq st p => wireCode .rdinputReq st p
  | .rdcoilsRsp st p => wireCode .rdcoilsRsp st p
  | .rddiscRsp st p => wireCode .rddiscRsp st p
  | .rdholdRsp st p => wireCode .rdholdRsp st p
  | .rdinputRsp st p => wireCode .rdinputRsp st p
  | .wrcoilReq st p => wireCode .wrcoilReq st p
  | .wrcoilRsp st p => wireCode .wrcoilRsp st p
  | .wrregReq st p => wireCode .wrregReq st p
  | .wrregRsp st p => wireCode .wrregRsp st p
  | .wrcoilsReq st p => wireCode .wrcoilsReq st p
  | .wrcoilsRsp st p => wireCode .wrcoilsRsp st p
  | .wrregsReq st p => wireCode .wrregsReq st p
  | .wrregsRsp st p => wireCode .wrregsRsp st p
  | .diagRsp b st p => wireCode (.diagRsp b) st p
  | .crcReset => .command 0x01#8 0 0
  | .crcUpdate b => .command 0x02#8 (b.setWidth 32) 0
  | .crcValue => .command 0x03#8 0 0
  | .envApplycrc => .command 0x08#8 0 0
  | .envVerifycrc sel => .command 0x09#8 sel.word 0
  | .envCreq fc => .command 0x10#8 (fc.setWidth 32) 0
  | .envCrsp fc => .command 0x11#8 (fc.setWidth 32) 0
  | .envCdiag fc => .command 0x12#8 (fc.setWidth 32) 0
  | .plGetf sel field => .command 0x20#8 sel.word (field.setWidth 32)
  | .plSetf value field => .command 0x21#8 (value.setWidth 32) (field.setWidth 32)
  | .plResize q => .command 0x22#8 (q.setWidth 32) 0
  | .plGetbit sel i => .command 0x23#8 sel.word (i.setWidth 32)
  | .plSetbit b i => .command 0x24#8 (if b then 1 else 0) (i.setWidth 32)
  | .plGetreg sel i => .command 0x25#8 sel.word (i.setWidth 32)
  | .plSetreg w i => .command 0x26#8 (w.setWidth 32) (i.setWidth 32)
  | .plInsbitsH n => .command 0x28#8 (n.setWidth 32) 0
  | .plInsbitsT n => .command 0x29#8 (n.setWidth 32) 0
  | .plRembitsH n => .command 0x2A#8 (n.setWidth 32) 0
  | .plRembitsT n => .command 0x2B#8 (n.setWidth 32) 0
  | .plInsregsH n => .command 0x2C#8 (n.setWidth 32) 0
  | .plInsregsT n => .command 0x2D#8 (n.setWidth 32) 0
  | .plRemregsH n => .command 0x2E#8 (n.setWidth 32) 0
  | .plRemregsT n => .command 0x2F#8 (n.setWidth 32) 0
  | .fsmUpdate => .command 0x30#8 0 0
  | .roleXmit t => .command 0x38#8 (t.setWidth 32) 0
  | .roleXmitdef t => .command 0x39#8 (t.setWidth 32) 0
  | .roleAvail => .command 0x3A#8 0 0
  | .cfgSetbaud v => .command 0x40#8 v 0
  | .cfgSetsilence v => .command 0x41#8 v 0
  | .cfgSetsendback v => .command 0x42#8 v 0
  | .cfgSettimeout v => .command 0x43#8 v 0
  | .cfgSetstation v => .command 0x44#8 (v.setWidth 32) 0
  | .sysSoftreset => .command 0x48#8 0 0
  | .evAck m => .command 0x49#8 (m.setWidth 32) 0
  | .evSetmask m => .command 0x4A#8 (m.setWidth 32) 0
  | .sysRdbuf sel off => .command 0x4B#8 sel.word (off.setWidth 32)

/-- The length of the zero payload of a variant, header included (42_pdu_create_encode.md R214); 0 for `NONE`. -/
def Variant.initLen : Variant → Nat
  | .none => 0
  | .rqRead => 6
  | .rsBits => 3
  | .rsRegs => 3
  | .rwSingle => 6
  | .rqWbits => 7
  | .rqWregs => 7
  | .rsWmulti => 6
  | .diag => 3

/-- The ADU a table word of a wire row stands for: station 0, that function code, the zero payload of its layout, and its
CRC. DESIGN CHOICE (log 1): the table numbers the function-code byte only. -/
def tableFrame (fc : Byte) (isResponse : Bool) : List Byte :=
  let body := 0#8 :: fc :: List.replicate ((variantOf fc isResponse).initLen - 2) 0#8
  body ++ crcBytes body

/-- The code a table word stands for. A word is a command triple (op in bits 7..0, arg0 in 39..8, arg1 in 71..40) where its low
byte is a command opcode; otherwise the low byte is a function code, taken in the request direction where a request has it and in
the response direction where only a response has it. DESIGN CHOICE (log 1): the table gives commands and wire forms, and
requests and responses, the same 8-bit numbers. -/
def tableCode (nbits w : Nat) : Code :=
  let v := w % 2 ^ nbits
  let op := BitVec.ofNat 8 v
  let arg0 := BitVec.ofNat 32 (v / 2 ^ 8)
  let arg1 := BitVec.ofNat 32 (v / 2 ^ 40)
  match decodeCommand op arg0 arg1, variantOf op false, variantOf op true with
  | .error _, .none, .none => .command op arg0 arg1
  | .error _, .none, _ => .adu true (tableFrame op true)
  | .error _, _, _ => .adu false (tableFrame op false)
  | .ok _, _, _ => .command op arg0 arg1

/-- The instruction the decoder reads from a table word. -/
def decodeTableWord (nbits w : Nat) : Option Instr :=
  match decode (tableCode nbits w) with
  | .ok i => some i
  | .error _ => none

end Sys2Proof
end

