-- ==== Sys2Proof/Machine/Timing.lean ====
section
/-! DEFINITION. The derived intervals (46_config_and_system.md R371, R372) and elapsed time (60_exceptions.md R416). -/

namespace Sys2Proof.Machine

/-- `min(2^32 - 1, n)` as a u32: saturation instead of wrapping (R371, R372). -/
def saturate (n : Nat) : Word := BitVec.ofNat 32 (min n (2 ^ 32 - 1))

/-- `silence_of` (R371): 3.5 character times in microseconds, rounded up. `baud` is not 0: CFG.SETBAUD refuses 0, and
`Params.wf` excludes it at reset (log 10). -/
def silenceOf (p : Params) (baud : Word) : Word :=
  saturate ((3500000 * p.charBits + (baud.toNat - 1)) / baud.toNat)

/-- `sendback_of` (R372). -/
def sendbackOf (p : Params) (silence : Word) : Word :=
  saturate (p.sendbackMult * silence.toNat)

/-- `now -% t0` (R416): subtraction modulo 2^32. -/
def elapsed (now t0 : Word) : Nat := (now - t0).toNat

end Sys2Proof.Machine
end

