-- ==== Sys2Proof/Machine/State.lean ====
section
/-! DEFINITION. The state of one block instance (10_state.md R20 to R47), its reset value (70_reset_and_hazards.md R441), and
the reasons a step can stop. State is plain data. -/

namespace Sys2Proof.Machine

/-- A byte buffer: the pairs (offset, byte) of its non-zero bytes, offsets strictly rising. An unlisted offset reads 0
(log 4). -/
abbrev Buf := List Host.Cell

/-- One transmit-side event (10_state.md R47). -/
inductive TxEvent
  /-- `Begin`: driver enable before transmit. -/
  | txBegin
  /-- `Byte(b)`: one byte handed to the transport. -/
  | txByte (b : Byte)
  /-- `End`: receiver enable after. -/
  | txEnd
  deriving DecidableEq, Repr

/-- One step of an agent (00_scope.md R10), as the host port of 10_state.md R45 sees it. `Cmd` is the write of CMD_OP, with
the operands written before it. -/
inductive Input
  /-- `TICK n`: `n` consecutive Tick steps (60_exceptions.md R415). -/
  | tick (n : Nat)
  /-- `Arrive(b)` (60_exceptions.md R420). -/
  | arrive (b : Byte)
  /-- A 32-bit host write to the register at a byte offset. -/
  | write (offset : Nat) (value : Word)
  /-- A 32-bit host read of the register at a byte offset. -/
  | read (offset : Nat)
  /-- `Reset` (70_reset_and_hazards.md R440). -/
  | reset
  deriving DecidableEq, Repr

structure State where
  /-- The parameters of the instance (00_scope.md R6, R7); no step writes them. -/
  params : Params
  /-- `rx_buf` (R21). -/
  rxBuf : Buf
  /-- `tx_buf` (R22). -/
  txBuf : Buf
  /-- `rx_state` (R24). -/
  rxState : RxState
  /-- `rx_len` (R25). -/
  rxLen : Nat
  /-- `tx_len` (R26). -/
  txLen : Nat
  /-- `rx_valid` (R27). -/
  rxValid : Bool
  /-- `awaiting` (R28). -/
  awaiting : Bool
  /-- `allowed` (R29). -/
  allowed : Bool
  /-- `tx_pending` (R30). -/
  txPending : Bool
  /-- `pending_target` (R30). -/
  pendingTarget : Byte
  /-- `tx_variant` (R31). -/
  txVariant : Variant
  /-- `tx_vq` (R31, R35). -/
  txVq : Half
  /-- `ev_pending` (R32): bit 0 FRAME, bit 1 FAIL. -/
  evPending : BitVec 2
  /-- `ev_mask` (R32). -/
  evMask : BitVec 2
  /-- `rx_view` (R33). -/
  rxView : View
  /-- `now` (R37). -/
  now : Word
  /-- `last_rx_us` (R38). -/
  lastRxUs : Word
  /-- `last_act_us` (R38). -/
  lastActUs : Word
  /-- `tx_stamp_us` (R38). -/
  txStampUs : Word
  /-- `baud` (R39). -/
  baud : Word
  /-- `silence_us` (R39). -/
  silenceUs : Word
  /-- `sendback_us` (R39). -/
  sendbackUs : Word
  /-- `resp_timeout_us` (R39). -/
  respTimeoutUs : Word
  /-- `station` (R40). -/
  station : Byte
  /-- `fail_kind` (R41). -/
  failKind : FailKind
  /-- `total_frames` (R42). -/
  totalFrames : Word
  /-- `failed_frames` (R42). -/
  failedFrames : Word
  /-- `crc` (R43), the host-visible accumulator. -/
  crc : Half
  /-- `cmd_arg0` (R44). -/
  cmdArg0 : Word
  /-- `cmd_arg1` (R44). -/
  cmdArg1 : Word
  /-- `result` (R44). -/
  result : ResultCode
  /-- `rdata` (R44). -/
  rdata : Word
  /-- `hdata` (R44), oldest entry first. -/
  hdata : List Half
  /-- `rxq` (R46), the transport's queue of received bytes, oldest first. -/
  rxq : List Byte
  /-- `txlog` (R47), oldest event first. -/
  txlog : List TxEvent
  /-- The model's own: the steps of the agents still to come, next first (log 2). -/
  inputs : List Input
  /-- The model's own: the word the last host register read returned (log 11). -/
  portData : Word
  /-- The model's own: the counter `Config.cmdOpRead` is applied to (log 8). -/
  freeCount : Nat
  deriving DecidableEq, Repr

/-- The reset value of every state element of an instance with parameters `p` (R441). Both buffers read 0 (log 4), no step
is waiting in `inputs` (log 2), `portData` and `freeCount` are 0 (log 8, log 11). -/
def State.resetOf (p : Params) : State where
  params := p
  rxBuf := []
  txBuf := []
  rxState := .waitStation
  rxLen := 0
  txLen := 0
  rxValid := false
  awaiting := false
  allowed := false
  txPending := false
  pendingTarget := 0
  txVariant := .none
  txVq := 0
  evPending := 0
  evMask := 0
  rxView := { variant := .none, status := .ok, bc := 0, vq := 0 }
  now := 0
  lastRxUs := 0
  lastActUs := 0
  txStampUs := 0
  baud := p.baudReset
  silenceUs := silenceOf p p.baudReset
  sendbackUs := sendbackOf p (silenceOf p p.baudReset)
  respTimeoutUs := p.respTimeoutReset
  station := if p.role = .slave then p.stationReset else 0
  failKind := .none
  totalFrames := 0
  failedFrames := 0
  crc := 0xFFFF#16
  cmdArg0 := 0
  cmdArg1 := 0
  result := .ok
  rdata := 0
  hdata := []
  rxq := []
  txlog := []
  inputs := []
  portData := 0
  freeCount := 0

/-- The machine right after reset, for the instance of `Params.default` (log 3). -/
def State.reset : State := State.resetOf Params.default

/-- Why the machine stops with a fault. -/
inductive Fault
  /-- An access of a buffer byte outside the buffer or outside the frame it holds. Raised by the buffer guard `within` of
  the commands and of the transmitter. 00_scope.md R9 and 20_memory.md R78 call such an access a bug in the caller; no state
  that meets `State.Inv` reaches it. Safe (log 9). -/
  | outsideBuffer
  /-- A host read or write at a byte offset the register map of 10_state.md R45 does not have. Raised by the host port
  alone, never by an instruction. Safe (log 7). -/
  | noRegister (offset : Nat)
  deriving DecidableEq, Repr

/-- Why the machine refuses to give a meaning. -/
inductive Refusal
  /-- The instruction has no meaning yet. Raised by a refused arm of `exec` alone. Safe. -/
  | notModelled (mnemonic : String)
  deriving DecidableEq, Repr

/-- The outcome of a step of this machine. -/
abbrev Outcome := Host.Outcome State Fault Refusal

end Sys2Proof.Machine
end

