-- ==== Sys2Proof/Machine/Ops.lean ====
section
/-! DEFINITION. The named operations over the two buffers and the registers that every meaning is written with: buffer reads
and writes, ending a command, the failure entry (60_exceptions.md R410), which is the block's exception, and delivering a frame. -/

namespace Sys2Proof.Machine

/-! ### Buffers -/

/-- `buf[a]`: the byte at offset `a`; an unlisted offset reads 0 (log 4). -/
def Buf.read : Buf → Nat → Byte
  | [], _ => 0
  | (k, c) :: m, a => if k = a then c else Buf.read m a

/-- Writing a non-zero byte, keeping the offsets rising. -/
def Buf.put : Buf → Nat → Byte → Buf
  | [], a, b => [(a, b)]
  | (k, c) :: m, a, b =>
    if a < k then (a, b) :: (k, c) :: m
    else if k = a then (a, b) :: m
    else (k, c) :: Buf.put m a b

/-- `buf[a] <- 0` for `n` offsets from `a`. -/
def Buf.zeroFill (m : Buf) (a n : Nat) : Buf :=
  m.filter (fun c => decide (c.1 < a ∨ a + n ≤ c.1))

/-- `buf[a] <- b`. Writing 0 removes the entry, so that equal buffers are equal data. -/
def Buf.write (m : Buf) (a : Nat) (b : Byte) : Buf :=
  if b = 0 then m.zeroFill a 1 else m.put a b

/-- Writing consecutive bytes from `a`. -/
def Buf.writeAll : Buf → Nat → List Byte → Buf
  | m, _, [] => m
  | m, a, b :: bs => Buf.writeAll (Buf.write m a b) (a + 1) bs

/-- `buf[a .. a+n-1]`. -/
def Buf.slice (m : Buf) (a n : Nat) : List Byte :=
  (List.range n).map (fun i => m.read (a + i))

/-- `MemRead(buf, a, 2)`: high byte first (20_memory.md R71). -/
def Buf.read16 (m : Buf) (a : Nat) : Half := ofHiLo (m.read a) (m.read (a + 1))

/-- `MemWrite(buf, a, 2, v)`: high byte first (20_memory.md R71). -/
def Buf.write16 (m : Buf) (a : Nat) (v : Half) : Buf :=
  (m.write a (hi v)).write (a + 1) (lo v)

/-- The canonical form of a buffer of capacity `cap`: offsets strictly rising and below `cap`, no listed byte 0. -/
abbrev Buf.wf (cap : Nat) (m : Buf) : Prop :=
  m.Pairwise (fun c d => c.1 < d.1) ∧ ∀ c ∈ m, c.1 < cap ∧ c.2 ≠ 0

/-! ### Ending a step -/

/-- `return (code, value)` (00_scope.md R9): every command ends by writing `result` and `rdata`. -/
def done (s : State) (code : ResultCode) (value : Word) : Outcome :=
  .next { s with result := code, rdata := value }

/-- Doing `k` after an outcome that goes on. -/
def chain (o : Outcome) (k : State → Outcome) : Outcome :=
  match o with
  | .next s => k s
  | .fault f => .fault f
  | .refused r => .refused r

/-- The bounds check of 20_memory.md R78: the offsets accessed stay below `limit`. The rules that call an access establish
it, so where it fails the caller is wrong and the model stops (log 9). -/
def within (n limit : Nat) (k : Outcome) : Outcome :=
  if n ≤ limit then k else .fault .outsideBuffer

/-! ### Failures: the block's exceptions -/

/-- `raise Failure'(kind)` (60_exceptions.md R410): the failure entry as COMPLETE uses it, the frame having been counted
already. -/
def failureEntry (kind : FailKind) (s : State) : State :=
  { s with
    failedFrames := s.failedFrames + 1
    failKind := kind
    rxState := .waitStation
    rxValid := false
    evPending := s.evPending ||| 0b10#2 }

/-- `raise Failure(kind)` (60_exceptions.md R410): the frame-end event is counted, then the entry. There is no return
from it (R414): the receiver is back in WaitStation. -/
def raiseFailure (kind : FailKind) (s : State) : State :=
  failureEntry kind { s with totalFrames := s.totalFrames + 1 }

/-- A reserved opcode (46_config_and_system.md R381): BADCMD in `result`, 0 in `rdata`, nothing else. The block's illegal
instruction. -/
def badCommand (s : State) : Outcome := done s .badCmd 0

/-! ### Delivering a frame -/

/-- The delivery part of COMPLETE (44_framing_fsm.md R303, R304): the view becomes valid, the receiver is back in
WaitStation, the FRAME event is raised, and a slave addressed by its own station may reply. -/
def deliver (frameStation : Byte) (view : View) (s : State) : State :=
  { s with
    rxView := view
    rxValid := true
    rxState := .waitStation
    evPending := s.evPending ||| 0b01#2
    allowed := s.allowed || (decide (s.params.role = .slave) && decide (frameStation = s.station)) }

end Sys2Proof.Machine
end

