-- ==== Sys2Proof/Machine/Operands.lean ====
section
/-! DEFINITION. The operand forms of the commands: the selector (43_payload_ops.md R240), the fields and where they lie, and the
values region as an element list (R248, R249). -/

namespace Sys2Proof.Machine

/-! ### Code numbers -/

/-- 10_state.md R34. -/
def variantCode : Variant → Nat
  | .none => 0
  | .rqRead => 1
  | .rsBits => 2
  | .rsRegs => 3
  | .rwSingle => 4
  | .rqWbits => 5
  | .rqWregs => 6
  | .rsWmulti => 7
  | .diag => 8

/-- 10_state.md R36. -/
def statusCode : DecodeStatus → Nat
  | .ok => 0
  | .unsupported => 1
  | .short => 2
  | .excess => 3
  | .countMismatch => 4

/-- 10_state.md R24. -/
def rxStateCode : RxState → Nat
  | .waitStation => 0
  | .waitFunctionCode => 1
  | .waitData => 2

/-- 10_state.md R41. -/
def failKindCode : FailKind → Nat
  | .none => 0
  | .timedout => 1
  | .verifyFailed => 2
  | .overflow => 3
  | .unsupportedFunctionCode => 4

/-- 60_exceptions.md R405. -/
def resultCode : ResultCode → Nat
  | .ok => 0
  | .badVariant => 1
  | .range => 2
  | .noSpace => 3
  | .busy => 4
  | .badArg => 5
  | .unsupported => 6
  | .noFrame => 7
  | .badCmd => 8

/-- The field number of R113; 12 to 15 name no field. -/
def fieldOf (code : BitVec 4) : Option Field :=
  [Field.station, .fc, .address, .quantity, .value, .byteCount, .diagCode, .vq, .status, .variant, .len, .crcField][code.toNat]?

/-! ### Element classes and the values region -/

/-- `is_bits` (43_payload_ops.md R248). -/
def isBits : Variant → Bool
  | .rsBits | .rqWbits => true
  | .none | .rqRead | .rsRegs | .rwSingle | .rqWregs | .rsWmulti | .diag => false

/-- `is_regs` (43_payload_ops.md R248). -/
def isRegs : Variant → Bool
  | .rsRegs | .rqWregs => true
  | .none | .rqRead | .rsBits | .rwSingle | .rqWbits | .rsWmulti | .diag => false

/-- The variants with a values region. -/
def isVariable (v : Variant) : Bool := isBits v || isRegs v

/-- The write-multiple requests, whose `quantity` field follows the values region (43_payload_ops.md R249). -/
def isWriteMultiple : Variant → Bool
  | .rqWbits | .rqWregs => true
  | .none | .rqRead | .rsBits | .rsRegs | .rwSingle | .rsWmulti | .diag => false

/-- `val_off` (30_encoding.md R104). A variant without a values region has none; the 0 given for it is read by no command, each
of which tests the class first. -/
def valOff : Variant → Nat
  | .rsBits | .rsRegs => 3
  | .rqWbits | .rqWregs => 7
  | .none | .rqRead | .rwSingle | .rsWmulti | .diag => 0

/-- `cdiv8` (00_scope.md R8). -/
def cdiv8 (q : Nat) : Nat := (q + 7) / 8

/-- The bytes `q` elements take (30_encoding.md R106): `cdiv8(q)` bit-packed, `2*q` word-packed, computed without truncation. -/
def storageBytes (v : Variant) (q : Nat) : Nat := if isBits v then cdiv8 q else 2 * q

/-- Bit `i mod 8` of a byte (20_memory.md R74). -/
def bitOf (b : Byte) (i : Nat) : Bool := b.getLsbD (i % 8)

/-- A byte with bit `i mod 8` set to `v` and the other seven unchanged (43_payload_ops.md R245). -/
def setBit (b : Byte) (i : Nat) (v : Bool) : Byte :=
  let m : Byte := 1#8 <<< (i % 8)
  if v then b ||| m else b &&& ~~~m

/-- Element `i` of a values region (43_payload_ops.md R248): a bit as 0 or 1, or a 16-bit register. -/
def elemAt (m : Buf) (v : Variant) (i : Nat) : Half :=
  if isBits v then (if bitOf (m.read (valOff v + i / 8)) i then 1#16 else 0#16)
  else m.read16 (valOff v + 2 * i)

/-- `elems(buf, v, vq)` (43_payload_ops.md R248). -/
def elems (m : Buf) (v : Variant) (vq : Nat) : List Half :=
  (List.range vq).map (elemAt m v)

/-- A byte from its eight bits, bit 0 first (20_memory.md R74). -/
def byteOfBits (f : Nat → Bool) : Byte :=
  BitVec.ofBool (f 7) ++ BitVec.ofBool (f 6) ++ BitVec.ofBool (f 5) ++ BitVec.ofBool (f 4) ++
    BitVec.ofBool (f 3) ++ BitVec.ofBool (f 2) ++ BitVec.ofBool (f 1) ++ BitVec.ofBool (f 0)

/-- `pack_bits` (42_pdu_create_encode.md R216). -/
def packBits (bits : List Bool) : List Byte :=
  (List.range (cdiv8 bits.length)).map (fun k => byteOfBits (fun j => bits.getD (8 * k + j) false))

/-- `pack_regs` (42_pdu_create_encode.md R216). -/
def packRegs (regs : List Half) : List Byte :=
  regs.flatMap (fun r => [hi r, lo r])

/-- The wire encoding of an element list (43_payload_ops.md R259). A bit element is bit 0 of its entry (10_state.md R44). -/
def packElems (v : Variant) (es : List Half) : List Byte :=
  if isBits v then packBits (es.map (fun e => e.getLsbD 0)) else packRegs es

/-! ### Selectors -/

/-- What a get command reads under a selector (43_payload_ops.md R240). -/
structure Selected where
  buf : Buf
  variant : Variant
  status : DecodeStatus
  vq : Nat
  /-- `len`, the end of the PDU. -/
  len : Nat
  deriving DecidableEq, Repr

/-- The selected frame; none is NOFRAME (43_payload_ops.md R240). -/
def select (sel : Sel) (s : State) : Option Selected :=
  match sel with
  | .rx =>
    if s.rxValid then
      some { buf := s.rxBuf, variant := s.rxView.variant, status := s.rxView.status, vq := s.rxView.vq.toNat, len := s.rxLen - 2 }
    else none
  | .tx =>
    if s.txVariant = .none then none
    else some { buf := s.txBuf, variant := s.txVariant, status := .ok, vq := s.txVq.toNat, len := s.txLen }

/-- Running a get command on the selected frame, or NOFRAME (43_payload_ops.md R240). -/
def withSelected (sel : Sel) (s : State) (k : Selected → Outcome) : Outcome :=
  match select sel s with
  | none => done s .noFrame 0
  | some f => within (f.len + 2) s.params.cap (k f)

/-- Running a command on the envelope, or NOFRAME (43_payload_ops.md R240). -/
def withEnvelope (s : State) (k : Outcome) : Outcome :=
  if s.txVariant = .none then done s .noFrame 0
  else within (s.txLen + 2) s.params.cap k

/-! ### Fields -/

/-- Where a field of the buffer lies: its offset and its width in bytes. None: the variant does not have it, or the field
is not in the buffer (43_payload_ops.md R240). CRCFIELD, at `len`, is apart. -/
def fieldPlace (v : Variant) : Field → Option (Nat × Nat)
  | .station => some (0, 1)
  | .fc => some (1, 1)
  | .address => match v with
    | .rqRead | .rwSingle | .rqWbits | .rqWregs | .rsWmulti => some (2, 2)
    | .none | .rsBits | .rsRegs | .diag => none
  | .quantity => match v with
    | .rqRead | .rqWbits | .rqWregs | .rsWmulti => some (4, 2)
    | .none | .rsBits | .rsRegs | .rwSingle | .diag => none
  | .value => match v with
    | .rwSingle => some (4, 2)
    | .none | .rqRead | .rsBits | .rsRegs | .rqWbits | .rqWregs | .rsWmulti | .diag => none
  | .byteCount => if isVariable v then some (valOff v - 1, 1) else none
  | .diagCode => match v with
    | .diag => some (2, 1)
    | .none | .rqRead | .rsBits | .rsRegs | .rwSingle | .rqWbits | .rqWregs | .rsWmulti => none
  | .vq | .status | .variant | .len | .crcField => none

/-- Whether PL.SETF may write the field in some variant (43_payload_ops.md R240). -/
def settable : Field → Bool
  | .station | .address | .quantity | .value | .diagCode => true
  | .fc | .byteCount | .vq | .status | .variant | .len | .crcField => false

/-- Reading a field of 1 or 2 bytes, zero-extended (30_encoding.md R105). -/
def readField (m : Buf) (o w : Nat) : Word :=
  if w = 1 then (m.read o).setWidth 32 else (m.read16 o).setWidth 32

/-- Writing a field of 1 or 2 bytes; the upper bits are dropped for a byte (43_payload_ops.md R242). -/
def writeField (m : Buf) (o w : Nat) (value : Half) : Buf :=
  if w = 1 then m.write o (lo value) else m.write16 o value

/-! ### Changing the element list -/

/-- `store_values(es)` (43_payload_ops.md R249) and the end of the command that called it: the values region becomes the wire
encoding of `es`, everything after it up to the old CRC bytes becomes 0, and byteCount, `tx_vq`, `tx_len` and the
`quantity` of a write-multiple request follow. All or nothing: NOSPACE writes no byte (R258). -/
def storeValues (es : List Half) (s : State) : Outcome :=
  let v := s.txVariant
  let o := valOff v
  let bc := storageBytes v es.length
  if 255 < bc ∨ s.params.cap < o + bc + 2 then done s .noSpace 0
  else
    let clear := max bc (s.txBuf.read (o - 1)).toNat + 2
    let region := (s.txBuf.zeroFill o clear).writeAll o (packElems v es)
    let counted := region.write (o - 1) (BitVec.ofNat 8 bc)
    let buf := if isWriteMultiple v then counted.write16 4 (BitVec.ofNat 16 es.length) else counted
    within (o + clear) s.params.cap
      (done { s with txBuf := buf, txVq := BitVec.ofNat 16 es.length, txLen := o + bc } .ok 0)

/-- The element list of the envelope (43_payload_ops.md section 5). -/
def envelopeElems (s : State) : List Half := elems s.txBuf s.txVariant s.txVq.toNat

/-- A command that changes the element list: NOFRAME, then BADVARIANT unless the envelope has this class of elements
(43_payload_ops.md section 5). The region read lies inside the PDU. -/
def withElements (cls : Variant → Bool) (s : State) (k : Outcome) : Outcome :=
  withEnvelope s <|
    if cls s.txVariant then within (valOff s.txVariant + storageBytes s.txVariant s.txVq.toNat) s.txLen k
    else done s .badVariant 0

/-- Pushing onto `hdata`; a push to a full FIFO is dropped (93_implementation_defined.md U18). -/
def pushHdata (p : Params) (q : List Half) (es : List Half) : List Half := (q ++ es).take (max p.hdataDepth q.length)

/-- The four insert commands (43_payload_ops.md R250, R251, R254, R255): `n` entries are popped from `hdata`, or BADARG with
nothing popped, and `place d es` is stored, for `n = 0` too (log 6). -/
def insertElems (cls : Variant → Bool) (place : List Half → List Half → List Half) (n : Nat) (s : State) : Outcome :=
  withElements cls s <|
    if s.hdata.length < n then done s .badArg 0
    else storeValues (place (s.hdata.take n) (envelopeElems s)) { s with hdata := s.hdata.drop n }

/-- The four remove commands (43_payload_ops.md R252, R253, R256, R257): `cut` splits the element list into the elements
removed and those kept; the removed ones replace the contents of `hdata` (10_state.md R44), for `n = 0` too (log 6). -/
def removeElems (cls : Variant → Bool) (cut : List Half → List Half × List Half) (n : Nat) (s : State) : Outcome :=
  withElements cls s <|
    if s.txVq.toNat < n then done s .range 0
    else
      let parts := cut (envelopeElems s)
      storeValues parts.2 { s with hdata := pushHdata s.params [] parts.1 }

end Sys2Proof.Machine
end

