-- ==== Sys2Proof/Machine/Envelope.lean ====
section
/-! DEFINITION. The meanings of the create commands (42_pdu_create_encode.md). -/

namespace Sys2Proof.Machine

/-- The common steps of the create commands (R213): the envelope is emptied even when the command then refuses; else the
station and function-code header is written over a zero payload of the variant's length (R214). -/
def createEnvelope (v : Variant) (fcb : Byte) (s : State) : Outcome :=
  if v = .none then done { s with txBuf := [], txVariant := .none, txLen := 0, txVq := 0 } .unsupported 0
  else
    let header : Byte := if s.params.role = .slave then s.station else 0
    within (v.initLen + 2) s.params.cap
      (done { s with
        txBuf := (Buf.write [] 0 header).write 1 fcb
        txVariant := v
        txLen := v.initLen
        txVq := 0 } .ok 0)

/-- The variant a create command takes for a supported function code (R210, R211); NONE outside `SUPPORTED`. -/
def createVariant (fc : Byte) (isResponse : Bool) : Variant :=
  match BaseFc.ofByte fc with
  | some _ => variantOf fc isResponse
  | none => .none

/-- `ENV.CREQ fc` (R210). -/
def execEnvCreq (fc : Byte) (s : State) : Outcome := createEnvelope (createVariant fc false) fc s

/-- `ENV.CRSP fc` (R211): a diagnose code is refused. -/
def execEnvCrsp (fc : Byte) (s : State) : Outcome := createEnvelope (createVariant fc true) fc s

/-- `ENV.CDIAG fc` (R212): the base code, or the diagnose code with bit 7 already set. -/
def execEnvCdiag (fc : Byte) (s : State) : Outcome :=
  let base := fc &&& 0x7F#8
  createEnvelope (match BaseFc.ofByte base with
    | some _ => .diag
    | none => .none) (base ||| 0x80#8) s

end Sys2Proof.Machine
end

