-- ==== Sys2Proof/Machine/Checksum.lean ====
section
/-! DEFINITION. The meanings of the accumulator and CRC commands (40_crc_and_envelope.md). -/

namespace Sys2Proof.Machine

/-- `CRC.RESET` (R141). -/
def execCrcReset (s : State) : Outcome := done { s with crc := 0xFFFF#16 } .ok 0

/-- `CRC.UPDATE b` (R142). -/
def execCrcUpdate (b : Byte) (s : State) : Outcome := done { s with crc := crcStep s.crc b } .ok 0

/-- `CRC.VALUE` (R143): the accumulator is read, not reset. -/
def execCrcValue (s : State) : Outcome := done s .ok (s.crc.setWidth 32)

/-- The CRC of the envelope's station and PDU (R145). -/
def envelopeCrc (s : State) : Half := crc16 (s.txBuf.slice 0 s.txLen)

/-- `applyCrc` (R145): the CRC of `buf[0 .. len-1]` over the two bytes at `len`, low byte first. -/
def applyCrc (buf : Buf) (len : Nat) : Buf := buf.writeAll len (crcBytes (buf.slice 0 len))

/-- `ENV.APPLYCRC` (R145). -/
def execEnvApplycrc (s : State) : Outcome :=
  withEnvelope s (done { s with txBuf := applyCrc s.txBuf s.txLen } .ok ((envelopeCrc s).setWidth 32))

/-- The comparison of R146: the two bytes at `len` against the CRC of `buf[0 .. len-1]`. -/
def crcMatches (buf : Buf) (len : Nat) : Bool := buf.slice len 2 == crcBytes (buf.slice 0 len)

/-- `ENV.VERIFYCRC sel` (R146). Under RX it works on the last ended frame, valid or not. -/
def execEnvVerifycrc (sel : Sel) (s : State) : Outcome :=
  match sel with
  | .rx =>
    if s.rxState ≠ .waitStation ∨ s.rxLen < 4 then done s .noFrame 0
    else within s.rxLen s.params.cap (done s .ok (if crcMatches s.rxBuf (s.rxLen - 2) then 1 else 0))
  | .tx => withEnvelope s (done s .ok (if crcMatches s.txBuf s.txLen then 1 else 0))

end Sys2Proof.Machine
end

