-- ==== Sys2Proof/Machine/Flags.lean ====
section
/-! DEFINITION. The flags the block computes from its state: the transmit gate, the interrupt line and the packed
register words (10_state.md R32, R45; 45_role_gate.md R331). -/

namespace Sys2Proof.Machine

/-- `avail_tx` (45_role_gate.md R331): the role permits a transmission and none is pending. -/
def availTx (s : State) : Bool :=
  !s.txPending && (if s.params.role = .master then !s.awaiting else s.allowed)

/-- `irq` (10_state.md R32): level-sensitive, some pending event is enabled. -/
def irq (s : State) : Bool := (s.evPending &&& s.evMask) != 0#2

/-- A flag as the number 0 or 1. -/
def flag (b : Bool) : Nat := if b then 1 else 0

/-- The STATUS register (10_state.md R45), bit by bit. -/
def statusWord (s : State) : Word :=
  BitVec.ofNat 32
    (rxStateCode s.rxState + 4 * flag s.rxValid + 8 * flag s.awaiting + 16 * flag s.allowed + 32 * flag s.txPending +
      64 * flag (availTx s) + 128 * flag (decide (s.params.role = .master)) + 256 * flag (irq s))

/-- A packed view register: [3:0] variant, [6:4] status, [15:8] bc, [31:16] vq (10_state.md R45). -/
def viewWord (v : View) : Word :=
  BitVec.ofNat 32 (variantCode v.variant + 16 * statusCode v.status + 256 * v.bc.toNat + 65536 * v.vq.toNat)

/-- The RX_VIEW register (10_state.md R45): all 0 when `rx_valid = 0`. -/
def rxViewWord (s : State) : Word := if s.rxValid then viewWord s.rxView else 0

/-- The TX_VIEW register (10_state.md R45): the byteCount byte of `tx_buf`, 0 for the fixed variants. -/
def txViewWord (s : State) : Word :=
  viewWord {
    variant := s.txVariant
    status := .ok
    bc := if isVariable s.txVariant then s.txBuf.read (valOff s.txVariant - 1) else 0
    vq := s.txVq }

end Sys2Proof.Machine
end

