-- ==== Sys2Proof/Machine/Roles.lean ====
section
/-! DEFINITION. The role controllers (45_role_gate.md): the gate, the transmission, the response timeout, the deferred
transmission, and the meanings of the three ROLE commands. -/

namespace Sys2Proof.Machine

/-- `ROLE.AVAIL` (R331). -/
def execRoleAvail (s : State) : Outcome := done s .ok (if availTx s then 1 else 0)

/-- `gate(target)` (R332, R344): the first check that fails gives the code. A slave ignores the target. -/
def gate (target : Byte) (s : State) : ResultCode :=
  if s.txVariant = .none then .noFrame
  else if s.params.role = .master ∧ 247 < target.toNat then .badArg
  else if availTx s = false then .busy
  else .ok

/-- The bytes of the outgoing ADU (40_crc_and_envelope.md R147): `tx_len + 2` of them, in buffer order. -/
def aduBytes (buf : Buf) (len : Nat) : List Byte := buf.slice 0 (len + 2)

/-- `Begin`, the bytes of a frame, `End` (R335). -/
def txGroup (bytes : List Byte) : List TxEvent := .txBegin :: bytes.map .txByte ++ [.txEnd]

/-- `DOXMIT(target)` (R335, R336, R337): the station byte is decided here, the CRC is applied, the whole frame is handed to the
transport, and the gate of the role is closed. -/
def doXmit (target : Byte) (s : State) : Outcome :=
  let stationByte : Byte := if s.params.role = .master then target else s.station
  let buf := applyCrc (s.txBuf.write 0 stationByte) s.txLen
  let sent : State := { s with
    txBuf := buf
    txlog := s.txlog ++ txGroup (aduBytes buf s.txLen)
    lastActUs := s.now }
  within (s.txLen + 2) s.params.cap <| .next <|
    if s.params.role = .master then { sent with awaiting := true, txStampUs := s.now } else { sent with allowed := false }

/-- `ROLE.XMIT target` (R333 on a master, R334 on a slave). -/
def execRoleXmit (target : Byte) (s : State) : Outcome :=
  match gate target s with
  | .ok => chain (doXmit target s) fun s' => done s' .ok 0
  | code => done s code 0

/-- `ROLE.XMITDEF target` (R338): only the intent and, on a master, the target are recorded. -/
def execRoleXmitdef (target : Byte) (s : State) : Outcome :=
  match gate target s with
  | .ok =>
    done { s with
      txPending := true
      pendingTarget := if s.params.role = .master then target else 0 } .ok 0
  | code => done s code 0

/-- `RESPONSE TIMEOUT` (R340): phase 3 of an update, master only. -/
def responseTimeout (s : State) : State :=
  if s.params.role = .master ∧ s.awaiting = true ∧ s.respTimeoutUs.toNat ≤ elapsed s.now s.txStampUs then
    raiseFailure .timedout { s with awaiting := false }
  else s

/-- `DEFERRED TRANSMIT` (R341): phase 4 of an update; an emptied envelope drops the request. -/
def deferredTransmit (s : State) : Outcome :=
  if s.txPending = true ∧ s.sendbackUs.toNat ≤ elapsed s.now s.lastActUs then
    if s.txVariant = .none then .next { s with txPending := false }
    else doXmit s.pendingTarget { s with txPending := false }
  else .next s

end Sys2Proof.Machine
end

