-- ==== Sys2Proof/Machine/Codec.lean ====
section
/-! DEFINITION. `PDU.DECODE` and `PDU.ENCODE`: the pure, total functions between payload bytes and views, and between typed
payloads and bytes (41_pdu_decode.md, 42_pdu_create_encode.md R215, R216). -/

namespace Sys2Proof.Machine

/-- The status of a payload of `n` bytes whose layout accounts for `want` (41_pdu_decode.md R172). -/
def lengthStatus (n want : Nat) : DecodeStatus :=
  if n < want then .short else if want < n then .excess else .ok

/-- The status of a variable-length payload: SHORT, then EXCESS, then COUNT_MISMATCH (41_pdu_decode.md R172). -/
def countedStatus (avail bc : Nat) (mismatch : Bool) : DecodeStatus :=
  if avail < bc then .short else if bc < avail then .excess else if mismatch then .countMismatch else .ok

/-- A layout of `want` bytes with no values region (41_pdu_decode.md R173, R181, R186, R189). -/
def viewFixed (v : Variant) (want : Nat) (p : List Byte) : View :=
  { variant := v, status := lengthStatus p.length want, bc := 0, vq := 0 }

/-- The view of a payload too short to hold its byteCount byte. -/
def viewShort (v : Variant) : View := { variant := v, status := .short, bc := 0, vq := 0 }

/-- `RS_BITS` (41_pdu_decode.md R177). -/
def viewRsBits (p : List Byte) : View :=
  match p with
  | [] => viewShort .rsBits
  | bc :: values =>
    let avail := values.length
    let eff := min bc.toNat avail
    { variant := .rsBits, status := countedStatus avail bc.toNat false, bc := bc, vq := BitVec.ofNat 16 (8 * eff) }

/-- `RS_REGS` (41_pdu_decode.md R179): an odd byteCount is no `quantity*2`. -/
def viewRsRegs (p : List Byte) : View :=
  match p with
  | [] => viewShort .rsRegs
  | bc :: values =>
    let avail := values.length
    let eff := min bc.toNat avail
    { variant := .rsRegs, status := countedStatus avail bc.toNat (bc.toNat % 2 == 1), bc := bc, vq := BitVec.ofNat 16 (eff / 2) }

/-- `RQ_WBITS` (41_pdu_decode.md R185). -/
def viewRqWbits (p : List Byte) : View :=
  match p with
  | _ :: _ :: q1 :: q0 :: bc :: values =>
    let qty := (ofHiLo q1 q0).toNat
    let avail := values.length
    let eff := min bc.toNat avail
    { variant := .rqWbits, status := countedStatus avail bc.toNat (bc.toNat != cdiv8 qty), bc := bc,
      vq := BitVec.ofNat 16 (min qty (8 * eff)) }
  | [] | [_] | [_, _] | [_, _, _] | [_, _, _, _] => viewShort .rqWbits

/-- `RQ_WREGS` (41_pdu_decode.md R187). -/
def viewRqWregs (p : List Byte) : View :=
  match p with
  | _ :: _ :: q1 :: q0 :: bc :: values =>
    let qty := (ofHiLo q1 q0).toNat
    let avail := values.length
    let eff := min bc.toNat avail
    { variant := .rqWregs, status := countedStatus avail bc.toNat (bc.toNat != 2 * qty), bc := bc,
      vq := BitVec.ofNat 16 (min qty (eff / 2)) }
  | [] | [_] | [_, _] | [_, _, _] | [_, _, _, _] => viewShort .rqWregs

/-- The decode of each wire form (41_pdu_decode.md R173 to R189). -/
def formView : WireForm → List Byte → View
  | .rdcoilsReq, p => viewFixed .rqRead 4 p
  | .rddiscReq, p => viewFixed .rqRead 4 p
  | .rdholdReq, p => viewFixed .rqRead 4 p
  | .rdinputReq, p => viewFixed .rqRead 4 p
  | .rdcoilsRsp, p => viewRsBits p
  | .rddiscRsp, p => viewRsBits p
  | .rdholdRsp, p => viewRsRegs p
  | .rdinputRsp, p => viewRsRegs p
  | .wrcoilReq, p => viewFixed .rwSingle 4 p
  | .wrcoilRsp, p => viewFixed .rwSingle 4 p
  | .wrregReq, p => viewFixed .rwSingle 4 p
  | .wrregRsp, p => viewFixed .rwSingle 4 p
  | .wrcoilsReq, p => viewRqWbits p
  | .wrcoilsRsp, p => viewFixed .rsWmulti 4 p
  | .wrregsReq, p => viewRqWregs p
  | .wrregsRsp, p => viewFixed .rsWmulti 4 p
  | .diagRsp _, p => viewFixed .diag 1 p

/-- `PDU.DECODE(fc, is_response, p)` (41_pdu_decode.md R170, R171, R190). -/
def pduDecode (fc : Byte) (isResponse : Bool) (p : List Byte) : View :=
  match wireFormOf fc isResponse with
  | some form => formView form p
  | none => { variant := .none, status := .unsupported, bc := 0, vq := 0 }

/-- The two bytes of a 16-bit field, high byte first (20_memory.md R71). -/
def fieldBytes (v : Half) : List Byte := [hi v, lo v]

/-- `PDU.ENCODE` (42_pdu_create_encode.md R215): the function code, then the fields in the fixed wire order. -/
def pduEncode : Payload → List Byte
  | .readReq fc addr qty => fc.code :: (fieldBytes addr ++ fieldBytes qty)
  | .bitsRsp fc bits => fc.code :: BitVec.ofNat 8 (cdiv8 bits.length) :: packBits bits
  | .regsRsp fc regs => fc.code :: BitVec.ofNat 8 (2 * regs.length) :: packRegs regs
  | .single fc addr value => fc.code :: (fieldBytes addr ++ fieldBytes value)
  | .wBitsReq addr bits =>
    BaseFc.writeCoils.code :: (fieldBytes addr ++ fieldBytes (BitVec.ofNat 16 bits.length) ++
      BitVec.ofNat 8 (cdiv8 bits.length) :: packBits bits)
  | .wRegsReq addr regs =>
    BaseFc.writeRegs.code :: (fieldBytes addr ++ fieldBytes (BitVec.ofNat 16 regs.length) ++
      BitVec.ofNat 8 (2 * regs.length) :: packRegs regs)
  | .wMultiRsp fc addr qty => fc.code :: (fieldBytes addr ++ fieldBytes qty)
  | .diag base code => [base.code ||| 0x80#8, code]

/-! ### The value of Write Single Coil (30_encoding.md R107) -/

/-- `coil_legal(value)`: one of the two values the wire format names. The codec carries any value; this is for the reader of one. -/
def coilLegal (value : Half) : Bool := value == 0xFF00#16 || value == 0x0000#16

/-- `coil_on(value)`. -/
def coilOn (value : Half) : Bool := value == 0xFF00#16

end Sys2Proof.Machine
end

