-- ==== Sys2Proof/Machine/Wire.lean ====
section
/-! DEFINITION. The meanings of the wire forms (41_pdu_decode.md R173 to R189): a wire form is executed when a frame that carries
it completes reception. By then COMPLETE has counted the frame, checked its CRC and decoded its form
(44_framing_fsm.md R303); the form's own effect is its view and the delivery (log 5). -/

namespace Sys2Proof.Machine

/-- `RDCOILS.REQ` (R173). -/
def execRdcoilsReq (station : Byte) (payload : List Byte) (s : State) : Outcome :=
  .next (deliver station (formView .rdcoilsReq payload) s)

/-- `RDDISC.REQ` (R174). -/
def execRddiscReq (station : Byte) (payload : List Byte) (s : State) : Outcome :=
  .next (deliver station (formView .rddiscReq payload) s)

/-- `RDHOLD.REQ` (R175). -/
def execRdholdReq (station : Byte) (payload : List Byte) (s : State) : Outcome :=
  .next (deliver station (formView .rdholdReq payload) s)

/-- `RDINPUT.REQ` (R176). -/
def execRdinputReq (station : Byte) (payload : List Byte) (s : State) : Outcome :=
  .next (deliver station (formView .rdinputReq payload) s)

/-- `RDCOILS.RSP` (R177). -/
def execRdcoilsRsp (station : Byte) (payload : List Byte) (s : State) : Outcome :=
  .next (deliver station (formView .rdcoilsRsp payload) s)

/-- `RDDISC.RSP` (R178). -/
def execRddiscRsp (station : Byte) (payload : List Byte) (s : State) : Outcome :=
  .next (deliver station (formView .rddiscRsp payload) s)

/-- `RDHOLD.RSP` (R179). -/
def execRdholdRsp (station : Byte) (payload : List Byte) (s : State) : Outcome :=
  .next (deliver station (formView .rdholdRsp payload) s)

/-- `RDINPUT.RSP` (R180). -/
def execRdinputRsp (station : Byte) (payload : List Byte) (s : State) : Outcome :=
  .next (deliver station (formView .rdinputRsp payload) s)

/-- `WRCOIL.REQ` (R181). -/
def execWrcoilReq (station : Byte) (payload : List Byte) (s : State) : Outcome :=
  .next (deliver station (formView .wrcoilReq payload) s)

/-- `WRCOIL.RSP` (R182). -/
def execWrcoilRsp (station : Byte) (payload : List Byte) (s : State) : Outcome :=
  .next (deliver station (formView .wrcoilRsp payload) s)

/-- `WRREG.REQ` (R183). -/
def execWrregReq (station : Byte) (payload : List Byte) (s : State) : Outcome :=
  .next (deliver station (formView .wrregReq payload) s)

/-- `WRREG.RSP` (R184). -/
def execWrregRsp (station : Byte) (payload : List Byte) (s : State) : Outcome :=
  .next (deliver station (formView .wrregRsp payload) s)

/-- `WRCOILS.REQ` (R185). -/
def execWrcoilsReq (station : Byte) (payload : List Byte) (s : State) : Outcome :=
  .next (deliver station (formView .wrcoilsReq payload) s)

/-- `WRCOILS.RSP` (R186). -/
def execWrcoilsRsp (station : Byte) (payload : List Byte) (s : State) : Outcome :=
  .next (deliver station (formView .wrcoilsRsp payload) s)

/-- `WRREGS.REQ` (R187). -/
def execWrregsReq (station : Byte) (payload : List Byte) (s : State) : Outcome :=
  .next (deliver station (formView .wrregsReq payload) s)

/-- `WRREGS.RSP` (R188). -/
def execWrregsRsp (station : Byte) (payload : List Byte) (s : State) : Outcome :=
  .next (deliver station (formView .wrregsRsp payload) s)

/-- `DIAG.RSP` (R189): the diagnose code is an opaque byte, whatever the base. -/
def execDiagRsp (base : BaseFc) (station : Byte) (payload : List Byte) (s : State) : Outcome :=
  .next (deliver station (formView (.diagRsp base) payload) s)

/-- Executing a decoded frame: the meaning of its wire form. -/
def runFrame (f : Frame) (s : State) : Outcome :=
  match f.form with
  | .rdcoilsReq => execRdcoilsReq f.station f.payload s
  | .rddiscReq => execRddiscReq f.station f.payload s
  | .rdholdReq => execRdholdReq f.station f.payload s
  | .rdinputReq => execRdinputReq f.station f.payload s
  | .rdcoilsRsp => execRdcoilsRsp f.station f.payload s
  | .rddiscRsp => execRddiscRsp f.station f.payload s
  | .rdholdRsp => execRdholdRsp f.station f.payload s
  | .rdinputRsp => execRdinputRsp f.station f.payload s
  | .wrcoilReq => execWrcoilReq f.station f.payload s
  | .wrcoilRsp => execWrcoilRsp f.station f.payload s
  | .wrregReq => execWrregReq f.station f.payload s
  | .wrregRsp => execWrregRsp f.station f.payload s
  | .wrcoilsReq => execWrcoilsReq f.station f.payload s
  | .wrcoilsRsp => execWrcoilsRsp f.station f.payload s
  | .wrregsReq => execWrregsReq f.station f.payload s
  | .wrregsRsp => execWrregsRsp f.station f.payload s
  | .diagRsp base => execDiagRsp base f.station f.payload s

end Sys2Proof.Machine
end

