-- ==== Sys2Proof/Machine/Framing.lean ====
section
/-! DEFINITION. The framing state machine (44_framing_fsm.md) and the meaning of FSM.UPDATE. -/

namespace Sys2Proof.Machine

/-- `RXBYTE(b)` (R296): a byte in WaitStation starts a new frame, whose first byte is stored at index 0. -/
def rxByte (b : Byte) (s : State) : State :=
  match s.rxState with
  | .waitStation =>
    { s with rxState := .waitFunctionCode, rxValid := false, rxBuf := s.rxBuf.write 0 b, rxLen := 1,
             lastRxUs := s.now, lastActUs := s.now }
  | .waitFunctionCode | .waitData =>
    { s with rxState := .waitData, rxBuf := s.rxBuf.write s.rxLen b, rxLen := s.rxLen + 1,
             lastRxUs := s.now, lastActUs := s.now }

/-- `DRAIN` (R301) over the queue `q`: it stops early only when the window buffer is full, and leaves the rest in `rxq`. -/
def drainFrom : List Byte → State → State
  | [], s => { s with rxq := [] }
  | b :: q, s =>
    if s.rxState = .waitStation ∨ s.rxLen < s.params.cap then drainFrom q (rxByte b s)
    else { s with rxq := b :: q }

/-- `DRAIN` (R301). -/
def drain (s : State) : State := drainFrom s.rxq s

/-- `COMPLETE` (R303): the frame is counted, a master stops awaiting, the CRC and then the function code are checked, and the
frame's wire form is executed. The direction is that of the role (R103). -/
def complete (s : State) : Outcome :=
  let counted : State := { s with
    totalFrames := s.totalFrames + 1
    awaiting := if s.params.role = .master then false else s.awaiting }
  match decodeFrame (decide (s.params.role = .master)) (s.rxBuf.slice 0 s.rxLen) with
  | .ok f => runFrame f counted
  | .error (.unsupportedFunctionCode _) => .next (failureEntry .unsupportedFunctionCode counted)
  | .error _ => .next (failureEntry .verifyFailed counted)

/-- `ENDCHECK` (R302): overflow first, then silence, strictly longer than the interval. -/
def endCheck (s : State) : Outcome :=
  if s.rxState = .waitStation then .next s
  else if s.params.cap ≤ s.rxLen then .next (raiseFailure .overflow s)
  else if s.silenceUs.toNat < elapsed s.now s.lastRxUs then
    if s.rxLen < minAdu then .next (raiseFailure .timedout s) else complete s
  else .next s

/-- `FSM.UPDATE` (R300): drain, end check, response timeout, deferred transmission, and OK. -/
def execFsmUpdate (s : State) : Outcome :=
  within 1 s.params.cap <|
    chain (endCheck (drain s)) fun framed =>
      chain (deferredTransmit (responseTimeout framed)) fun sent => done sent .ok 0

end Sys2Proof.Machine
end

