-- ==== Sys2Proof/Machine/Payload.lean ====
section
/-! DEFINITION. The meanings of the payload commands (43_payload_ops.md). -/

namespace Sys2Proof.Machine

/-- The value of a field of the selected frame (R241): a result code and the value returned. -/
def fieldValue (f : Selected) : Field → ResultCode × Word
  | .vq => (.ok, BitVec.ofNat 32 f.vq)
  | .status => (.ok, BitVec.ofNat 32 (statusCode f.status))
  | .variant => (.ok, BitVec.ofNat 32 (variantCode f.variant))
  | .len => (.ok, BitVec.ofNat 32 f.len)
  | .crcField => (.ok, (ofHiLo (f.buf.read (f.len + 1)) (f.buf.read f.len)).setWidth 32)
  | field@(.station) | field@(.fc) | field@(.address) | field@(.quantity) | field@(.value) | field@(.byteCount)
  | field@(.diagCode) =>
    match fieldPlace f.variant field with
    | none => (.badVariant, 0)
    | some (o, w) => if f.len < o + w then (.range, 0) else (.ok, readField f.buf o w)

/-- `PL.GETF sel field` (R241): NOFRAME, BADARG, BADVARIANT, RANGE, in that order. -/
def execPlGetf (sel : Sel) (field : BitVec 4) (s : State) : Outcome :=
  withSelected sel s fun f =>
    match fieldOf field with
    | none => done s .badArg 0
    | some fld => done s (fieldValue f fld).1 (fieldValue f fld).2

/-- `PL.SETF field value` (R242): NOFRAME, BADARG, BADVARIANT, in that order; QUANTITY of a write-multiple request is owned by
the values region. -/
def execPlSetf (value : Half) (field : BitVec 4) (s : State) : Outcome :=
  withEnvelope s <|
    match fieldOf field with
    | none => done s .badArg 0
    | some fld =>
      if settable fld = false then done s .badArg 0
      else if fld = .quantity ∧ isWriteMultiple s.txVariant = true then done s .badVariant 0
      else
        match fieldPlace s.txVariant fld with
        | none => done s .badVariant 0
        | some (o, w) => within (o + w) s.params.cap (done { s with txBuf := writeField s.txBuf o w value } .ok 0)

/-- `PL.RESIZE q` (R243): `q` elements, all 0. -/
def execPlResize (q : Half) (s : State) : Outcome :=
  withEnvelope s <|
    if isVariable s.txVariant then storeValues (List.replicate q.toNat 0#16) s else done s .badVariant 0

/-- `PL.GETBIT sel i` (R244). -/
def execPlGetbit (sel : Sel) (i : Half) (s : State) : Outcome :=
  withSelected sel s fun f =>
    if isBits f.variant = false then done s .badVariant 0
    else if f.vq ≤ i.toNat then done s .range 0
    else
      let o := valOff f.variant + i.toNat / 8
      within (o + 1) f.len (done s .ok (if bitOf (f.buf.read o) i.toNat then 1 else 0))

/-- `PL.SETBIT i b` (R245). -/
def execPlSetbit (b : Bool) (i : Half) (s : State) : Outcome :=
  withEnvelope s <|
    if isBits s.txVariant = false then done s .badVariant 0
    else if s.txVq.toNat ≤ i.toNat then done s .range 0
    else
      let o := valOff s.txVariant + i.toNat / 8
      within (o + 1) s.txLen (done { s with txBuf := s.txBuf.write o (setBit (s.txBuf.read o) i.toNat b) } .ok 0)

/-- `PL.GETREG sel i` (R246). -/
def execPlGetreg (sel : Sel) (i : Half) (s : State) : Outcome :=
  withSelected sel s fun f =>
    if isRegs f.variant = false then done s .badVariant 0
    else if f.vq ≤ i.toNat then done s .range 0
    else
      let o := valOff f.variant + 2 * i.toNat
      within (o + 2) f.len (done s .ok ((f.buf.read16 o).setWidth 32))

/-- `PL.SETREG i w` (R247). -/
def execPlSetreg (w : Half) (i : Half) (s : State) : Outcome :=
  withEnvelope s <|
    if isRegs s.txVariant = false then done s .badVariant 0
    else if s.txVq.toNat ≤ i.toNat then done s .range 0
    else
      let o := valOff s.txVariant + 2 * i.toNat
      within (o + 2) s.txLen (done { s with txBuf := s.txBuf.write16 o w } .ok 0)

/-- `insertRange` at the head. -/
def atHead (d es : List Half) : List Half := d ++ es

/-- `insertRange` at the tail. -/
def atTail (d es : List Half) : List Half := es ++ d

/-- `removeRange` of `n` elements at the head: the removed elements and the rest. -/
def cutHead (n : Nat) (es : List Half) : List Half × List Half := (es.take n, es.drop n)

/-- `removeRange` of `n` elements at the tail: the removed elements and the rest. -/
def cutTail (n : Nat) (es : List Half) : List Half × List Half := (es.drop (es.length - n), es.take (es.length - n))

/-- `PL.INSBITS.H n` (R250). -/
def execPlInsbitsH (n : Half) (s : State) : Outcome := insertElems isBits atHead n.toNat s

/-- `PL.INSBITS.T n` (R251). -/
def execPlInsbitsT (n : Half) (s : State) : Outcome := insertElems isBits atTail n.toNat s

/-- `PL.REMBITS.H n` (R252). -/
def execPlRembitsH (n : Half) (s : State) : Outcome := removeElems isBits (cutHead n.toNat) n.toNat s

/-- `PL.REMBITS.T n` (R253). -/
def execPlRembitsT (n : Half) (s : State) : Outcome := removeElems isBits (cutTail n.toNat) n.toNat s

/-- `PL.INSREGS.H n` (R254). -/
def execPlInsregsH (n : Half) (s : State) : Outcome := insertElems isRegs atHead n.toNat s

/-- `PL.INSREGS.T n` (R255). -/
def execPlInsregsT (n : Half) (s : State) : Outcome := insertElems isRegs atTail n.toNat s

/-- `PL.REMREGS.H n` (R256). -/
def execPlRemregsH (n : Half) (s : State) : Outcome := removeElems isRegs (cutHead n.toNat) n.toNat s

/-- `PL.REMREGS.T n` (R257). -/
def execPlRemregsT (n : Half) (s : State) : Outcome := removeElems isRegs (cutTail n.toNat) n.toNat s

end Sys2Proof.Machine
end

