-- ==== Sys2Proof/Machine/System.lean ====
section
/-! DEFINITION. The meanings of the configuration, event and system commands (46_config_and_system.md). -/

namespace Sys2Proof.Machine

/-- `CFG.SETBAUD baud` (R370): both intervals are derived again. -/
def execCfgSetbaud (baud : Word) (s : State) : Outcome :=
  if baud = 0 then done s .badArg 0
  else
    let silence := silenceOf s.params baud
    done { s with baud := baud, silenceUs := silence, sendbackUs := sendbackOf s.params silence } .ok 0

/-- `CFG.SETSILENCE us` (R373). -/
def execCfgSetsilence (us : Word) (s : State) : Outcome := done { s with silenceUs := us } .ok 0

/-- `CFG.SETSENDBACK us` (R374). -/
def execCfgSetsendback (us : Word) (s : State) : Outcome := done { s with sendbackUs := us } .ok 0

/-- `CFG.SETTIMEOUT us` (R375). -/
def execCfgSettimeout (us : Word) (s : State) : Outcome := done { s with respTimeoutUs := us } .ok 0

/-- `CFG.SETSTATION s` (R376): refused on a master, and for 0 and above 247. -/
def execCfgSetstation (station : Byte) (s : State) : Outcome :=
  if s.params.role = .master then done s .badArg 0
  else if station = 0 ∨ 247 < station.toNat then done s .badArg 0
  else done { s with station := station } .ok 0

/-- `SYS.SOFTRESET` (R377): the receiver position and the three gate conditions; everything else is kept. -/
def execSysSoftreset (s : State) : Outcome :=
  done { s with
    rxState := .waitStation
    rxLen := 0
    rxValid := false
    awaiting := false
    allowed := false
    txPending := false } .ok 0

/-- `EV.ACK m` (R378). -/
def execEvAck (m : BitVec 2) (s : State) : Outcome := done { s with evPending := s.evPending &&& ~~~m } .ok 0

/-- `EV.SETMASK m` (R379). -/
def execEvSetmask (m : BitVec 2) (s : State) : Outcome := done { s with evMask := m } .ok 0

/-- `SYS.RDBUF sel off` (R380): RX needs no valid frame, TX includes the two bytes after the PDU. -/
def execSysRdbuf (sel : Sel) (off : Half) (s : State) : Outcome :=
  match sel with
  | .rx =>
    if s.rxLen ≤ off.toNat then done s .range 0
    else within (off.toNat + 1) s.params.cap (done s .ok ((s.rxBuf.read off.toNat).setWidth 32))
  | .tx =>
    if s.txVariant = .none ∨ s.txLen + 2 ≤ off.toNat then done s .range 0
    else within (off.toNat + 1) s.params.cap (done s .ok ((s.txBuf.read off.toNat).setWidth 32))

end Sys2Proof.Machine
end

