-- ==== Sys2Proof/Machine/Dispatch.lean ====
section
/-! DEFINITION. The dispatch: one arm per constructor of Instr. -/

namespace Sys2Proof.Machine

open Sys2Proof

def exec (i : Instr) (s : State) : Host.Outcome State Fault Refusal :=
  match i with
  | .rdcoilsReq st payload => Sys2Proof.Machine.execRdcoilsReq st payload s
  | .rddiscReq st payload => Sys2Proof.Machine.execRddiscReq st payload s
  | .rdholdReq st payload => Sys2Proof.Machine.execRdholdReq st payload s
  | .rdinputReq st payload => Sys2Proof.Machine.execRdinputReq st payload s
  | .rdcoilsRsp st payload => Sys2Proof.Machine.execRdcoilsRsp st payload s
  | .rddiscRsp st payload => Sys2Proof.Machine.execRddiscRsp st payload s
  | .rdholdRsp st payload => Sys2Proof.Machine.execRdholdRsp st payload s
  | .rdinputRsp st payload => Sys2Proof.Machine.execRdinputRsp st payload s
  | .wrcoilReq st payload => Sys2Proof.Machine.execWrcoilReq st payload s
  | .wrcoilRsp st payload => Sys2Proof.Machine.execWrcoilRsp st payload s
  | .wrregReq st payload => Sys2Proof.Machine.execWrregReq st payload s
  | .wrregRsp st payload => Sys2Proof.Machine.execWrregRsp st payload s
  | .wrcoilsReq st payload => Sys2Proof.Machine.execWrcoilsReq st payload s
  | .wrcoilsRsp st payload => Sys2Proof.Machine.execWrcoilsRsp st payload s
  | .wrregsReq st payload => Sys2Proof.Machine.execWrregsReq st payload s
  | .wrregsRsp st payload => Sys2Proof.Machine.execWrregsRsp st payload s
  | .diagRsp base st payload => Sys2Proof.Machine.execDiagRsp base st payload s
  | .crcReset => Sys2Proof.Machine.execCrcReset s
  | .crcUpdate b => Sys2Proof.Machine.execCrcUpdate b s
  | .crcValue => Sys2Proof.Machine.execCrcValue s
  | .envApplycrc => Sys2Proof.Machine.execEnvApplycrc s
  | .envVerifycrc sel => Sys2Proof.Machine.execEnvVerifycrc sel s
  | .envCreq fc => Sys2Proof.Machine.execEnvCreq fc s
  | .envCrsp fc => Sys2Proof.Machine.execEnvCrsp fc s
  | .envCdiag fc => Sys2Proof.Machine.execEnvCdiag fc s
  | .plGetf sel field => Sys2Proof.Machine.execPlGetf sel field s
  | .plSetf value field => Sys2Proof.Machine.execPlSetf value field s
  | .plResize q => Sys2Proof.Machine.execPlResize q s
  | .plGetbit sel index => Sys2Proof.Machine.execPlGetbit sel index s
  | .plSetbit b index => Sys2Proof.Machine.execPlSetbit b index s
  | .plGetreg sel index => Sys2Proof.Machine.execPlGetreg sel index s
  | .plSetreg w index => Sys2Proof.Machine.execPlSetreg w index s
  | .plInsbitsH n => Sys2Proof.Machine.execPlInsbitsH n s
  | .plInsbitsT n => Sys2Proof.Machine.execPlInsbitsT n s
  | .plRembitsH n => Sys2Proof.Machine.execPlRembitsH n s
  | .plRembitsT n => Sys2Proof.Machine.execPlRembitsT n s
  | .plInsregsH n => Sys2Proof.Machine.execPlInsregsH n s
  | .plInsregsT n => Sys2Proof.Machine.execPlInsregsT n s
  | .plRemregsH n => Sys2Proof.Machine.execPlRemregsH n s
  | .plRemregsT n => Sys2Proof.Machine.execPlRemregsT n s
  | .fsmUpdate => Sys2Proof.Machine.execFsmUpdate s
  | .roleXmit target => Sys2Proof.Machine.execRoleXmit target s
  | .roleXmitdef target => Sys2Proof.Machine.execRoleXmitdef target s
  | .roleAvail => Sys2Proof.Machine.execRoleAvail s
  | .cfgSetbaud baud => Sys2Proof.Machine.execCfgSetbaud baud s
  | .cfgSetsilence us => Sys2Proof.Machine.execCfgSetsilence us s
  | .cfgSetsendback us => Sys2Proof.Machine.execCfgSetsendback us s
  | .cfgSettimeout us => Sys2Proof.Machine.execCfgSettimeout us s
  | .cfgSetstation stn => Sys2Proof.Machine.execCfgSetstation stn s
  | .sysSoftreset => Sys2Proof.Machine.execSysSoftreset s
  | .evAck m => Sys2Proof.Machine.execEvAck m s
  | .evSetmask m => Sys2Proof.Machine.execEvSetmask m s
  | .sysRdbuf sel off => Sys2Proof.Machine.execSysRdbuf sel off s

end Sys2Proof.Machine
end

