-- ==== Sys2Proof/Machine/Port.lean ====
section
/-! DEFINITION. The host port and the other agents' steps: the register map (10_state.md R45), `Tick` and `Arrive`
(60_exceptions.md R415, R420), and the hard reset (70_reset_and_hazards.md R440). -/

namespace Sys2Proof.Machine

/-- The offsets of the register map (R45). -/
def registerTable : List (Nat × Register) :=
  [(0x00, .cmdOp),
   (0x04, .cmdArg0),
   (0x08, .cmdArg1),
   (0x0C, .result),
   (0x10, .rdata),
   (0x14, .hdata),
   (0x18, .status),
   (0x1C, .failKind),
   (0x20, .totalFrames),
   (0x24, .failedFrames),
   (0x28, .rxLen),
   (0x2C, .txLen),
   (0x30, .now),
   (0x34, .baud)] ++
  [(0x38, .silenceUs),
   (0x3C, .sendbackUs),
   (0x40, .respTimeoutUs),
   (0x44, .station),
   (0x48, .crc),
   (0x4C, .evPending),
   (0x50, .evMask),
   (0x54, .rxView),
   (0x58, .txView),
   (0x5C, .lastRxUs),
   (0x60, .lastActUs),
   (0x64, .txStampUs),
   (0x68, .pendingTarget)]

/-- The register at a byte offset; none where the map has no register. -/
def registerAt (offset : Nat) : Option Register := registerTable.lookup offset

/-- What a read of a register returns (R45). HDATA reads the oldest entry, 0 when empty. The value of the write-only CMD_OP is
free (log 8). -/
def registerValue : Register → State → Word
  | .cmdOp, s => Config.cmdOpRead s.freeCount
  | .cmdArg0, s => s.cmdArg0
  | .cmdArg1, s => s.cmdArg1
  | .result, s => BitVec.ofNat 32 (resultCode s.result)
  | .rdata, s => s.rdata
  | .hdata, s => (s.hdata.headD 0).setWidth 32
  | .status, s => statusWord s
  | .failKind, s => BitVec.ofNat 32 (failKindCode s.failKind)
  | .totalFrames, s => s.totalFrames
  | .failedFrames, s => s.failedFrames
  | .rxLen, s => BitVec.ofNat 32 s.rxLen
  | .txLen, s => BitVec.ofNat 32 s.txLen
  | .now, s => s.now
  | .baud, s => s.baud
  | .silenceUs, s => s.silenceUs
  | .sendbackUs, s => s.sendbackUs
  | .respTimeoutUs, s => s.respTimeoutUs
  | .station, s => s.station.setWidth 32
  | .crc, s => s.crc.setWidth 32
  | .evPending, s => s.evPending.setWidth 32
  | .evMask, s => s.evMask.setWidth 32
  | .rxView, s => rxViewWord s
  | .txView, s => txViewWord s
  | .lastRxUs, s => s.lastRxUs
  | .lastActUs, s => s.lastActUs
  | .txStampUs, s => s.txStampUs
  | .pendingTarget, s => s.pendingTarget.setWidth 32

/-- The state after a read of a register (R45): only HDATA has a side effect, it pops one entry; every other read is idempotent
(20_memory.md R79). -/
def readRegister (r : Register) (s : State) : State :=
  { s with
    portData := registerValue r s
    hdata := if r = .hdata then s.hdata.tail else s.hdata }

/-- The state after a write of a register other than CMD_OP (R45): the two argument registers and HDATA, whose write pushes;
a read-only register ignores the write. -/
def writeRegister (r : Register) (value : Word) (s : State) : State :=
  match r with
  | .cmdArg0 => { s with cmdArg0 := value }
  | .cmdArg1 => { s with cmdArg1 := value }
  | .hdata => { s with hdata := pushHdata s.params s.hdata [value.setWidth 16] }
  | .cmdOp | .result | .rdata | .status | .failKind | .totalFrames | .failedFrames | .rxLen | .txLen | .now
  | .baud | .silenceUs | .sendbackUs | .respTimeoutUs | .station | .crc | .evPending | .evMask | .rxView | .txView
  | .lastRxUs | .lastActUs | .txStampUs | .pendingTarget => s

/-- A host read (R45). -/
def readPort (offset : Nat) (s : State) : Outcome :=
  match registerAt offset with
  | some r => .next (readRegister r s)
  | none => .fault (.noRegister offset)

/-- `TICK n` (60_exceptions.md R415). -/
def tick (n : Nat) (s : State) : State := { s with now := s.now + BitVec.ofNat 32 n }

/-- `Arrive(b)` (60_exceptions.md R420). -/
def arrive (b : Byte) (s : State) : State := { s with rxq := s.rxq ++ [b] }

/-- `Reset` (70_reset_and_hazards.md R440, R441): every element of the block at its reset value. The steps still to come and
the model's own read record and counter are not the block's and stay (log 2). -/
def hardReset (s : State) : State :=
  { State.resetOf s.params with inputs := s.inputs, portData := s.portData, freeCount := s.freeCount }

end Sys2Proof.Machine
end

