-- ==== Sys2Proof/Machine/Fetch.lean ====
section
/-! DEFINITION. Fetching: a command is fetched by the host's write of CMD_OP, with the operands the argument registers hold
(30_encoding.md R112); a wire form is fetched by the completion of its frame in FSM.UPDATE (44_framing_fsm.md R303). -/

namespace Sys2Proof.Machine

/-- A write of CMD_OP (10_state.md R45): the command is executed, or BADCMD (46_config_and_system.md R381). -/
def runCommand (op : Byte) (s : State) : Outcome :=
  match decodeCommand op s.cmdArg0 s.cmdArg1 with
  | .ok i => exec i s
  | .error _ => badCommand s

/-- A host write (10_state.md R45). -/
def writePort (offset : Nat) (value : Word) (s : State) : Outcome :=
  match registerAt offset with
  | some .cmdOp => runCommand (value.setWidth 8) s
  | some r => .next (writeRegister r value s)
  | none => .fault (.noRegister offset)

/-- The state with its next step taken off the list. Every step but a host read draws a fresh free value, so that reading CMD_OP
again gives the same word until something else happens (20_memory.md R79; log 8). -/
def takeInput (i : Input) (rest : List Input) (s : State) : State :=
  { s with
    inputs := rest
    freeCount :=
      match i with
      | .read _ => s.freeCount
      | .tick _ | .arrive _ | .write _ _ | .reset => s.freeCount + 1 }

/-- The step of one agent (00_scope.md R10). -/
def perform (i : Input) (s : State) : Outcome :=
  match i with
  | .tick n => .next (tick n s)
  | .arrive b => .next (arrive b s)
  | .write offset value => writePort offset value s
  | .read offset => readPort offset s
  | .reset => .next (hardReset s)

/-- The state in which the very next step fetches and runs a code. A command: its operands in the argument registers and the
write of CMD_OP as the next step. An ADU: its bytes in `rx_buf` as a received frame of the direction's role whose silence
has just been exceeded, nothing more to drain, and FSM.UPDATE as the next step (log 2). -/
def stageCode (c : Code) (s : State) : State :=
  match c with
  | .command op arg0 arg1 =>
    { s with cmdArg0 := arg0, cmdArg1 := arg1, inputs := .write 0x00 (op.setWidth 32) :: s.inputs }
  | .adu isResponse bytes =>
    let silence : Word := BitVec.ofNat 32 (min s.silenceUs.toNat (2 ^ 32 - 2))
    { s with
      params := { s.params with role := if isResponse then .master else .slave }
      rxBuf := s.rxBuf.writeAll 0 bytes
      rxLen := bytes.length
      rxState := .waitData
      rxValid := false
      rxq := []
      silenceUs := silence
      lastRxUs := s.now - (silence + 1)
      inputs := .write 0x00 0x30#32 :: s.inputs }

end Sys2Proof.Machine
end

