-- ==== Sys2Proof/Machine/Step.lean ====
section
/-! DEFINITION. One step of the machine: the first of the agents' steps still to come is performed (00_scope.md R10,
20_memory.md R82). With none to come the block does nothing (70_reset_and_hazards.md R440). -/

namespace Sys2Proof.Machine

/-- One step. -/
def step (s : State) : Host.Outcome State Fault Refusal :=
  match s.inputs with
  | [] => .next s
  | i :: rest => perform i (takeInput i rest s)

/-- The state whose next step fetches and runs the instruction of a table word (log 1, log 2). -/
def State.withFetchWord (s : State) (nbits w : Nat) : State := stageCode (tableCode nbits w) s

end Sys2Proof.Machine
end

