-- ==== Sys2Proof/Safety.lean ====
section
/-! DEFINITION. What a good state and a safe run are, in the terms the statements use. `State.Inv` gathers the invariants the
spec states of every reachable state. -/

namespace Sys2Proof.Machine

/-- Both buffers are in canonical form and hold nothing outside their CAP bytes (10_state.md R21, R22). -/
def State.buffersOk (s : State) : Prop :=
  Buf.wf s.params.cap s.rxBuf ∧ Buf.wf s.params.cap s.txBuf

/-- The receiver position (10_state.md R25). -/
def State.receiverOk (s : State) : Prop :=
  s.rxLen ≤ s.params.cap ∧ (s.rxState = .waitFunctionCode → s.rxLen = 1) ∧ (s.rxState = .waitData → 2 ≤ s.rxLen)

/-- A valid received frame (10_state.md R27, 44_framing_fsm.md R306 item 6): it has ended, its length is one a completed frame
can have, its CRC is good, and the view is its decode in the direction of the role, which was supported. -/
def State.frameOk (s : State) : Prop :=
  s.rxValid = true →
    s.rxState = .waitStation ∧ 4 ≤ s.rxLen ∧ s.rxLen + 1 ≤ s.params.cap ∧
    crcMatches s.rxBuf (s.rxLen - 2) = true ∧
    s.rxView = pduDecode (s.rxBuf.read 1) (decide (s.params.role = .master)) (s.rxBuf.slice 2 (s.rxLen - 4)) ∧
    s.rxView.status ≠ .unsupported

/-- The values region of a variable-length envelope (43_payload_ops.md R261): byteCount, `tx_len`, `quantity` and padding follow
`tx_vq`. -/
def State.regionOk (s : State) : Prop :=
  (s.txBuf.read (valOff s.txVariant - 1)).toNat = storageBytes s.txVariant s.txVq.toNat ∧
  s.txLen = valOff s.txVariant + storageBytes s.txVariant s.txVq.toNat ∧
  (isWriteMultiple s.txVariant = true → s.txBuf.read16 4 = s.txVq) ∧
  (isBits s.txVariant = true → ∀ i, s.txVq.toNat ≤ i → i < 8 * cdiv8 s.txVq.toNat →
    bitOf (s.txBuf.read (valOff s.txVariant + i / 8)) i = false)

/-- The envelope (10_state.md R26, 43_payload_ops.md R261): it fits with its CRC, its function code has its variant in one
direction, every byte after the CRC is 0, and its length is that of its variant. -/
def State.envelopeOk (s : State) : Prop :=
  s.txVariant ≠ .none →
    s.txLen + 2 ≤ s.params.cap ∧
    (∃ isResponse, variantOf (s.txBuf.read 1) isResponse = s.txVariant) ∧
    (∀ a, s.txLen + 2 ≤ a → s.txBuf.read a = 0) ∧
    (isVariable s.txVariant = false → s.txLen = s.txVariant.initLen ∧ s.txVq = 0) ∧
    (isVariable s.txVariant = true → s.regionOk)

/-- The gate flags (10_state.md R28, R29, R40): each belongs to one role, a pending deferred transmission was admitted by
the gate and still would be (45_role_gate.md R341), its target is a legal one (R344), and the station is legal. -/
def State.gatesOk (s : State) : Prop :=
  match s.params.role with
  | .master => s.allowed = false ∧ s.station = 0 ∧ s.pendingTarget.toNat ≤ 247 ∧ (s.txPending = true → s.awaiting = false)
  | .slave => s.awaiting = false ∧ 1 ≤ s.station.toNat ∧ s.station.toNat ≤ 247 ∧ (s.txPending = true → s.allowed = true)

/-- The transmit log is a sequence of whole groups of 4 to CAP bytes (60_exceptions.md R421), each of which carries its own CRC
(70_reset_and_hazards.md R459). -/
def TxEvent.logOk (cap : Nat) (log : List TxEvent) : Prop :=
  ∃ frames : List (List Byte), log = frames.flatMap txGroup ∧
    ∀ f ∈ frames, 4 ≤ f.length ∧ f.length ≤ cap ∧ f.drop (f.length - 2) = crcBytes (f.take (f.length - 2))

/-- The invariant of every reachable state. -/
structure State.Inv (s : State) : Prop where
  params : s.params.wf
  buffers : s.buffersOk
  receiver : s.receiverOk
  frame : s.frameOk
  envelope : s.envelopeOk
  gates : s.gatesOk
  fifo : s.hdata.length ≤ s.params.hdataDepth
  log : TxEvent.logOk s.params.cap s.txlog

/-- An outcome that goes on. -/
def Continues (o : Host.Outcome State Fault Refusal) : Prop := ∃ t, o = .next t

/-- The one way a good state can stop: the host port is used at an offset without a register (10_state.md R45). -/
def State.portMisused (s : State) : Prop :=
  ∃ offset, registerAt offset = none ∧
    (s.inputs.head? = some (.read offset) ∨ ∃ value, s.inputs.head? = some (.write offset value))

/-! ### The words of the statements -/

/-- What a command leaves that ends with `(code, value)` and changes nothing else (00_scope.md R9). -/
def State.returning (s : State) (code : ResultCode) (value : Word) : State := { s with result := code, rdata := value }

/-- What a delivered frame leaves (44_framing_fsm.md R303, R304): the view, `rx_valid`, WaitStation, the FRAME event, and the
reply gate of a slave whose own station the frame names. -/
def State.delivering (s : State) (station : Byte) (view : View) : State :=
  { s with
    rxView := view
    rxValid := true
    rxState := .waitStation
    evPending := s.evPending ||| 1#2
    allowed := if s.params.role = .slave ∧ station = s.station then true else s.allowed }

/-- What a failure entry leaves (60_exceptions.md R410), the frame end having been counted already. -/
def State.failing (s : State) (kind : FailKind) : State :=
  { s with
    failedFrames := s.failedFrames + 1
    failKind := kind
    rxState := .waitStation
    rxValid := false
    evPending := s.evPending ||| 2#2 }

/-- The frame-end event is counted (60_exceptions.md R411). -/
def State.counting (s : State) : State := { s with totalFrames := s.totalFrames + 1 }

/-- The reserved values of CMD_OP, as 46_config_and_system.md R381 lists them. -/
def reservedOpcode (op : Byte) : Bool :=
  let n := op.toNat
  n == 0 || (4 ≤ n && n ≤ 7) || (0x0A ≤ n && n ≤ 0x0F) || (0x13 ≤ n && n ≤ 0x1F) || n == 0x27 ||
    (0x31 ≤ n && n ≤ 0x37) || (0x3B ≤ n && n ≤ 0x3F) || (0x45 ≤ n && n ≤ 0x47) || 0x4C ≤ n

/-- The operand bits 30_encoding.md R112 lists for an opcode, of `arg0` and of `arg1`. -/
def operandBits (op : Byte) : Word × Word :=
  match op.toNat with
  | 0x02 | 0x10 | 0x11 | 0x12 | 0x38 | 0x39 | 0x44 => (0xFF#32, 0#32)
  | 0x09 => (1#32, 0#32)
  | 0x20 => (1#32, 0xF#32)
  | 0x21 => (0xFFFF#32, 0xF#32)
  | 0x22 | 0x28 | 0x29 | 0x2A | 0x2B | 0x2C | 0x2D | 0x2E | 0x2F => (0xFFFF#32, 0#32)
  | 0x23 | 0x24 | 0x25 | 0x4B => (1#32, 0xFFFF#32)
  | 0x26 => (0xFFFF#32, 0xFFFF#32)
  | 0x40 | 0x41 | 0x42 | 0x43 => (0xFFFFFFFF#32, 0#32)
  | 0x49 | 0x4A => (3#32, 0#32)
  | _ => (0#32, 0#32)

/-- The unsupported function-code bytes of a direction, as 30_encoding.md R109 lists them. -/
def unsupportedCode (fc : Byte) (isResponse : Bool) : Bool :=
  let n := fc.toNat
  n == 0 || (0x07 ≤ n && n ≤ 0x0E) || (0x11 ≤ n && n ≤ 0x80) || (0x87 ≤ n && n ≤ 0x8E) || 0x91 ≤ n ||
    (!isResponse && 0x80 ≤ n)

/-- `elems(after) = es` in canonical form, everything else of the buffer kept (43_payload_ops.md R249): the elements, the byteCount,
the `quantity` of a write-multiple request, padding 0, every byte after the PDU 0, and the fields before the region as
they were. -/
def StoresElements (v : Variant) (es : List Half) (before after : Buf) : Prop :=
  elems after v es.length = es ∧
  (after.read (valOff v - 1)).toNat = storageBytes v es.length ∧
  (isWriteMultiple v = true → after.read16 4 = BitVec.ofNat 16 es.length) ∧
  (isBits v = true → ∀ i, es.length ≤ i → i < 8 * storageBytes v es.length →
    bitOf (after.read (valOff v + i / 8)) i = false) ∧
  (∀ a, valOff v + storageBytes v es.length ≤ a → after.read a = 0) ∧
  (∀ a, a < valOff v - 1 → ¬(isWriteMultiple v = true ∧ (a = 4 ∨ a = 5)) → after.read a = before.read a)

/-- The capacity condition of 43_payload_ops.md R258 for `q` elements. -/
def Fits (cap : Nat) (v : Variant) (q : Nat) : Prop :=
  storageBytes v q ≤ 255 ∧ valOff v + storageBytes v q + 2 ≤ cap

/-- Two states that differ only in bytes no rule reads: `rx_buf` at and after `rx_len`, and `tx_buf` while there is no
envelope (10_state.md R21, R22; 93_implementation_defined.md U11). -/
def SameButStale (s t : State) : Prop :=
  t = { s with rxBuf := t.rxBuf, txBuf := t.txBuf } ∧
  (∀ a, a < s.rxLen → t.rxBuf.read a = s.rxBuf.read a) ∧
  (s.txVariant ≠ .none → t.txBuf = s.txBuf)

end Sys2Proof.Machine

namespace Sys2Proof

/-- The wire forms. -/
def Instr.isWire (i : Instr) : Bool := i.payload?.isSome

/-- The three create commands. -/
def Instr.isCreate : Instr → Bool
  | .envCreq _ | .envCrsp _ | .envCdiag _ => true
  | _ => false

/-- The number of elements an insert command takes from `hdata`. -/
def Instr.insertCount? : Instr → Option Nat
  | .plInsbitsH n | .plInsbitsT n | .plInsregsH n | .plInsregsT n => some n.toNat
  | _ => none

/-- The insert and remove commands, which use `hdata`. -/
def Instr.usesHdata : Instr → Bool
  | .plInsbitsH _ | .plInsbitsT _ | .plInsregsH _ | .plInsregsT _
  | .plRembitsH _ | .plRembitsT _ | .plRemregsH _ | .plRemregsT _ => true
  | _ => false

/-- The commands that change the number of elements of the envelope. -/
def Instr.changesLength : Instr → Bool
  | .plResize _ => true
  | i => i.usesHdata

/-- The commands that write a byte of the envelope and keep its length. -/
def Instr.editsEnvelope : Instr → Bool
  | .envApplycrc | .plSetf _ _ | .plSetbit _ _ | .plSetreg _ _ => true
  | _ => false

/-- `ROLE.XMIT`. -/
def Instr.isXmit : Instr → Bool
  | .roleXmit _ => true
  | _ => false

end Sys2Proof
end

