-- ==== Sys2Proof/Certificates/Slice0/Obligations.lean ====
section
/-! DEFINITION. The statements for the provers, from the numbered rules of the spec, file by file. Every statement about a
next state says what the whole state is: what is not named keeps its value. -/

open Sys2Proof Sys2Proof.Machine

/-! ## Encoding -/

/-- Words written out from 41_pdu_decode.md (the examples of R173, R179, R185, R189) and from the table of 30_encoding.md R112. -/
def Obligations.DecodesTheSpecsExampleWords : Prop :=
  decode (.adu false [0x05#8, 0x01#8, 0x00#8, 0x00#8, 0x00#8, 0x0A#8, 0xBD#8, 0x89#8]) =
    .ok (.rdcoilsReq 0x05#8 [0x00#8, 0x00#8, 0x00#8, 0x0A#8]) ∧
  decode (.adu true [0x05#8, 0x03#8, 0x04#8, 0x00#8, 0x0A#8, 0x00#8, 0x14#8, 0x9F#8, 0xFE#8]) =
    .ok (.rdholdRsp 0x05#8 [0x04#8, 0x00#8, 0x0A#8, 0x00#8, 0x14#8]) ∧
  decode (.adu false [0x05#8, 0x0F#8, 0x00#8, 0x13#8, 0x00#8, 0x0A#8, 0x02#8, 0xCD#8, 0x01#8, 0x40#8, 0x0B#8]) =
    .ok (.wrcoilsReq 0x05#8 [0x00#8, 0x13#8, 0x00#8, 0x0A#8, 0x02#8, 0xCD#8, 0x01#8]) ∧
  decode (.adu true [0x05#8, 0x83#8, 0x02#8, 0x81#8, 0x30#8]) = .ok (.diagRsp .readHolding 0x05#8 [0x02#8]) ∧
  decode (.command 0x02#8 0xFFFFFF05#32 0#32) = .ok (.crcUpdate 0x05#8) ∧
  decode (.command 0x24#8 0x1#32 0x00030002#32) = .ok (.plSetbit true 0x0002#16) ∧
  decode (.command 0x38#8 0x5#32 0#32) = .ok (.roleXmit 0x05#8)

/-- Decoding the encoding of any instruction gives it back, with every operand at every value the encoding admits. -/
def Obligations.DecodeInvertsEncode : Prop := ∀ i : Instr, decode (encode i) = .ok i

/-- The bytes of an accepted frame are the encoding of the instruction decoded from them: no byte is dropped, and only one frame
encodes an instruction. -/
def Obligations.AcceptedFrameIsItsOwnEncoding : Prop :=
  ∀ (isResponse : Bool) (bytes : List Byte) (i : Instr),
    decode (.adu isResponse bytes) = .ok i → encode i = .adu isResponse bytes

/-- 30_encoding.md R112: a command is read from its listed operand bits and no others, each of which its instruction
keeps. -/
def Obligations.CommandDecodeReadsExactlyTheListedBits : Prop :=
  ∀ (op : Byte) (arg0 arg1 : Word) (i : Instr), decodeCommand op arg0 arg1 = .ok i →
    encode i = .command op (arg0 &&& (operandBits op).1) (arg1 &&& (operandBits op).2) ∧
    ∀ b0 b1 : Word, b0 &&& (operandBits op).1 = arg0 &&& (operandBits op).1 →
      b1 &&& (operandBits op).2 = arg1 &&& (operandBits op).2 → decodeCommand op b0 b1 = .ok i

/-- 46_config_and_system.md R381: a write of a reserved opcode returns BADCMD and changes nothing else; any other opcode is a
command (30_encoding.md R112), which the write executes with the operands the argument registers hold (10_state.md R45). That the
opcode is the low byte of the 32-bit word written is the model's reading of the register map (log 14). -/
def Obligations.ReservedOpcodesReturnBadCmd : Prop :=
  ∀ (value : Word) (s : State),
    (reservedOpcode (value.setWidth 8) = true → perform (.write 0x00 value) s = .next (s.returning .badCmd 0)) ∧
    (reservedOpcode (value.setWidth 8) = false →
      ∃ i, decodeCommand (value.setWidth 8) s.cmdArg0 s.cmdArg1 = .ok i ∧ perform (.write 0x00 value) s = exec i s)

/-- 30_encoding.md R103, R109: exactly the listed codes are unsupported; such a code decodes to `(NONE, UNSUPPORTED, 0, 0)`, and a
create command of the direction refuses it, leaving the envelope empty. -/
def Obligations.UnsupportedCodesAreExactlyTheListedOnes : Prop :=
  (∀ (fc : Byte) (isResponse : Bool), variantOf fc isResponse = .none ↔ unsupportedCode fc isResponse = true) ∧
  (∀ (fc : Byte) (isResponse : Bool) (p : List Byte),
    (pduDecode fc isResponse p).status = .unsupported ↔ unsupportedCode fc isResponse = true) ∧
  (∀ (fc : Byte) (isResponse : Bool) (p : List Byte), unsupportedCode fc isResponse = true →
    pduDecode fc isResponse p = { variant := .none, status := .unsupported, bc := 0, vq := 0 }) ∧
  (∀ (fc : Byte) (s : State), unsupportedCode fc false = true →
    exec (.envCreq fc) s = .next
      { s with txBuf := [], txVariant := .none, txLen := 0, txVq := 0, result := .unsupported, rdata := 0 }) ∧
  (∀ (fc : Byte) (s : State), (unsupportedCode fc true = true ∨ 0x80 ≤ fc.toNat) →
    exec (.envCrsp fc) s = .next
      { s with txBuf := [], txVariant := .none, txLen := 0, txVq := 0, result := .unsupported, rdata := 0 }) ∧
  (∀ (fc : Byte) (s : State), unsupportedCode (fc &&& 0x7F#8) false = true →
    exec (.envCdiag fc) s = .next
      { s with txBuf := [], txVariant := .none, txLen := 0, txVq := 0, result := .unsupported, rdata := 0 })

/-! ## Steps -/

/-- 10_state.md R45: a step that writes CMD_OP runs the command decoded from the value and the argument registers. The list of steps
to come is the model's own (log 2), and so is the counter of free values, which the step advances (log 8); that the opcode is the
low byte of the word written is the model's reading (log 14). -/
def Obligations.StepRunsTheDecodedCommand : Prop :=
  ∀ (s : State) (value : Word) (rest : List Input) (i : Instr),
    s.inputs = .write 0x00 value :: rest →
    decode (.command (value.setWidth 8) s.cmdArg0 s.cmdArg1) = .ok i →
    step s = exec i { s with inputs := rest, freeCount := s.freeCount + 1 }

/-- 44_framing_fsm.md R300, R302, R303, 10_state.md R45: a step that runs FSM.UPDATE with nothing left to drain, when the silence after a frame of 4 to CAP - 1 bytes is exceeded,
counts the frame, runs the wire form decoded from its bytes, and then the timeout and deferred-transmit phases. The
list of steps to come, the counter of free values, and a wire form as an instruction that carries its station and payload, are the
model's own (log 2, log 8, log 5); that the opcode is the low byte of the word written is the model's reading (log 14). -/
def Obligations.StepRunsTheDecodedFrame : Prop :=
  ∀ (s : State) (value : Word) (rest : List Input) (i : Instr),
    s.inputs = .write 0x00 value :: rest → value.setWidth 8 = 0x30#8 →
    s.rxq = [] → s.rxState ≠ .waitStation → 4 ≤ s.rxLen → s.rxLen < s.params.cap →
    s.silenceUs.toNat < elapsed s.now s.lastRxUs →
    decode (.adu (decide (s.params.role = .master)) (s.rxBuf.slice 0 s.rxLen)) = .ok i →
    step s =
      chain (exec i { s with
        inputs := rest
        freeCount := s.freeCount + 1
        totalFrames := s.totalFrames + 1
        awaiting := if s.params.role = .master then false else s.awaiting })
      fun framed => chain (deferredTransmit (responseTimeout framed)) fun sent => .next (sent.returning .ok 0)

/-- 60_exceptions.md R415, R420: a Tick adds 1 to `now` modulo 2^32, `TICK n` is n of them, an Arrive appends its byte to `rxq`,
and neither changes anything else. `TICK n` as one step is log 16. -/
def Obligations.ClockAndTransportStepsChangeOnlyTheirOwn : Prop :=
  ∀ (s : State) (n : Nat) (b : Byte),
    perform (.tick 1) s = .next { s with now := s.now + 1 } ∧
    perform (.tick n) s = .next ((fun t : State => { t with now := t.now + 1 })^[n] s) ∧
    perform (.arrive b) s = .next { s with rxq := s.rxq ++ [b] }

/-- 10_state.md R45: what a host read returns and what a host write does, offset by offset; the three packed words are those of
`StatusAndViewRegistersPackTheirFields`. That an offset without a register
stops is the model's choice (log 7), that a read of the write-only CMD_OP returns some value, the same when it is read again
(20_memory.md R79), is another (log 8), and so is the record of the last read (log 11). That a write keeps the low 16 bits for HDATA
is log 14. That a push to a full HDATA is dropped is 93_implementation_defined.md U18 (log 13). The numbers of the result codes and the
failure kinds are those of `CodesHaveTheNumbersOfTheSpec`. -/
def Obligations.HostReadsAndWritesFollowTheRegisterMap : Prop :=
  ∀ s : State,
    (∀ r ∈ [(0x04, s.cmdArg0), (0x08, s.cmdArg1), (0x0C, BitVec.ofNat 32 (resultCode s.result)), (0x10, s.rdata),
        (0x1C, BitVec.ofNat 32 (failKindCode s.failKind)), (0x20, s.totalFrames), (0x24, s.failedFrames),
        (0x28, BitVec.ofNat 32 s.rxLen), (0x2C, BitVec.ofNat 32 s.txLen), (0x30, s.now), (0x34, s.baud),
        (0x38, s.silenceUs), (0x3C, s.sendbackUs), (0x40, s.respTimeoutUs), (0x44, BitVec.ofNat 32 s.station.toNat),
        (0x48, BitVec.ofNat 32 s.crc.toNat), (0x4C, BitVec.ofNat 32 s.evPending.toNat),
        (0x50, BitVec.ofNat 32 s.evMask.toNat), (0x5C, s.lastRxUs), (0x60, s.lastActUs), (0x64, s.txStampUs),
        (0x68, BitVec.ofNat 32 s.pendingTarget.toNat),
        (0x18, registerValue .status s), (0x54, registerValue .rxView s), (0x58, registerValue .txView s)],
      readPort r.1 s = .next { s with portData := r.2 }) ∧
    readPort 0x14 s = .next { s with portData := BitVec.ofNat 32 (s.hdata.headD 0).toNat, hdata := s.hdata.tail } ∧
    (∃ v, readPort 0x00 s = .next { s with portData := v } ∧
      readPort 0x00 { s with portData := v } = .next { s with portData := v }) ∧
    (∀ v : Word,
      writePort 0x04 v s = .next { s with cmdArg0 := v } ∧
      writePort 0x08 v s = .next { s with cmdArg1 := v } ∧
      writePort 0x14 v s = .next { s with
        hdata := if s.hdata.length < s.params.hdataDepth then s.hdata ++ [v.setWidth 16] else s.hdata } ∧
      (∀ k, 3 ≤ k → k ≤ 26 → k ≠ 5 → writePort (4 * k) v s = .next s)) ∧
    (∀ offset, (26 * 4 < offset ∨ offset % 4 ≠ 0) →
      readPort offset s = .fault (.noRegister offset) ∧
      ∀ v, writePort offset v s = .fault (.noRegister offset))

/-- 10_state.md R45, R32: every bit of STATUS and every field of the two view registers; the numbers of the states, variants and
statuses are those of `CodesHaveTheNumbersOfTheSpec`. -/
def Obligations.StatusAndViewRegistersPackTheirFields : Prop :=
  ∀ s : State,
    (registerValue .status s).extractLsb' 0 2 = BitVec.ofNat 2 (rxStateCode s.rxState) ∧
    (registerValue .status s).getLsbD 2 = s.rxValid ∧
    (registerValue .status s).getLsbD 3 = s.awaiting ∧
    (registerValue .status s).getLsbD 4 = s.allowed ∧
    (registerValue .status s).getLsbD 5 = s.txPending ∧
    (registerValue .status s).getLsbD 6 = availTx s ∧
    (registerValue .status s).getLsbD 7 = decide (s.params.role = .master) ∧
    (registerValue .status s).getLsbD 8 = decide (s.evPending &&& s.evMask ≠ 0) ∧
    (registerValue .status s).toNat < 512 ∧
    (s.rxValid = false → registerValue .rxView s = 0) ∧
    (s.rxValid = true →
      (registerValue .rxView s).extractLsb' 0 4 = BitVec.ofNat 4 (variantCode s.rxView.variant) ∧
      (registerValue .rxView s).extractLsb' 4 3 = BitVec.ofNat 3 (statusCode s.rxView.status) ∧
      (registerValue .rxView s).getLsbD 7 = false ∧
      (registerValue .rxView s).extractLsb' 8 8 = s.rxView.bc ∧
      (registerValue .rxView s).extractLsb' 16 16 = s.rxView.vq) ∧
    (registerValue .txView s).extractLsb' 0 4 = BitVec.ofNat 4 (variantCode s.txVariant) ∧
    (registerValue .txView s).extractLsb' 4 4 = 0 ∧
    (registerValue .txView s).extractLsb' 8 8 =
      (if s.txVariant = .rsBits ∨ s.txVariant = .rsRegs then s.txBuf.read 2
       else if s.txVariant = .rqWbits ∨ s.txVariant = .rqWregs then s.txBuf.read 6 else 0) ∧
    (registerValue .txView s).extractLsb' 16 16 = s.txVq

/-! ## The CRC -/

/-- 40_crc_and_envelope.md R141, R142, R143: the three accumulator commands, from every state. -/
def Obligations.AccumulatorCommands : Prop :=
  ∀ (s : State) (b : Byte),
    exec .crcReset s = .next { s with crc := 0xFFFF#16, result := .ok, rdata := 0 } ∧
    exec (.crcUpdate b) s = .next { s with crc := crcStep s.crc b, result := .ok, rdata := 0 } ∧
    (∀ arg0 arg1 : Word, decodeCommand 0x02#8 arg0 arg1 = .ok (.crcUpdate (arg0.extractLsb' 0 8))) ∧
    exec .crcValue s = .next (s.returning .ok (BitVec.ofNat 32 s.crc.toNat))

/-- 40_crc_and_envelope.md R148: for each byte `crc_step` is a bijection of the accumulator, it tells different bytes apart, and the CRC
of bytes followed by their own CRC, low byte first, is 0. -/
def Obligations.CrcStepIsBijectiveAndACheckedFrameHasCrcZero : Prop :=
  (∀ b : Byte, Function.Bijective fun c : Half => crcStep c b) ∧
  (∀ (c : Half) (b b' : Byte), crcStep c b = crcStep c b' → b = b') ∧
  (∀ bytes : List Byte, crc16 (bytes ++ [lo (crc16 bytes), hi (crc16 bytes)]) = 0)

/-- 40_crc_and_envelope.md R145: ENV.APPLYCRC. -/
def Obligations.ApplyCrcWritesTheCrcAfterThePdu : Prop :=
  ∀ s : State,
    (s.txVariant = .none → exec .envApplycrc s = .next (s.returning .noFrame 0)) ∧
    (s.txVariant ≠ .none → s.txLen + 2 ≤ s.params.cap →
      ∃ t, exec .envApplycrc s = .next t ∧
        t = { s with txBuf := t.txBuf, result := .ok, rdata := BitVec.ofNat 32 (crc16 (s.txBuf.slice 0 s.txLen)).toNat } ∧
        ∀ a, t.txBuf.read a =
          if a = s.txLen then lo (crc16 (s.txBuf.slice 0 s.txLen))
          else if a = s.txLen + 1 then hi (crc16 (s.txBuf.slice 0 s.txLen))
          else s.txBuf.read a)

/-- 40_crc_and_envelope.md R146: ENV.VERIFYCRC, which under RX needs only an ended frame of 4 bytes, valid or not. -/
def Obligations.VerifyCrcComparesTheTrailingBytes : Prop :=
  ∀ s : State,
    ((s.rxState ≠ .waitStation ∨ s.rxLen < 4) → exec (.envVerifycrc .rx) s = .next (s.returning .noFrame 0)) ∧
    (s.rxState = .waitStation → 4 ≤ s.rxLen → s.rxLen ≤ s.params.cap →
      exec (.envVerifycrc .rx) s = .next (s.returning .ok
        (if s.rxBuf.read (s.rxLen - 2) = lo (crc16 (s.rxBuf.slice 0 (s.rxLen - 2))) ∧
            s.rxBuf.read (s.rxLen - 1) = hi (crc16 (s.rxBuf.slice 0 (s.rxLen - 2))) then 1 else 0))) ∧
    (s.txVariant = .none → exec (.envVerifycrc .tx) s = .next (s.returning .noFrame 0)) ∧
    (s.txVariant ≠ .none → s.txLen + 2 ≤ s.params.cap →
      exec (.envVerifycrc .tx) s = .next (s.returning .ok
        (if s.txBuf.read s.txLen = lo (crc16 (s.txBuf.slice 0 s.txLen)) ∧
            s.txBuf.read (s.txLen + 1) = hi (crc16 (s.txBuf.slice 0 s.txLen)) then 1 else 0)))

/-- 40_crc_and_envelope.md R148: after ENV.APPLYCRC, ENV.VERIFYCRC TX returns 1, and with any single bit of the ADU inverted it
returns 0. -/
def Obligations.VerifyDetectsEveryInvertedBit : Prop :=
  ∀ s t : State, s.txVariant ≠ .none → exec .envApplycrc s = .next t →
    (∃ u, exec (.envVerifycrc .tx) t = .next u ∧ u.result = .ok ∧ u.rdata = 1) ∧
    ∀ (a j : Nat), a < s.txLen + 2 → j < 8 →
      ∃ u, exec (.envVerifycrc .tx) { t with txBuf := t.txBuf.write a (t.txBuf.read a ^^^ (1#8 <<< j)) } = .next u ∧
        u.result = .ok ∧ u.rdata = 0

/-! ## Wire forms -/

/-- 41_pdu_decode.md R177 to R180: the bit and the register responses. An instruction that carries the station and the payload
of its frame is the model's form of a wire form (log 5). -/
def Obligations.ReadResponsesAreDelivered : Prop :=
  ∀ (station : Byte) (p : List Byte) (s : State) (i : Instr) (bc avail : Nat),
    bc = (p.getD 0 0).toNat → avail = p.length - 1 →
    (i ∈ [.rdcoilsRsp station p, .rddiscRsp station p] →
      exec i s = .next (s.delivering station
        (if p.length < 1 then { variant := .rsBits, status := .short, bc := 0, vq := 0 }
         else
          { variant := .rsBits
            status := if avail < bc then .short else if bc < avail then .excess else .ok
            bc := p.getD 0 0
            vq := BitVec.ofNat 16 (8 * min bc avail) }))) ∧
    (i ∈ [.rdholdRsp station p, .rdinputRsp station p] →
      exec i s = .next (s.delivering station
        (if p.length < 1 then { variant := .rsRegs, status := .short, bc := 0, vq := 0 }
         else
          { variant := .rsRegs
            status :=
              if avail < bc then .short
              else if bc < avail then .excess
              else if bc % 2 = 1 then .countMismatch
              else .ok
            bc := p.getD 0 0
            vq := BitVec.ofNat 16 (min bc avail / 2) })))

/-- 41_pdu_decode.md R173 to R176, R181 to R184, R186, R188, R189: the read requests, the single writes in both directions, the
responses to the multiple writes, and the diagnose response, whatever its base. The operands are the model's (log 5). -/
def Obligations.FixedLengthFormsAreDelivered : Prop :=
  ∀ (station : Byte) (p : List Byte) (s : State) (i : Instr) (variant : Variant) (want : Nat),
    ((i ∈ [.rdcoilsReq station p, .rddiscReq station p, .rdholdReq station p, .rdinputReq station p] ∧
        variant = .rqRead ∧ want = 4) ∨
      (i ∈ [.wrcoilReq station p, .wrcoilRsp station p, .wrregReq station p, .wrregRsp station p] ∧
        variant = .rwSingle ∧ want = 4) ∨
      (i ∈ [.wrcoilsRsp station p, .wrregsRsp station p] ∧ variant = .rsWmulti ∧ want = 4) ∨
      ((∃ base, i = .diagRsp base station p) ∧ variant = .diag ∧ want = 1)) →
    exec i s = .next (s.delivering station
      { variant := variant
        status := if p.length < want then .short else if want < p.length then .excess else .ok
        bc := 0
        vq := 0 })

/-- 41_pdu_decode.md R185, R187: the two write-multiple requests; the quantity is `{p[2], p[3]}`, and the implied byteCount is
computed without truncation. The operands are the model's (log 5). -/
def Obligations.WriteMultipleRequestsAreDelivered : Prop :=
  ∀ (station : Byte) (p : List Byte) (s : State) (qty bc avail : Nat),
    qty = 256 * (p.getD 2 0).toNat + (p.getD 3 0).toNat → bc = (p.getD 4 0).toNat → avail = p.length - 5 →
    exec (.wrcoilsReq station p) s = .next (s.delivering station
      (if p.length < 5 then { variant := .rqWbits, status := .short, bc := 0, vq := 0 }
       else
        { variant := .rqWbits
          status :=
            if avail < bc then .short
            else if bc < avail then .excess
            else if bc ≠ (qty + 7) / 8 then .countMismatch
            else .ok
          bc := p.getD 4 0
          vq := BitVec.ofNat 16 (min qty (8 * min bc avail)) })) ∧
    exec (.wrregsReq station p) s = .next (s.delivering station
      (if p.length < 5 then { variant := .rqWregs, status := .short, bc := 0, vq := 0 }
       else
        { variant := .rqWregs
          status :=
            if avail < bc then .short
            else if bc < avail then .excess
            else if bc ≠ 2 * qty then .countMismatch
            else .ok
          bc := p.getD 4 0
          vq := BitVec.ofNat 16 (min qty (min bc avail / 2)) }))

/-- 41_pdu_decode.md R191: every element of a decoded view lies inside the payload received, whatever the status. `hdr` is
1 for the responses and 5 for the requests. -/
def Obligations.DecodedElementsLieInsideThePayload : Prop :=
  ∀ (fc : Byte) (isResponse : Bool) (p : List Byte) (i : Nat),
    i < (pduDecode fc isResponse p).vq.toNat →
    isVariable (pduDecode fc isResponse p).variant = true ∧
    (isBits (pduDecode fc isResponse p).variant = true → (if isResponse then 1 else 5) + i / 8 < p.length) ∧
    (isRegs (pduDecode fc isResponse p).variant = true → (if isResponse then 1 else 5) + 2 * i + 1 < p.length)

/-- What 42_pdu_create_encode.md R215 and 41_pdu_decode.md R193 say is read back from an encoded payload: the direction, the variant,
the quantity, the 16-bit fields at ADU offsets 2 and 4, the diagnose code, and the elements. -/
def Sys2Proof.Machine.ReadsBack (isResponse : Bool) (view : View) (buf : Buf) : Payload → Prop
  | .readReq _ addr qty =>
    isResponse = false ∧ view = { variant := .rqRead, status := .ok, bc := 0, vq := 0 } ∧
      buf.read16 2 = addr ∧ buf.read16 4 = qty
  | .bitsRsp _ bits =>
    isResponse = true ∧
      view = { variant := .rsBits, status := .ok, bc := BitVec.ofNat 8 ((bits.length + 7) / 8),
               vq := BitVec.ofNat 16 (8 * ((bits.length + 7) / 8)) } ∧
      elems buf .rsBits bits.length = bits.map (fun b => if b then 1#16 else 0#16)
  | .regsRsp _ regs =>
    isResponse = true ∧
      view = { variant := .rsRegs, status := .ok, bc := BitVec.ofNat 8 (2 * regs.length), vq := BitVec.ofNat 16 regs.length } ∧
      elems buf .rsRegs regs.length = regs
  | .single _ addr value =>
    view = { variant := .rwSingle, status := .ok, bc := 0, vq := 0 } ∧ buf.read16 2 = addr ∧ buf.read16 4 = value
  | .wBitsReq addr bits =>
    isResponse = false ∧
      view = { variant := .rqWbits, status := .ok, bc := BitVec.ofNat 8 ((bits.length + 7) / 8),
               vq := BitVec.ofNat 16 bits.length } ∧
      buf.read16 2 = addr ∧ buf.read16 4 = BitVec.ofNat 16 bits.length ∧
      elems buf .rqWbits bits.length = bits.map (fun b => if b then 1#16 else 0#16)
  | .wRegsReq addr regs =>
    isResponse = false ∧
      view = { variant := .rqWregs, status := .ok, bc := BitVec.ofNat 8 (2 * regs.length), vq := BitVec.ofNat 16 regs.length } ∧
      buf.read16 2 = addr ∧ buf.read16 4 = BitVec.ofNat 16 regs.length ∧ elems buf .rqWregs regs.length = regs
  | .wMultiRsp _ addr qty =>
    isResponse = true ∧ view = { variant := .rsWmulti, status := .ok, bc := 0, vq := 0 } ∧
      buf.read16 2 = addr ∧ buf.read16 4 = qty
  | .diag _ code =>
    isResponse = true ∧ view = { variant := .diag, status := .ok, bc := 0, vq := 0 } ∧ buf.read 2 = code

/-- 41_pdu_decode.md R193: decoding an encoded payload in its direction gives it back, at every quantity R215 admits. -/
def Obligations.DecodeOfEncodeReturnsThePayload : Prop :=
  ∀ (pl : Payload) (buf : Buf), pl.valid = true → buf.slice 1 (pduEncode pl).length = pduEncode pl →
    ∃ isResponse, ReadsBack isResponse
      (pduDecode (buf.read 1) isResponse (buf.slice 2 ((pduEncode pl).length - 1))) buf pl

/-! ## Envelopes -/

/-- The function code is in `SUPPORTED` (30_encoding.md R102). -/
def Sys2Proof.Machine.supported (fc : Byte) : Bool :=
  [0x01#8, 0x02#8, 0x03#8, 0x04#8, 0x05#8, 0x06#8, 0x0F#8, 0x10#8].contains fc

/-- The envelope a create command leaves (42_pdu_create_encode.md R213, R214): station header, function code, and 0 everywhere
else. -/
def Sys2Proof.Machine.Created (s t : State) (fcb : Byte) (variant : Variant) (len : Nat) : Prop :=
  t = { s with txBuf := t.txBuf, txVariant := variant, txLen := len, txVq := 0, result := .ok, rdata := 0 } ∧
  ∀ a, t.txBuf.read a =
    if a = 0 then (if s.params.role = .slave then s.station else 0) else if a = 1 then fcb else 0

/-- 42_pdu_create_encode.md R210 to R214: the create commands on a supported code, for an instance whose CAP is at least 9. -/
def Obligations.CreateCommandsLayDownAZeroPayload : Prop :=
  ∀ (fc : Byte) (s : State), 9 ≤ s.params.cap →
    (supported fc = true →
      ∃ t, exec (.envCreq fc) s = .next t ∧
        Created s t fc
          (if fc.toNat ≤ 4 then .rqRead else if fc.toNat ≤ 6 then .rwSingle else if fc = 0x0F#8 then .rqWbits else .rqWregs)
          (if fc.toNat ≤ 6 then 6 else 7)) ∧
    (supported fc = true →
      ∃ t, exec (.envCrsp fc) s = .next t ∧
        Created s t fc
          (if fc.toNat ≤ 2 then .rsBits else if fc.toNat ≤ 4 then .rsRegs else if fc.toNat ≤ 6 then .rwSingle else .rsWmulti)
          (if fc.toNat ≤ 4 then 3 else 6)) ∧
    (supported (fc &&& 0x7F#8) = true →
      ∃ t, exec (.envCdiag fc) s = .next t ∧ Created s t (fc ||| 0x80#8) .diag 3)

/-- 43_payload_ops.md R240, R241: the value of each field number of a selected frame, or the code that refuses it. -/
def Sys2Proof.Machine.fieldReading (f : Selected) (field : Nat) : ResultCode × Word :=
  let byteAt (o : Nat) : ResultCode × Word :=
    if f.len < o + 1 then (.range, 0) else (.ok, BitVec.ofNat 32 (f.buf.read o).toNat)
  let wordAt (o : Nat) : ResultCode × Word :=
    if f.len < o + 2 then (.range, 0) else (.ok, BitVec.ofNat 32 (256 * (f.buf.read o).toNat + (f.buf.read (o + 1)).toNat))
  let inVariant (vs : List Variant) (r : ResultCode × Word) : ResultCode × Word :=
    if f.variant ∈ vs then r else (.badVariant, 0)
  match field with
  | 0 => byteAt 0
  | 1 => byteAt 1
  | 2 => inVariant [.rqRead, .rwSingle, .rqWbits, .rqWregs, .rsWmulti] (wordAt 2)
  | 3 => inVariant [.rqRead, .rqWbits, .rqWregs, .rsWmulti] (wordAt 4)
  | 4 => inVariant [.rwSingle] (wordAt 4)
  | 5 => inVariant [.rsBits, .rsRegs, .rqWbits, .rqWregs] (byteAt (if f.variant ∈ [.rsBits, .rsRegs] then 2 else 6))
  | 6 => inVariant [.diag] (byteAt 2)
  | 7 => (.ok, BitVec.ofNat 32 f.vq)
  | 8 => (.ok, BitVec.ofNat 32 (statusCode f.status))
  | 9 => (.ok, BitVec.ofNat 32 (variantCode f.variant))
  | 10 => (.ok, BitVec.ofNat 32 f.len)
  | 11 => (.ok, BitVec.ofNat 32 ((f.buf.read f.len).toNat + 256 * (f.buf.read (f.len + 1)).toNat))
  | _ => (.badArg, 0)

/-- 43_payload_ops.md R240, R241: PL.GETF under either selector, for every field number; the numbers that fields 8 and 9 return are those
of `CodesHaveTheNumbersOfTheSpec`. -/
def Obligations.GetFieldReadsTheSelectedFrame : Prop :=
  ∀ (s : State) (field : BitVec 4), s.Inv →
    (s.rxValid = false → exec (.plGetf .rx field) s = .next (s.returning .noFrame 0)) ∧
    (s.rxValid = true →
      let f : Selected := { buf := s.rxBuf, variant := s.rxView.variant, status := s.rxView.status, vq := s.rxView.vq.toNat,
                            len := s.rxLen - 2 }
      exec (.plGetf .rx field) s =
        .next (s.returning (fieldReading f field.toNat).1 (fieldReading f field.toNat).2)) ∧
    (s.txVariant = .none → exec (.plGetf .tx field) s = .next (s.returning .noFrame 0)) ∧
    (s.txVariant ≠ .none →
      let f : Selected := { buf := s.txBuf, variant := s.txVariant, status := .ok, vq := s.txVq.toNat, len := s.txLen }
      exec (.plGetf .tx field) s =
        .next (s.returning (fieldReading f field.toNat).1 (fieldReading f field.toNat).2))

/-- 43_payload_ops.md R242: what PL.SETF does to field number `field` of a variant: the offset and width it writes, or the code that
refuses it. -/
def Sys2Proof.Machine.fieldWriting (variant : Variant) (field : Nat) : Except ResultCode (Nat × Nat) :=
  let inVariant (vs : List Variant) (place : Nat × Nat) : Except ResultCode (Nat × Nat) :=
    if variant ∈ vs then .ok place else .error .badVariant
  match field with
  | 0 => .ok (0, 1)
  | 2 => inVariant [.rqRead, .rwSingle, .rqWbits, .rqWregs, .rsWmulti] (2, 2)
  | 3 => inVariant [.rqRead, .rsWmulti] (4, 2)
  | 4 => inVariant [.rwSingle] (4, 2)
  | 6 => inVariant [.diag] (2, 1)
  | _ => .error .badArg

/-- 43_payload_ops.md R242: PL.SETF writes the bytes of its field, high byte first, and nothing else. -/
def Obligations.SetFieldWritesOnlyItsField : Prop :=
  ∀ (s : State) (value : Half) (field : BitVec 4), s.Inv →
    (s.txVariant = .none → exec (.plSetf value field) s = .next (s.returning .noFrame 0)) ∧
    (s.txVariant ≠ .none → ∀ code, fieldWriting s.txVariant field.toNat = .error code →
      exec (.plSetf value field) s = .next (s.returning code 0)) ∧
    (s.txVariant ≠ .none → ∀ o w, fieldWriting s.txVariant field.toNat = .ok (o, w) →
      ∃ t, exec (.plSetf value field) s = .next t ∧
        t = { s with txBuf := t.txBuf, result := .ok, rdata := 0 } ∧
        ∀ a, t.txBuf.read a =
          if w = 1 then (if a = o then value.extractLsb' 0 8 else s.txBuf.read a)
          else if a = o then value.extractLsb' 8 8
          else if a = o + 1 then value.extractLsb' 0 8
          else s.txBuf.read a)

/-- The refusals every command on the envelope's elements shares (43_payload_ops.md R240, section 5). -/
def Sys2Proof.Machine.RefusesOutsideClass (i : Instr) (cls : Variant → Bool) (s : State) : Prop :=
  (s.txVariant = .none → exec i s = .next (s.returning .noFrame 0)) ∧
  (s.txVariant ≠ .none → cls s.txVariant = false → exec i s = .next (s.returning .badVariant 0))

/-- 43_payload_ops.md R243, R249, R258: PL.RESIZE leaves `q` elements, all 0, or NOSPACE and the envelope as it was; with a CAP of at
least 264 the bounds are 2040 bits and 127 registers. -/
def Obligations.ResizeLeavesZeroElementsOrNothing : Prop :=
  ∀ (s : State) (q : Half), s.Inv →
    RefusesOutsideClass (.plResize q) isVariable s ∧
    (isVariable s.txVariant = true → ¬ Fits s.params.cap s.txVariant q.toNat →
      exec (.plResize q) s = .next (s.returning .noSpace 0)) ∧
    (isVariable s.txVariant = true → Fits s.params.cap s.txVariant q.toNat →
      ∃ t, exec (.plResize q) s = .next t ∧
        t = { s with
          txBuf := t.txBuf
          txVq := q
          txLen := valOff s.txVariant + storageBytes s.txVariant q.toNat
          result := .ok
          rdata := 0 } ∧
        StoresElements s.txVariant (List.replicate q.toNat 0#16) s.txBuf t.txBuf) ∧
    (264 ≤ s.params.cap →
      (isBits s.txVariant = true → (Fits s.params.cap s.txVariant q.toNat ↔ q.toNat ≤ 2040)) ∧
      (isRegs s.txVariant = true → (Fits s.params.cap s.txVariant q.toNat ↔ q.toNat ≤ 127)))

/-- 43_payload_ops.md R244, R246: PL.GETBIT and PL.GETREG return element `i` of the selected frame, bit `i mod 8` of byte
`i div 8` or the 16-bit word at `2i`, high byte first. -/
def Obligations.GetBitAndGetRegReturnOneElement : Prop :=
  ∀ (s : State) (sel : Sel) (i : Half), s.Inv →
    (select sel s = none →
      exec (.plGetbit sel i) s = .next (s.returning .noFrame 0) ∧
      exec (.plGetreg sel i) s = .next (s.returning .noFrame 0)) ∧
    (∀ f, select sel s = some f →
      (isBits f.variant = false → exec (.plGetbit sel i) s = .next (s.returning .badVariant 0)) ∧
      (isRegs f.variant = false → exec (.plGetreg sel i) s = .next (s.returning .badVariant 0)) ∧
      (isBits f.variant = true → f.vq ≤ i.toNat → exec (.plGetbit sel i) s = .next (s.returning .range 0)) ∧
      (isRegs f.variant = true → f.vq ≤ i.toNat → exec (.plGetreg sel i) s = .next (s.returning .range 0)) ∧
      (isBits f.variant = true → i.toNat < f.vq →
        exec (.plGetbit sel i) s = .next (s.returning .ok
          (BitVec.ofNat 32 ((f.buf.read (valOff f.variant + i.toNat / 8)).toNat / 2 ^ (i.toNat % 8) % 2)))) ∧
      (isRegs f.variant = true → i.toNat < f.vq →
        exec (.plGetreg sel i) s = .next (s.returning .ok
          (BitVec.ofNat 32 (256 * (f.buf.read (valOff f.variant + 2 * i.toNat)).toNat +
            (f.buf.read (valOff f.variant + 2 * i.toNat + 1)).toNat)))))

/-- 43_payload_ops.md R245: PL.SETBIT changes exactly one bit of one byte. -/
def Obligations.SetBitChangesExactlyOneBit : Prop :=
  ∀ (s : State) (b : Bool) (i : Half), s.Inv →
    RefusesOutsideClass (.plSetbit b i) isBits s ∧
    (isBits s.txVariant = true → s.txVq.toNat ≤ i.toNat → exec (.plSetbit b i) s = .next (s.returning .range 0)) ∧
    (isBits s.txVariant = true → i.toNat < s.txVq.toNat →
      ∃ t, exec (.plSetbit b i) s = .next t ∧
        t = { s with txBuf := t.txBuf, result := .ok, rdata := 0 } ∧
        ∀ a j, j < 8 → (t.txBuf.read a).getLsbD j =
          if a = valOff s.txVariant + i.toNat / 8 ∧ j = i.toNat % 8 then b else (s.txBuf.read a).getLsbD j)

/-- 43_payload_ops.md R247: PL.SETREG writes two bytes, high byte first. -/
def Obligations.SetRegWritesTwoBytes : Prop :=
  ∀ (s : State) (w : Half) (i : Half), s.Inv →
    RefusesOutsideClass (.plSetreg w i) isRegs s ∧
    (isRegs s.txVariant = true → s.txVq.toNat ≤ i.toNat → exec (.plSetreg w i) s = .next (s.returning .range 0)) ∧
    (isRegs s.txVariant = true → i.toNat < s.txVq.toNat →
      ∃ t, exec (.plSetreg w i) s = .next t ∧
        t = { s with txBuf := t.txBuf, result := .ok, rdata := 0 } ∧
        ∀ a, t.txBuf.read a =
          if a = valOff s.txVariant + 2 * i.toNat then w.extractLsb' 8 8
          else if a = valOff s.txVariant + 2 * i.toNat + 1 then w.extractLsb' 0 8
          else s.txBuf.read a)

/-- The elements an insert command of a class takes from `n` entries: bit 0 of each for the bit commands, the whole entry for
the register commands (10_state.md R44). The other bits of a bit entry are read as ignored (log 15). -/
def Sys2Proof.Machine.entryElements (v : Variant) (entries : List Half) : List Half :=
  if isBits v then entries.map (fun e => e &&& 1#16) else entries

/-- What an insert command of a class does (43_payload_ops.md section 5): `place d es` is the new element list. -/
def Sys2Proof.Machine.Inserts (i : Instr) (cls : Variant → Bool) (place : List Half → List Half → List Half) (n : Nat)
    (s : State) : Prop :=
  RefusesOutsideClass i cls s ∧
  (cls s.txVariant = true → s.hdata.length < n → exec i s = .next (s.returning .badArg 0)) ∧
  (cls s.txVariant = true → n ≤ s.hdata.length → ¬ Fits s.params.cap s.txVariant (s.txVq.toNat + n) →
    exec i s = .next { s with hdata := s.hdata.drop n, result := .noSpace, rdata := 0 }) ∧
  (cls s.txVariant = true → n ≤ s.hdata.length → Fits s.params.cap s.txVariant (s.txVq.toNat + n) →
    ∃ t, exec i s = .next t ∧
      t = { s with
        txBuf := t.txBuf
        txVq := BitVec.ofNat 16 (s.txVq.toNat + n)
        txLen := valOff s.txVariant + storageBytes s.txVariant (s.txVq.toNat + n)
        hdata := s.hdata.drop n
        result := .ok
        rdata := 0 } ∧
      StoresElements s.txVariant
        (place (entryElements s.txVariant (s.hdata.take n)) (elems s.txBuf s.txVariant s.txVq.toNat)) s.txBuf t.txBuf)

/-- 43_payload_ops.md R250, R251, R254, R255: the four insert commands. `n = 0` stores the old elements, which zeroes an applied CRC, as
the rules' pseudocode does (log 6). -/
def Obligations.InsertCommandsStoreTheNewElements : Prop :=
  ∀ (s : State) (n : Half), s.Inv →
    Inserts (.plInsbitsH n) isBits (fun d es => d ++ es) n.toNat s ∧
    Inserts (.plInsbitsT n) isBits (fun d es => es ++ d) n.toNat s ∧
    Inserts (.plInsregsH n) isRegs (fun d es => d ++ es) n.toNat s ∧
    Inserts (.plInsregsT n) isRegs (fun d es => es ++ d) n.toNat s

/-- What a remove command of a class does (43_payload_ops.md section 5): of the element list, `out es` is delivered and
`keep es` stays. -/
def Sys2Proof.Machine.Removes (i : Instr) (cls : Variant → Bool) (out keep : List Half → List Half) (n : Nat)
    (s : State) : Prop :=
  RefusesOutsideClass i cls s ∧
  (cls s.txVariant = true → s.txVq.toNat < n → exec i s = .next (s.returning .range 0)) ∧
  (cls s.txVariant = true → n ≤ s.txVq.toNat →
    ∃ t, exec i s = .next t ∧
      t = { s with
        txBuf := t.txBuf
        txVq := BitVec.ofNat 16 (s.txVq.toNat - n)
        txLen := valOff s.txVariant + storageBytes s.txVariant (s.txVq.toNat - n)
        hdata := (out (elems s.txBuf s.txVariant s.txVq.toNat)).take s.params.hdataDepth
        result := .ok
        rdata := 0 } ∧
      StoresElements s.txVariant (keep (elems s.txBuf s.txVariant s.txVq.toNat)) s.txBuf t.txBuf)

/-- 43_payload_ops.md R252, R253, R256, R257, 10_state.md R44: the four remove commands, which never return NOSPACE. `n = 0` empties the
FIFO and zeroes an applied CRC, as the rules' pseudocode does (log 6). That a FIFO shorter than the list keeps its first entries
is log 13. -/
def Obligations.RemoveCommandsDeliverTheRemovedElements : Prop :=
  ∀ (s : State) (n : Half), s.Inv →
    Removes (.plRembitsH n) isBits (fun es => es.take n.toNat) (fun es => es.drop n.toNat) n.toNat s ∧
    Removes (.plRembitsT n) isBits (fun es => es.drop (s.txVq.toNat - n.toNat)) (fun es => es.take (s.txVq.toNat - n.toNat))
      n.toNat s ∧
    Removes (.plRemregsH n) isRegs (fun es => es.take n.toNat) (fun es => es.drop n.toNat) n.toNat s ∧
    Removes (.plRemregsT n) isRegs (fun es => es.drop (s.txVq.toNat - n.toNat)) (fun es => es.take (s.txVq.toNat - n.toNat))
      n.toNat s

/-- The insert and the remove command of one class and one end. -/
def Sys2Proof.Machine.insertRemovePairs (n : Half) : List (Instr × Instr) :=
  [(.plInsbitsH n, .plRembitsH n), (.plInsbitsT n, .plRembitsT n), (.plInsregsH n, .plRemregsH n),
   (.plInsregsT n, .plRemregsT n)]

/-- 43_payload_ops.md R260: insert then remove at the same end restores the whole envelope and delivers the inserted elements. -/
def Obligations.InsertThenRemoveRestoresTheEnvelope : Prop :=
  ∀ (s t : State) (n : Half) (ins rem : Instr), s.Inv → (ins, rem) ∈ insertRemovePairs n →
    s.txBuf.read s.txLen = 0 → s.txBuf.read (s.txLen + 1) = 0 → n.toNat ≤ s.params.hdataDepth →
    exec ins s = .next t → t.result = .ok →
    ∃ u, exec rem t = .next u ∧ u.result = .ok ∧ u.txBuf = s.txBuf ∧ u.txLen = s.txLen ∧ u.txVq = s.txVq ∧
      u.hdata = entryElements s.txVariant (s.hdata.take n.toNat)

/-- 43_payload_ops.md R260, the reverse order: remove then insert the delivered list at the same end restores the whole
envelope. -/
def Obligations.RemoveThenInsertRestoresTheEnvelope : Prop :=
  ∀ (s t : State) (n : Half) (ins rem : Instr), s.Inv → (ins, rem) ∈ insertRemovePairs n →
    s.txBuf.read s.txLen = 0 → s.txBuf.read (s.txLen + 1) = 0 → n.toNat ≤ s.params.hdataDepth →
    exec rem s = .next t → t.result = .ok →
    ∃ u, exec ins t = .next u ∧ u.result = .ok ∧ u.txBuf = s.txBuf ∧ u.txLen = s.txLen ∧ u.txVq = s.txVq

/-- 43_payload_ops.md R261, 41_pdu_decode.md R193: an envelope decodes with status OK in its own direction, to its own variant,
byteCount and quantity. -/
def Obligations.EnvelopeDecodesOkInItsOwnDirection : Prop :=
  ∀ (s : State) (isResponse : Bool), s.Inv → s.txVariant ≠ .none → variantOf (s.txBuf.read 1) isResponse = s.txVariant →
    pduDecode (s.txBuf.read 1) isResponse (s.txBuf.slice 2 (s.txLen - 2)) =
      { variant := s.txVariant
        status := .ok
        bc := if isVariable s.txVariant then s.txBuf.read (valOff s.txVariant - 1) else 0
        vq := if s.txVariant = .rsBits then BitVec.ofNat 16 (8 * cdiv8 s.txVq.toNat) else s.txVq }

/-! ## Framing -/

/-- 44_framing_fsm.md R296, R301: DRAIN moves the oldest bytes of `rxq` to the window buffer until the queue or the buffer ends,
starting a new frame in WaitStation, and stamps them with `now`; with no byte moved nothing changes. -/
def Obligations.DrainStoresTheQueueInOrder : Prop :=
  ∀ s : State, s.Inv → ∀ start count : Nat,
    start = (if s.rxState = .waitStation then 0 else s.rxLen) → count = min s.rxq.length (s.params.cap - start) →
    (count = 0 → drain s = s) ∧
    (0 < count →
      drain s = { s with
        rxBuf := (drain s).rxBuf
        rxq := s.rxq.drop count
        rxLen := start + count
        rxState := if start + count = 1 then .waitFunctionCode else .waitData
        rxValid := if s.rxState = .waitStation then false else s.rxValid
        lastRxUs := s.now
        lastActUs := s.now } ∧
      ∀ a, (drain s).rxBuf.read a =
        if start ≤ a ∧ a < start + count then s.rxq.getD (a - start) 0 else s.rxBuf.read a)

/-- 44_framing_fsm.md R302, 60_exceptions.md R410, R413: the end check, overflow before silence, silence strictly longer than the
interval, and the short frame before the CRC; each failure is the failure entry. The time since the last byte is the difference of
the two registers modulo 2^32 (60_exceptions.md R416). -/
def Obligations.EndCheckTestsOverflowThenSilence : Prop :=
  ∀ (s : State) (silent : Nat), silent = (2 ^ 32 - s.lastRxUs.toNat + s.now.toNat) % 2 ^ 32 →
    (s.rxState = .waitStation → endCheck s = .next s) ∧
    (s.rxState ≠ .waitStation → s.params.cap ≤ s.rxLen → endCheck s = .next (s.counting.failing .overflow)) ∧
    (s.rxState ≠ .waitStation → s.rxLen < s.params.cap → silent ≤ s.silenceUs.toNat →
      endCheck s = .next s) ∧
    (s.rxState ≠ .waitStation → s.rxLen < s.params.cap → s.silenceUs.toNat < silent → s.rxLen < 4 →
      endCheck s = .next (s.counting.failing .timedout)) ∧
    (s.rxState ≠ .waitStation → s.rxLen < s.params.cap → s.silenceUs.toNat < silent → 4 ≤ s.rxLen →
      endCheck s = complete s)

/-- 44_framing_fsm.md R303, R304: a completed frame of `n` bytes is counted, stops a master's wait, and is then checked: CRC first, then
the function code; only then is its view delivered. -/
def Obligations.CompletionChecksCrcThenFunctionCode : Prop :=
  ∀ s : State, 4 ≤ s.rxLen →
    ∀ (n : Nat) (c : Half) (view : View) (counted : State),
    n = s.rxLen → c = crc16 (s.rxBuf.slice 0 (n - 2)) →
    view = pduDecode (s.rxBuf.read 1) (decide (s.params.role = .master)) (s.rxBuf.slice 2 (n - 4)) →
    counted = { s with
      totalFrames := s.totalFrames + 1
      awaiting := if s.params.role = .master then false else s.awaiting } →
    complete s = .next
      (if c.toNat ≠ (s.rxBuf.read (n - 2)).toNat + 256 * (s.rxBuf.read (n - 1)).toNat then counted.failing .verifyFailed
       else if view.status = .unsupported then counted.failing .unsupportedFunctionCode
       else counted.delivering (s.rxBuf.read 0) view)

/-- 44_framing_fsm.md R300: FSM.UPDATE always completes, as its phases in their order, and returns OK. -/
def Obligations.UpdateRunsItsPhasesInOrder : Prop :=
  ∀ s : State, s.Inv →
    ∃ framed sent : State,
      endCheck (drain s) = .next framed ∧
      deferredTransmit (responseTimeout framed) = .next sent ∧
      exec .fsmUpdate s = .next (sent.returning .ok 0)

/-- 44_framing_fsm.md R306 (1): while the silence interval is not exceeded and the window is not full, an update ends no frame: no view,
no receiver state but the bytes drained, and no count but a response timeout's. -/
def Obligations.NoFrameEndsWithoutSilence : Prop :=
  ∀ s t : State, s.Inv → exec .fsmUpdate s = .next t →
    (drain s).rxLen < s.params.cap → elapsed s.now (drain s).lastRxUs ≤ s.silenceUs.toNat →
    t.rxBuf = (drain s).rxBuf ∧ t.rxLen = (drain s).rxLen ∧ t.rxView = s.rxView ∧
    (t.evPending &&& 1#2 = s.evPending &&& 1#2) ∧
    ((t.totalFrames = s.totalFrames ∧ t.failedFrames = s.failedFrames ∧ t.failKind = s.failKind ∧
        t.rxState = (drain s).rxState ∧ t.rxValid = (drain s).rxValid) ∨
      (s.params.role = .master ∧ s.awaiting = true ∧ s.respTimeoutUs.toNat ≤ elapsed s.now s.txStampUs ∧
        t.totalFrames = s.totalFrames + 1 ∧ t.failedFrames = s.failedFrames + 1 ∧ t.failKind = .timedout ∧
        t.rxState = .waitStation ∧ t.rxValid = false))

/-- 44_framing_fsm.md R306 (2), (3): a stream that stalls after 1 to 3 bytes reports Timedout at the first update with the silence
exceeded, and one that fills the window reports Overflow at that update whatever the stamps; both are counted once,
and the receiver is back in WaitStation. A master that times out in the same update is left out by `awaiting`. -/
def Obligations.ShortAndOverlongFramesFail : Prop :=
  ∀ s : State, s.Inv → s.awaiting = false → s.txPending = false →
    (s.rxState ≠ .waitStation → s.rxq = [] → s.rxLen < 4 → s.silenceUs.toNat < elapsed s.now s.lastRxUs →
      exec .fsmUpdate s = .next ((s.counting.failing .timedout).returning .ok 0)) ∧
    ((drain s).rxLen = s.params.cap → (drain s).rxState ≠ .waitStation →
      exec .fsmUpdate s = .next (((drain s).counting.failing .overflow).returning .ok 0))

/-- 60_exceptions.md R411, R412, 44_framing_fsm.md R306 (4), (5): what one update adds to the two counters. A frame end is counted
once, a failure once more; the FAIL event marks the failures and the FRAME event the delivery. No other step but a reset
changes a counter, so failures never outnumber frame ends before a wrap. -/
def Obligations.CountersCountFrameEndsAndFailures : Prop :=
  ∀ s t : State, s.Inv → step s = .next t →
    (s.inputs.head? = some .reset ∧ t.totalFrames = 0 ∧ t.failedFrames = 0) ∨
    ∃ ends fails : Nat,
      ((ends = fails ∧ ends ≤ 2) ∨ (ends = 1 ∧ fails = 0)) ∧
      t.totalFrames = s.totalFrames + BitVec.ofNat 32 ends ∧
      t.failedFrames = s.failedFrames + BitVec.ofNat 32 fails ∧
      (0 < ends → (∃ value, s.inputs.head? = some (.write 0x00 value) ∧ value.setWidth 8 = 0x30#8) ∧ t.rxState = .waitStation) ∧
      (0 < fails → t.evPending.getLsbD 1 = true ∧ t.failKind ≠ .none ∧ t.rxValid = false) ∧
      (fails < ends → t.evPending.getLsbD 0 = true ∧ t.rxValid = true ∧ t.failKind = s.failKind) ∧
      (s.failedFrames.toNat ≤ s.totalFrames.toNat → s.totalFrames.toNat + ends < 2 ^ 32 →
        t.failedFrames.toNat ≤ t.totalFrames.toNat)

/-! ## Roles -/

/-- 45_role_gate.md R340: the response timeout, non-strict, of a waiting master alone; it ends the wait and is a failure entry. The time waited is the difference of the two registers modulo 2^32 (60_exceptions.md R416). -/
def Obligations.ResponseTimeoutEndsTheWait : Prop :=
  ∀ (s : State) (waited : Nat), waited = (2 ^ 32 - s.txStampUs.toNat + s.now.toNat) % 2 ^ 32 →
    ((s.params.role = .slave ∨ s.awaiting = false ∨ waited < s.respTimeoutUs.toNat) →
      responseTimeout s = s) ∧
    (s.params.role = .master → s.awaiting = true → s.respTimeoutUs.toNat ≤ waited →
      responseTimeout s = { s.counting.failing .timedout with awaiting := false })

/-- 45_role_gate.md R331, R332, R344: ROLE.AVAIL, and the refusals of ROLE.XMIT and ROLE.XMITDEF in their order. -/
def Obligations.GateAnswersAndRefuses : Prop :=
  ∀ (s : State) (target : Byte) (i : Instr), i ∈ [.roleXmit target, .roleXmitdef target] →
    exec .roleAvail s = .next (s.returning .ok
      (if s.txPending = false ∧ (s.params.role = .master → s.awaiting = false) ∧ (s.params.role = .slave → s.allowed = true)
       then 1 else 0)) ∧
    (s.txVariant = .none → exec i s = .next (s.returning .noFrame 0)) ∧
    (s.txVariant ≠ .none → s.params.role = .master → 247 < target.toNat → exec i s = .next (s.returning .badArg 0)) ∧
    (s.txVariant ≠ .none → s.params.role = .master → target.toNat ≤ 247 → (s.txPending = true ∨ s.awaiting = true) →
      exec i s = .next (s.returning .busy 0)) ∧
    (s.txVariant ≠ .none → s.params.role = .slave → (s.txPending = true ∨ s.allowed = false) →
      exec i s = .next (s.returning .busy 0))

/-- The bytes DOXMIT leaves in `tx_buf` (45_role_gate.md R335): the station byte, and the CRC of the frame with it. -/
def Sys2Proof.Machine.SentBuffer (station : Byte) (len : Nat) (before after : Buf) : Prop :=
  ∀ a, after.read a =
    if a = 0 then station
    else if a = len then lo (crc16 (station :: before.slice 1 (len - 1)))
    else if a = len + 1 then hi (crc16 (station :: before.slice 1 (len - 1)))
    else before.read a

/-- 45_role_gate.md R333, R335, R336: a master's ROLE.XMIT sends the whole frame to its target and arms the response wait. -/
def Obligations.MasterTransmitSendsAndArms : Prop :=
  ∀ (s : State) (target : Byte), s.Inv → s.params.role = .master → s.txVariant ≠ .none → target.toNat ≤ 247 →
    s.txPending = false → s.awaiting = false →
    ∃ t, exec (.roleXmit target) s = .next t ∧
      t = { s with
        txBuf := t.txBuf
        txlog := s.txlog ++ [.txBegin] ++ (t.txBuf.slice 0 (s.txLen + 2)).map .txByte ++ [.txEnd]
        lastActUs := s.now
        awaiting := true
        txStampUs := s.now
        result := .ok
        rdata := 0 } ∧
      SentBuffer target s.txLen s.txBuf t.txBuf

/-- 45_role_gate.md R334, R335, R337: a slave's ROLE.XMIT sends the whole frame under its own station and uses up its one reply;
the operand is ignored. -/
def Obligations.SlaveTransmitSendsAndDisarms : Prop :=
  ∀ (s : State) (target : Byte), s.Inv → s.params.role = .slave → s.txVariant ≠ .none → s.txPending = false →
    s.allowed = true →
    ∃ t, exec (.roleXmit target) s = .next t ∧
      t = { s with
        txBuf := t.txBuf
        txlog := s.txlog ++ [.txBegin] ++ (t.txBuf.slice 0 (s.txLen + 2)).map .txByte ++ [.txEnd]
        lastActUs := s.now
        allowed := false
        result := .ok
        rdata := 0 } ∧
      SentBuffer s.station s.txLen s.txBuf t.txBuf

/-- 45_role_gate.md R338: ROLE.XMITDEF records the intent and, on a master, the target; nothing is sent. -/
def Obligations.DeferredTransmitRecordsTheIntent : Prop :=
  ∀ (s : State) (target : Byte), s.txVariant ≠ .none → s.txPending = false →
    (s.params.role = .master → target.toNat ≤ 247 → s.awaiting = false →
      exec (.roleXmitdef target) s = .next { s with txPending := true, pendingTarget := target, result := .ok, rdata := 0 }) ∧
    (s.params.role = .slave → s.allowed = true →
      exec (.roleXmitdef target) s = .next { s with txPending := true, pendingTarget := 0, result := .ok, rdata := 0 })

/-- The state after a deferred frame has gone out (45_role_gate.md R335, R341), `result` and `rdata` apart: the request is used up, the
frame is logged as the envelope stands now, under the station of now, and the flags are those of a transmission of the role. -/
def Sys2Proof.Machine.DeferredSent (s t : State) : Prop :=
  t = { s with
    txPending := false
    txBuf := t.txBuf
    txlog := s.txlog ++ [.txBegin] ++ (t.txBuf.slice 0 (s.txLen + 2)).map .txByte ++ [.txEnd]
    lastActUs := s.now
    awaiting := t.awaiting
    txStampUs := t.txStampUs
    allowed := t.allowed } ∧
  (s.params.role = .master → t.awaiting = true ∧ t.txStampUs = s.now ∧ t.allowed = s.allowed) ∧
  (s.params.role = .slave → t.awaiting = s.awaiting ∧ t.txStampUs = s.txStampUs ∧ t.allowed = false) ∧
  SentBuffer (if s.params.role = .master then s.pendingTarget else s.station) s.txLen s.txBuf t.txBuf

/-- 45_role_gate.md R341, R342, 20_memory.md R86: phase 4 of an update, from every good state the earlier phases can leave, sends a
pending frame exactly when the quiet time, the difference of the two registers modulo 2^32 (60_exceptions.md R416), has reached
`sendback_us`, as the envelope stands then and under the station of then, and drops the request when the envelope has been
emptied. With the receiver idle and nothing to drain that is all the update does. -/
def Obligations.DeferredFrameWaitsForTheGap : Prop :=
  ∀ (s : State) (quiet : Nat), s.Inv → quiet = (2 ^ 32 - s.lastActUs.toNat + s.now.toNat) % 2 ^ 32 →
    (s.txPending = false → deferredTransmit s = .next s) ∧
    (s.txPending = true → quiet < s.sendbackUs.toNat → deferredTransmit s = .next s) ∧
    (s.txPending = true → s.sendbackUs.toNat ≤ quiet → s.txVariant = .none →
      deferredTransmit s = .next { s with txPending := false }) ∧
    (s.txPending = true → s.sendbackUs.toNat ≤ quiet → s.txVariant ≠ .none →
      ∃ t, deferredTransmit s = .next t ∧ DeferredSent s t) ∧
    (s.rxq = [] → s.rxState = .waitStation → s.txPending = true →
      (quiet < s.sendbackUs.toNat → exec .fsmUpdate s = .next (s.returning .ok 0)) ∧
      (s.sendbackUs.toNat ≤ quiet → s.txVariant = .none →
        exec .fsmUpdate s = .next { s with txPending := false, result := .ok, rdata := 0 }) ∧
      (s.sendbackUs.toNat ≤ quiet → s.txVariant ≠ .none →
        ∃ t, exec .fsmUpdate s = .next (t.returning .ok 0) ∧ DeferredSent s t))

/-- 45_role_gate.md R336, R337, 44_framing_fsm.md R304: who moves the two gate flags. A slave's reply gate opens only in an update that
delivers a frame with a good CRC for its own station; it closes only by a transmission or a reset. A master's wait ends only by an update
that counts a frame end, or by a reset. -/
def Obligations.GateFlagsMoveOnlyAsTheRulesSay : Prop :=
  ∀ s t : State, s.Inv → step s = .next t →
    (s.allowed = false → t.allowed = true →
      s.params.role = .slave ∧ t.rxValid = true ∧ t.rxBuf.read 0 = t.station ∧ crcMatches t.rxBuf (t.rxLen - 2) = true ∧
      t.totalFrames = s.totalFrames + 1 ∧ t.failedFrames = s.failedFrames) ∧
    (s.allowed = true → t.allowed = false →
      t.txlog ≠ s.txlog ∨ s.inputs.head? = some .reset ∨
      ∃ value, s.inputs.head? = some (.write 0x00 value) ∧ value.setWidth 8 = 0x48#8) ∧
    (s.awaiting = false → t.awaiting = true → s.params.role = .master ∧ t.txlog ≠ s.txlog ∧ t.txStampUs = s.now) ∧
    (s.awaiting = true → t.awaiting = false →
      t.totalFrames ≠ s.totalFrames ∨ s.inputs.head? = some .reset ∨
      ∃ value, s.inputs.head? = some (.write 0x00 value) ∧ value.setWidth 8 = 0x48#8)

/-- 45_role_gate.md R330 to R337, 60_exceptions.md R421, 70_reset_and_hazards.md R459: every step leaves the transmit log as it was, or
resets, or appends one whole frame of 5 to CAP bytes with its own CRC, which the role gate admitted: a slave sends under its
own station, with its one reply allowed, and uses it up; a master sends to a legal target, with no response outstanding,
and arms the wait. -/
def Obligations.EveryTransmissionPassesTheGateWithItsCrc : Prop :=
  ∀ s t : State, s.Inv → step s = .next t →
    t.txlog = s.txlog ∨
    (s.inputs.head? = some .reset ∧ t.txlog = []) ∨
    ∃ frame : List Byte,
      t.txlog = s.txlog ++ [.txBegin] ++ frame.map .txByte ++ [.txEnd] ∧
      5 ≤ frame.length ∧ frame.length ≤ s.params.cap ∧
      frame.drop (frame.length - 2) =
        [lo (crc16 (frame.take (frame.length - 2))), hi (crc16 (frame.take (frame.length - 2)))] ∧
      (s.params.role = .slave → s.allowed = true ∧ t.allowed = false ∧ frame.head? = some s.station) ∧
      (s.params.role = .master →
        s.awaiting = false ∧ t.awaiting = true ∧ ∃ target : Byte, frame.head? = some target ∧ target.toNat ≤ 247)

/-! ## Configuration and system commands -/

/-- 46_config_and_system.md R370 to R372: CFG.SETBAUD, with the intervals as exact arithmetic that saturates, and the table of R371 for
the default parameters. -/
def Obligations.SetBaudDerivesBothIntervals : Prop :=
  (∀ s : State, exec (.cfgSetbaud 0) s = .next (s.returning .badArg 0)) ∧
  (∀ (s : State) (baud : Word), baud ≠ 0 → ∀ silence sendback : Nat,
    (∀ k, k < silence → k < 2 ^ 32 - 1 ∧ k * baud.toNat < 3500000 * s.params.charBits) →
    (silence = 2 ^ 32 - 1 ∨ 3500000 * s.params.charBits ≤ silence * baud.toNat) →
    sendback = min (2 ^ 32 - 1) (s.params.sendbackMult * silence) →
    exec (.cfgSetbaud baud) s = .next
      { s with
        baud := baud
        silenceUs := BitVec.ofNat 32 silence
        sendbackUs := BitVec.ofNat 32 sendback
        result := .ok
        rdata := 0 }) ∧
  ([1200, 2400, 4800, 9600, 19200, 38400, 57600, 115200].map
      (fun baud => (silenceOf Params.default baud, sendbackOf Params.default (silenceOf Params.default baud))) =
    [(32084, 2566720), (16042, 1283360), (8021, 641680), (4011, 320880), (2006, 160480), (1003, 80240), (669, 53520),
      (335, 26800)])

/-- 46_config_and_system.md R373 to R379: the other setters, the soft reset, which keeps everything it does not name, and the two
event commands. -/
def Obligations.SettersSoftResetAndEventCommands : Prop :=
  ∀ (s : State) (us : Word) (station : Byte) (m : BitVec 2),
    exec (.cfgSetsilence us) s = .next { s with silenceUs := us, result := .ok, rdata := 0 } ∧
    exec (.cfgSetsendback us) s = .next { s with sendbackUs := us, result := .ok, rdata := 0 } ∧
    exec (.cfgSettimeout us) s = .next { s with respTimeoutUs := us, result := .ok, rdata := 0 } ∧
    (s.params.role = .master → exec (.cfgSetstation station) s = .next (s.returning .badArg 0)) ∧
    (s.params.role = .slave → (station = 0 ∨ 247 < station.toNat) →
      exec (.cfgSetstation station) s = .next (s.returning .badArg 0)) ∧
    (s.params.role = .slave → 1 ≤ station.toNat → station.toNat ≤ 247 →
      exec (.cfgSetstation station) s = .next { s with station := station, result := .ok, rdata := 0 }) ∧
    exec .sysSoftreset s = .next
      { s with
        rxState := .waitStation
        rxLen := 0
        rxValid := false
        awaiting := false
        allowed := false
        txPending := false
        result := .ok
        rdata := 0 } ∧
    exec (.evAck m) s = .next
      { s with
        evPending := BitVec.ofBool (s.evPending.getLsbD 1 && !m.getLsbD 1) ++ BitVec.ofBool (s.evPending.getLsbD 0 && !m.getLsbD 0)
        result := .ok
        rdata := 0 } ∧
    exec (.evSetmask m) s = .next { s with evMask := m, result := .ok, rdata := 0 }

/-- 46_config_and_system.md R380: SYS.RDBUF, for every offset of either buffer. -/
def Obligations.RawReadReturnsOneBufferByte : Prop :=
  ∀ (s : State) (off : Half), s.Inv →
    (s.rxLen ≤ off.toNat → exec (.sysRdbuf .rx off) s = .next (s.returning .range 0)) ∧
    (off.toNat < s.rxLen →
      exec (.sysRdbuf .rx off) s = .next (s.returning .ok (BitVec.ofNat 32 (s.rxBuf.read off.toNat).toNat))) ∧
    ((s.txVariant = .none ∨ s.txLen + 2 ≤ off.toNat) → exec (.sysRdbuf .tx off) s = .next (s.returning .range 0)) ∧
    (s.txVariant ≠ .none → off.toNat < s.txLen + 2 →
      exec (.sysRdbuf .tx off) s = .next (s.returning .ok (BitVec.ofNat 32 (s.txBuf.read off.toNat).toNat)))

/-! ## The whole machine -/

/-- 70_reset_and_hazards.md R440, R441: the hard reset, from any state of an instance with any parameters. The two buffers' values
(log 4), and that the steps to come, the last read and the counter stay (log 2), are the model's choice and are not stated
but as fields left open. -/
def Obligations.HardResetSetsEveryElement : Prop :=
  ∀ s : State, ∃ t, perform .reset s = .next t ∧
    t = {
      params := s.params, rxBuf := t.rxBuf, txBuf := t.txBuf, rxState := .waitStation, rxLen := 0, txLen := 0, rxValid := false,
      awaiting := false, allowed := false, txPending := false, pendingTarget := 0, txVariant := .none, txVq := 0,
      evPending := 0, evMask := 0, rxView := { variant := .none, status := .ok, bc := 0, vq := 0 }, now := 0, lastRxUs := 0,
      lastActUs := 0, txStampUs := 0, baud := s.params.baudReset, silenceUs := silenceOf s.params s.params.baudReset,
      sendbackUs := sendbackOf s.params (silenceOf s.params s.params.baudReset), respTimeoutUs := s.params.respTimeoutReset,
      station := if s.params.role = .slave then s.params.stationReset else 0, failKind := .none, totalFrames := 0,
      failedFrames := 0, crc := 0xFFFF#16, cmdArg0 := 0, cmdArg1 := 0, result := .ok, rdata := 0, hdata := [], rxq := [],
      txlog := [], inputs := t.inputs, portData := t.portData, freeCount := t.freeCount }

/-- Who writes the receiver, the statistics and the accumulator (10_state.md R21, R24, R25, R27, R33, R37, R38, R41 to R44): each
element keeps its value under every instruction but its writers. The clauses on `inputs`, `portData` and `freeCount` are about the
model's own fields (log 2, log 11, log 8), and that a wire form leaves the counters, `result` and `rdata` follows from its being
fetched by FSM.UPDATE, which counts (log 5). -/
def Obligations.ReceiverStateHasOnlyItsWriters : Prop :=
  ∀ (i : Instr) (s t : State), exec i s = .next t →
    t.params = s.params ∧ t.now = s.now ∧ t.cmdArg0 = s.cmdArg0 ∧ t.cmdArg1 = s.cmdArg1 ∧ t.inputs = s.inputs ∧
    t.portData = s.portData ∧ t.freeCount = s.freeCount ∧
    (i = .fsmUpdate ∨
      (t.rxBuf = s.rxBuf ∧ t.rxq = s.rxq ∧ t.lastRxUs = s.lastRxUs ∧ t.totalFrames = s.totalFrames ∧
        t.failedFrames = s.failedFrames ∧ t.failKind = s.failKind)) ∧
    (i = .fsmUpdate ∨ i = .sysSoftreset ∨ t.rxLen = s.rxLen) ∧
    (i = .fsmUpdate ∨ i = .sysSoftreset ∨ i.isWire = true ∨ (t.rxState = s.rxState ∧ t.rxValid = s.rxValid)) ∧
    (i = .fsmUpdate ∨ i.isWire = true ∨ t.rxView = s.rxView) ∧
    (i = .fsmUpdate ∨ i.isWire = true ∨ (∃ m, i = .evAck m) ∨ t.evPending = s.evPending) ∧
    ((∃ m, i = .evSetmask m) ∨ t.evMask = s.evMask) ∧
    (i = .crcReset ∨ (∃ b, i = .crcUpdate b) ∨ t.crc = s.crc) ∧
    (i.usesHdata = true ∨ t.hdata = s.hdata) ∧
    (i.isWire = false ∨ (t.result = s.result ∧ t.rdata = s.rdata))

/-- Who writes the envelope, the gate, the time stamps and the configuration (10_state.md R22, R26, R28 to R31, R38 to R40, R47). That a wire form
itself leaves `awaiting` follows from its being fetched by FSM.UPDATE, which ends the wait (log 5). -/
def Obligations.TransmitStateHasOnlyItsWriters : Prop :=
  ∀ (i : Instr) (s t : State), exec i s = .next t →
    (i.isCreate = true ∨ t.txVariant = s.txVariant) ∧
    (i.isCreate = true ∨ i.changesLength = true ∨ (t.txLen = s.txLen ∧ t.txVq = s.txVq)) ∧
    (i.isCreate = true ∨ i.changesLength = true ∨ i.editsEnvelope = true ∨ i.isXmit = true ∨ i = .fsmUpdate ∨
      t.txBuf = s.txBuf) ∧
    (i.isXmit = true ∨ i = .fsmUpdate ∨ (t.txlog = s.txlog ∧ t.txStampUs = s.txStampUs ∧ t.lastActUs = s.lastActUs)) ∧
    (i.isXmit = true ∨ i = .fsmUpdate ∨ i = .sysSoftreset ∨ t.awaiting = s.awaiting) ∧
    (i.isXmit = true ∨ i = .fsmUpdate ∨ i = .sysSoftreset ∨ i.isWire = true ∨ t.allowed = s.allowed) ∧
    ((∃ target, i = .roleXmitdef target) ∨ i = .fsmUpdate ∨ i = .sysSoftreset ∨ t.txPending = s.txPending) ∧
    ((∃ target, i = .roleXmitdef target) ∨ t.pendingTarget = s.pendingTarget) ∧
    ((∃ baud, i = .cfgSetbaud baud) ∨ t.baud = s.baud) ∧
    ((∃ baud, i = .cfgSetbaud baud) ∨ (∃ us, i = .cfgSetsilence us) ∨ t.silenceUs = s.silenceUs) ∧
    ((∃ baud, i = .cfgSetbaud baud) ∨ (∃ us, i = .cfgSetsendback us) ∨ t.sendbackUs = s.sendbackUs) ∧
    ((∃ us, i = .cfgSettimeout us) ∨ t.respTimeoutUs = s.respTimeoutUs) ∧
    ((∃ station, i = .cfgSetstation station) ∨ t.station = s.station)

/-- 60_exceptions.md R405: a command that returns a code other than OK changes nothing but `result` and `rdata`, which becomes 0,
with the two exceptions the rule documents; no command returns BADCMD. In a good state: a remove command cannot then
return NOSPACE (43_payload_ops.md R252). -/
def Obligations.RefusedCommandsChangeNothing : Prop :=
  ∀ (i : Instr) (s t : State), s.Inv → i.isWire = false → exec i s = .next t → t.result ≠ .ok →
    t.rdata = 0 ∧ t.result ≠ .badCmd ∧
    (t = s.returning t.result 0 ∨
      (i.isCreate = true ∧ t.result = .unsupported ∧
        t = { s with txBuf := [], txVariant := .none, txLen := 0, txVq := 0, result := .unsupported, rdata := 0 }) ∨
      (∃ n, i.insertCount? = some n ∧ t.result = .noSpace ∧ n ≤ s.hdata.length ∧
        t = { s with hdata := s.hdata.drop n, result := .noSpace, rdata := 0 }))

/-- The invariant holds right after a reset of every instance the model admits, which is 00_scope.md R6's bound on CAP with a baud rate
and a station the setters would accept (log 10), and in the state the model starts from (log 3). -/
def Obligations.ResetMeetsTheInvariant : Prop :=
  (∀ p : Params, p.wf → (State.resetOf p).Inv) ∧ State.reset.Inv

/-- Every step keeps the invariant: canonical buffers inside CAP, the receiver position, a valid frame's CRC and view, the
envelope's lengths and padding, the gate flags and station of the role, the FIFO's depth, and the shape of the transmit
log. -/
def Obligations.EveryStepKeepsTheInvariant : Prop :=
  ∀ s t : State, s.Inv → step s = .next t → t.Inv

/-- From a good state every instruction completes, and a step stops only where the host port is used at an offset without a
register (log 7): no buffer access leaves its buffer (20_memory.md R78). -/
def Obligations.GoodStatesNeverStop : Prop :=
  ∀ s : State, s.Inv →
    (∀ i : Instr, ∃ t, exec i s = .next t) ∧
    ((∃ t, step s = .next t) ∨ (s.portMisused ∧ ∃ offset, step s = .fault (.noRegister offset)))

/-- 10_state.md R21, R22, 93_implementation_defined.md U11: bytes of `rx_buf` at and after `rx_len`, and of `tx_buf` while there is
no envelope, influence no step: two good states that differ only there step to states that differ only there. -/
def Obligations.StaleBytesAreUnobservable : Prop :=
  ∀ s t s' : State, s.Inv → t.Inv → SameButStale s t → step s = .next s' →
    ∃ t', step t = .next t' ∧ SameButStale s' t'

/-! ## The numbers of the codes -/

/-- `rx_state` (10_state.md R24). -/
def Sys2Proof.Machine.specRxState : RxState → Nat
  | .waitStation => 0
  | .waitFunctionCode => 1
  | .waitData => 2

/-- The variants (10_state.md R34). -/
def Sys2Proof.Machine.specVariant : Variant → Nat
  | .none => 0
  | .rqRead => 1
  | .rsBits => 2
  | .rsRegs => 3
  | .rwSingle => 4
  | .rqWbits => 5
  | .rqWregs => 6
  | .rsWmulti => 7
  | .diag => 8

/-- The decode statuses (10_state.md R36). -/
def Sys2Proof.Machine.specStatus : DecodeStatus → Nat
  | .ok => 0
  | .unsupported => 1
  | .short => 2
  | .excess => 3
  | .countMismatch => 4

/-- The failure kinds (10_state.md R41). -/
def Sys2Proof.Machine.specFailKind : FailKind → Nat
  | .none => 0
  | .timedout => 1
  | .verifyFailed => 2
  | .overflow => 3
  | .unsupportedFunctionCode => 4

/-- The result codes (60_exceptions.md R405). -/
def Sys2Proof.Machine.specResult : ResultCode → Nat
  | .ok => 0
  | .badVariant => 1
  | .range => 2
  | .noSpace => 3
  | .busy => 4
  | .badArg => 5
  | .unsupported => 6
  | .noFrame => 7
  | .badCmd => 8

/-- 10_state.md R24, R34, R36, R41, 60_exceptions.md R405: the numbers the host sees, in RESULT, FAIL_KIND, STATUS, RX_VIEW, TX_VIEW
and the fields 8 and 9 of PL.GETF, are those of the spec's tables. -/
def Obligations.CodesHaveTheNumbersOfTheSpec : Prop :=
  ∀ s : State, s.Inv →
    (registerValue .result s).toNat = specResult s.result ∧
    (registerValue .failKind s).toNat = specFailKind s.failKind ∧
    (registerValue .status s).toNat % 4 = specRxState s.rxState ∧
    (registerValue .txView s).toNat % 16 = specVariant s.txVariant ∧
    (s.rxValid = true →
      (registerValue .rxView s).toNat % 16 = specVariant s.rxView.variant ∧
      (registerValue .rxView s).toNat / 16 % 8 = specStatus s.rxView.status ∧
      exec (.plGetf .rx 8) s = .next (s.returning .ok (BitVec.ofNat 32 (specStatus s.rxView.status))) ∧
      exec (.plGetf .rx 9) s = .next (s.returning .ok (BitVec.ofNat 32 (specVariant s.rxView.variant)))) ∧
    (s.txVariant ≠ .none →
      exec (.plGetf .tx 8) s = .next (s.returning .ok 0) ∧
      exec (.plGetf .tx 9) s = .next (s.returning .ok (BitVec.ofNat 32 (specVariant s.txVariant))))
end

