-- ==== Sys2Proof/Laws/Buffers.lean ====
section
/-! SUPPORT. The laws of the buffers: what a read gives after each write, that every operation keeps the canonical form, and
that a canonical buffer is determined by its bytes. -/

namespace Sys2Proof.Machine

@[simp] theorem Buf.read_nil (a : Nat) : Buf.read [] a = 0 := rfl

@[simp] theorem Buf.read_cons (k : Nat) (c : Byte) (m : Buf) (a : Nat) :
    Buf.read ((k, c) :: m) a = if k = a then c else m.read a := rfl

theorem Buf.read_put (m : Buf) (a b : Nat) (v : Byte) :
    (m.put a v).read b = if b = a then v else m.read b := by
  induction m with
  | nil => simp [Buf.put, eq_comm]
  | cons c m ih =>
    obtain ⟨k, c⟩ := c
    unfold Buf.put
    split
    · simp [eq_comm]
    · split
      · subst_vars
        by_cases h : k = b
        · simp [h]
        · simp [h, Ne.symm h]
      · by_cases h : k = b
        · subst h; rw [Buf.read_cons, if_pos rfl, if_neg ‹¬k = a›, Buf.read_cons, if_pos rfl]
        · simp [h, ih]

theorem Buf.read_zeroFill (m : Buf) (a n b : Nat) :
    (m.zeroFill a n).read b = if a ≤ b ∧ b < a + n then 0 else m.read b := by
  induction m with
  | nil => simp [Buf.zeroFill]
  | cons c m ih =>
    obtain ⟨k, c⟩ := c
    simp only [Buf.zeroFill] at ih ⊢
    by_cases hk : k < a ∨ a + n ≤ k
    · rw [List.filter_cons_of_pos (by simpa using hk)]
      by_cases h : k = b
      · subst h; rw [Buf.read_cons, if_pos rfl, if_neg (by omega), Buf.read_cons, if_pos rfl]
      · rw [Buf.read_cons, if_neg h, ih, Buf.read_cons, if_neg h]
    · rw [List.filter_cons_of_neg (by simpa using hk), ih]
      by_cases h : k = b
      · subst h; rw [if_pos (by omega), if_pos (by omega)]
      · simp [h]

/-- A read after a write: the byte written at its offset, every other byte as before. -/
@[simp] theorem Buf.read_write (m : Buf) (a b : Nat) (v : Byte) :
    (m.write a v).read b = if b = a then v else m.read b := by
  unfold Buf.write
  split
  · subst_vars; rw [Buf.read_zeroFill]
    by_cases h : b = a
    · subst h; simp
    · rw [if_neg (by omega), if_neg h]
  · exact Buf.read_put ..

theorem Buf.read_writeAll (m : Buf) (a b : Nat) (vs : List Byte) :
    (m.writeAll a vs).read b = if a ≤ b ∧ b < a + vs.length then vs.getD (b - a) 0 else m.read b := by
  induction vs generalizing m a with
  | nil => simp [Buf.writeAll]
  | cons v vs ih =>
    simp only [Buf.writeAll, ih, Buf.read_write, List.length_cons]
    by_cases h : a + 1 ≤ b ∧ b < a + 1 + vs.length
    · rw [if_pos h, if_pos (by omega)]
      obtain ⟨k, hk⟩ : ∃ k, b - a = k + 1 := ⟨b - a - 1, by omega⟩
      rw [hk, List.getD_cons_succ]; congr 1; omega
    · rw [if_neg h]
      by_cases h' : b = a
      · subst h'; simp
      · rw [if_neg h', if_neg (by omega)]

@[simp] theorem Buf.read_write16 (m : Buf) (a b : Nat) (v : Half) :
    (m.write16 a v).read b = if b = a + 1 then lo v else if b = a then hi v else m.read b := by
  simp [Buf.write16]

@[simp] theorem Buf.length_slice (m : Buf) (a n : Nat) : (m.slice a n).length = n := by
  simp [Buf.slice]

@[simp] theorem Buf.getElem_slice (m : Buf) (a n i : Nat) (h : i < (m.slice a n).length) :
    (m.slice a n)[i] = m.read (a + i) := by
  simp [Buf.slice]

theorem Buf.getD_slice (m : Buf) (a n i : Nat) (h : i < n) : (m.slice a n).getD i 0 = m.read (a + i) := by
  rw [List.getD_eq_getElem _ _ (by simpa using h)]; simp

/-- Two buffers with the same bytes at `n` offsets from `a` have the same slice there. -/
theorem Buf.slice_congr {m m' : Buf} {a n : Nat} (h : ∀ b, a ≤ b → b < a + n → m.read b = m'.read b) :
    m.slice a n = m'.slice a n := by
  unfold Buf.slice
  exact List.map_congr_left fun i hi => h _ (by omega) (by have := List.mem_range.1 hi; omega)

theorem Buf.slice_add (m : Buf) (a n k : Nat) : m.slice a (n + k) = m.slice a n ++ m.slice (a + n) k := by
  simp [Buf.slice, List.range_add, Nat.add_assoc]

@[simp] theorem Buf.slice_zero (m : Buf) (a : Nat) : m.slice a 0 = [] := rfl

theorem Buf.slice_succ (m : Buf) (a n : Nat) : m.slice a (n + 1) = m.read a :: m.slice (a + 1) n := by
  rw [Nat.add_comm n 1, Buf.slice_add]; simp [Buf.slice]

theorem Buf.take_slice (m : Buf) (a n k : Nat) (h : k ≤ n) : (m.slice a n).take k = m.slice a k := by
  obtain ⟨d, rfl⟩ := Nat.le.dest h
  rw [Buf.slice_add, List.take_left' (by simp)]

theorem Buf.drop_slice (m : Buf) (a n k : Nat) (h : k ≤ n) : (m.slice a n).drop k = m.slice (a + k) (n - k) := by
  obtain ⟨d, rfl⟩ := Nat.le.dest h
  rw [Buf.slice_add, List.drop_left' (by simp)]; simp

/-- The bytes just written are the slice at the place they were written. -/
theorem Buf.slice_writeAll (m : Buf) (a : Nat) (vs : List Byte) : (m.writeAll a vs).slice a vs.length = vs := by
  apply List.ext_getElem (by simp)
  intro i h1 h2
  rw [Buf.getElem_slice, Buf.read_writeAll, if_pos (by omega)]
  simp [h2]

/-! ### The canonical form -/

theorem Buf.wf_nil (cap : Nat) : Buf.wf cap [] := by simp [Buf.wf]

theorem Buf.zeroFill_wf {cap : Nat} {m : Buf} (h : m.wf cap) (a n : Nat) : (m.zeroFill a n).wf cap :=
  ⟨h.1.filter _, fun c hc => h.2 c (List.mem_of_mem_filter hc)⟩

theorem Buf.mem_put {m : Buf} {a : Nat} {v : Byte} {c : Host.Cell} (h : c ∈ m.put a v) : c = (a, v) ∨ c ∈ m := by
  induction m with
  | nil => simpa [Buf.put] using h
  | cons d m ih =>
    obtain ⟨k, d⟩ := d
    unfold Buf.put at h
    split at h
    · simpa using h
    · split at h
      · rcases List.mem_cons.1 h with h | h
        · exact .inl h
        · exact .inr (List.mem_cons_of_mem _ h)
      · rcases List.mem_cons.1 h with h | h
        · exact .inr (h ▸ List.mem_cons_self)
        · exact (ih h).imp_right (List.mem_cons_of_mem _)

theorem Buf.put_wf {cap : Nat} {m : Buf} (h : m.wf cap) {a : Nat} {v : Byte} (ha : a < cap) (hv : v ≠ 0) :
    (m.put a v).wf cap := by
  refine ⟨?_, fun c hc => ?_⟩
  · obtain ⟨hp, -⟩ := h
    induction m with
    | nil => simp [Buf.put]
    | cons d m ih =>
      obtain ⟨k, d⟩ := d
      obtain ⟨hd, hm⟩ := List.pairwise_cons.1 hp
      unfold Buf.put
      split
      · refine List.pairwise_cons.2 ⟨fun c hc => ?_, hp⟩
        rcases List.mem_cons.1 hc with rfl | hc
        · assumption
        · exact Nat.lt_trans ‹_› (hd c hc)
      · split
        · subst_vars; exact List.pairwise_cons.2 ⟨hd, hm⟩
        · refine List.pairwise_cons.2 ⟨fun c hc => ?_, ih hm⟩
          rcases Buf.mem_put hc with rfl | hc
          · show k < a; omega
          · exact hd c hc
  · rcases Buf.mem_put hc with rfl | hc
    · exact ⟨ha, hv⟩
    · exact h.2 c hc

theorem Buf.write_wf {cap : Nat} {m : Buf} (h : m.wf cap) {a : Nat} (ha : a < cap) (v : Byte) : (m.write a v).wf cap := by
  unfold Buf.write
  split
  · exact Buf.zeroFill_wf h ..
  · exact Buf.put_wf h ha ‹_›

theorem Buf.writeAll_wf {cap : Nat} {m : Buf} (h : m.wf cap) {a : Nat} {vs : List Byte} (ha : a + vs.length ≤ cap) :
    (m.writeAll a vs).wf cap := by
  induction vs generalizing m a with
  | nil => exact h
  | cons v vs ih =>
    simp only [List.length_cons] at ha
    exact ih (Buf.write_wf h (by omega) v) (by omega)

theorem Buf.write16_wf {cap : Nat} {m : Buf} (h : m.wf cap) {a : Nat} (ha : a + 2 ≤ cap) (v : Half) :
    (m.write16 a v).wf cap :=
  Buf.write_wf (Buf.write_wf h (by omega) _) (by omega) _

/-- In a canonical buffer the bytes before the first listed offset read 0. -/
theorem Buf.read_eq_zero_of_lt {m : Buf} {b : Nat} (h : ∀ c ∈ m, b < c.1) : m.read b = 0 := by
  induction m with
  | nil => rfl
  | cons c m ih =>
    obtain ⟨k, c⟩ := c
    have hk : b < k := h _ List.mem_cons_self
    rw [Buf.read_cons, if_neg (by omega)]
    exact ih fun c hc => h c (List.mem_cons_of_mem _ hc)

/-- An offset outside a canonical buffer reads 0. -/
theorem Buf.read_eq_zero_of_le {cap : Nat} {m : Buf} (h : m.wf cap) {b : Nat} (hb : cap ≤ b) : m.read b = 0 := by
  obtain ⟨-, h⟩ := h
  induction m with
  | nil => rfl
  | cons c m ih =>
    obtain ⟨k, c⟩ := c
    have hk : k < cap := (h _ List.mem_cons_self).1
    rw [Buf.read_cons, if_neg (by omega)]
    exact ih fun c hc => h c (List.mem_cons_of_mem _ hc)

/-- Equal bytes, equal data: a canonical buffer is determined by what its offsets read. -/
theorem Buf.ext_of_wf {cap : Nat} {m m' : Buf} (h : m.wf cap) (h' : m'.wf cap) (hr : ∀ a, m.read a = m'.read a) : m = m' := by
  induction m generalizing m' with
  | nil =>
    cases m' with
    | nil => rfl
    | cons c m' =>
      obtain ⟨k, c⟩ := c
      have := hr k
      simp at this
      exact absurd this.symm (h'.2 (k, c) List.mem_cons_self).2
  | cons c m ih =>
    obtain ⟨k, c⟩ := c
    have hk : ∀ d ∈ m, k < d.1 := (List.pairwise_cons.1 h.1).1
    have hc : c ≠ 0 := (h.2 (k, c) List.mem_cons_self).2
    cases m' with
    | nil =>
      have := hr k
      simp at this
      exact absurd this hc
    | cons c' m' =>
      obtain ⟨k', c'⟩ := c'
      have hk' : ∀ d ∈ m', k' < d.1 := (List.pairwise_cons.1 h'.1).1
      have hc' : c' ≠ 0 := (h'.2 (k', c') List.mem_cons_self).2
      have hkk : k = k' := by
        rcases Nat.lt_trichotomy k k' with hlt | heq | hgt
        · have h1 := hr k
          rw [Buf.read_cons, if_pos rfl, Buf.read_cons, if_neg (by omega),
            Buf.read_eq_zero_of_lt fun d hd => Nat.lt_trans hlt (hk' d hd)] at h1
          exact absurd h1 hc
        · exact heq
        · have h1 := hr k'
          rw [Buf.read_cons, if_neg (by omega), Buf.read_cons, if_pos rfl,
            Buf.read_eq_zero_of_lt fun d hd => Nat.lt_trans hgt (hk d hd)] at h1
          exact absurd h1.symm hc'
      subst hkk
      have hcc : c = c' := by simpa using hr k
      subst hcc
      have hw : Buf.wf cap m := ⟨(List.pairwise_cons.1 h.1).2, fun d hd => h.2 d (List.mem_cons_of_mem _ hd)⟩
      have hw' : Buf.wf cap m' := ⟨(List.pairwise_cons.1 h'.1).2, fun d hd => h'.2 d (List.mem_cons_of_mem _ hd)⟩
      congr 1
      refine ih hw hw' fun a => ?_
      by_cases ha : k = a
      · subst ha
        rw [Buf.read_eq_zero_of_lt hk, Buf.read_eq_zero_of_lt hk']
      · simpa [ha] using hr a

end Sys2Proof.Machine
end

