-- ==== Sys2Proof/Laws/Crc.lean ====
section
/-! SUPPORT. The laws of the CRC arithmetic: it is linear over exclusive or, one-to-one in the accumulator and in the byte, and
zero on bytes followed by their own CRC. -/

namespace Sys2Proof

theorem crcShift_xor (c d : Half) : crcShift (c ^^^ d) = crcShift c ^^^ crcShift d := by
  unfold crcShift
  rw [BitVec.getLsbD_xor, BitVec.ushiftRight_xor_distrib]
  cases c.getLsbD 0 <;> cases d.getLsbD 0 <;>
    simp only [Bool.xor_false, Bool.xor_true, Bool.not_true, Bool.not_false, Bool.false_eq_true, if_true, if_false]
  · ac_rfl
  · ac_rfl
  · rw [show c >>> 1 ^^^ 0xA001#16 ^^^ (d >>> 1 ^^^ 0xA001#16) = c >>> 1 ^^^ d >>> 1 ^^^ (0xA001#16 ^^^ 0xA001#16) by ac_rfl]
    simp

theorem crcShifts_xor (n : Nat) (c d : Half) : crcShifts n (c ^^^ d) = crcShifts n c ^^^ crcShifts n d := by
  induction n generalizing c d with
  | zero => rfl
  | succ n ih => simp [crcShifts, crcShift_xor, ih]

/-- Folding a byte is linear. -/
theorem crcStep_xor (c d : Half) (a b : Byte) : crcStep (c ^^^ d) (a ^^^ b) = crcStep c a ^^^ crcStep d b := by
  unfold crcStep
  rw [← crcShifts_xor, BitVec.setWidth_xor]
  congr 1
  ac_rfl

theorem crcShift_zero : crcShift 0 = 0 := by decide

theorem crcShift_eq_zero {c : Half} (h : crcShift c = 0) : c = 0 := by
  have h15 := congrArg (fun v : Half => v.getLsbD 15) h
  unfold crcShift at h h15
  split at h
  · rename_i h0
    rw [if_pos h0] at h15
    simp at h15
  · rename_i h0
    ext i hi
    rcases i with _ | i
    · simpa using h0
    · have := congrArg (fun v : Half => v.getLsbD i) h
      rw [← BitVec.getLsbD_eq_getElem]
      simpa [Nat.add_comm] using this

theorem crcShifts_eq_zero (n : Nat) {c : Half} (h : crcShifts n c = 0) : c = 0 := by
  induction n generalizing c with
  | zero => exact h
  | succ n ih => exact crcShift_eq_zero (ih h)

/-- Only the zero byte leaves the zero accumulator zero, and no other accumulator becomes zero on a zero byte. -/
theorem crcStep_eq_zero {c : Half} {b : Byte} (h : crcStep c b = 0) : c = b.setWidth 16 := by
  have := crcShifts_eq_zero 8 h
  simpa using this

theorem crcStep_injective (b : Byte) : Function.Injective fun c : Half => crcStep c b := by
  intro c d h
  have hx : crcStep (c ^^^ d) (b ^^^ b) = 0 := by rw [crcStep_xor]; simp_all
  simpa using crcStep_eq_zero hx

theorem crcStep_byte_injective (c : Half) {a b : Byte} (h : crcStep c a = crcStep c b) : a = b := by
  have hx : crcStep (c ^^^ c) (a ^^^ b) = 0 := by rw [crcStep_xor, h]; simp
  have h0 := crcStep_eq_zero hx
  have h1 : a ^^^ b = 0 := by
    have := congrArg (BitVec.setWidth 8) h0
    simpa using this.symm
  simpa using h1

/-- A change of the accumulator is carried through the bytes that follow by zero bytes alone. -/
theorem foldl_crcStep_xor (bytes : List Byte) (c d : Half) :
    bytes.foldl crcStep (c ^^^ d) = bytes.foldl crcStep c ^^^ (fun x : Half => crcStep x 0)^[bytes.length] d := by
  induction bytes generalizing c d with
  | nil => rfl
  | cons b bytes ih =>
    have hb : crcStep (c ^^^ d) b = crcStep c b ^^^ crcStep d 0 := by
      rw [← crcStep_xor]; simp
    simp only [List.foldl_cons, hb, ih, List.length_cons, Function.iterate_succ, Function.comp_apply]

theorem iterate_crcStep_ne_zero (n : Nat) {d : Half} (h : d ≠ 0) : (fun x : Half => crcStep x 0)^[n] d ≠ 0 := by
  induction n generalizing d with
  | zero => exact h
  | succ n ih => exact ih fun h0 => h (by simpa using crcStep_eq_zero h0)

/-- Changing one byte changes the CRC. -/
theorem crc16_ne_of_byte_ne (pre post : List Byte) {a b : Byte} (h : a ≠ b) :
    crc16 (pre ++ a :: post) ≠ crc16 (pre ++ b :: post) := by
  intro he
  simp only [crc16, List.foldl_append, List.foldl_cons] at he
  set c := List.foldl crcStep 0xFFFF#16 pre
  have hd : crcStep c a = crcStep c b ^^^ (crcStep c b ^^^ crcStep c a) := by
    rw [← BitVec.xor_assoc, BitVec.xor_self, BitVec.zero_xor]
  rw [hd, foldl_crcStep_xor] at he
  have h0 : (fun x : Half => crcStep x 0)^[post.length] (crcStep c b ^^^ crcStep c a) = 0 := by
    simpa using he
  exact iterate_crcStep_ne_zero _ (fun hz => h (crcStep_byte_injective c (BitVec.xor_eq_zero_iff.1 hz).symm)) h0

theorem crcShifts_of_low_zero (n : Nat) {c : Half} (h : ∀ i, i < n → c.getLsbD i = false) : crcShifts n c = c >>> n := by
  induction n generalizing c with
  | zero => simp [crcShifts]
  | succ n ih =>
    have h0 : crcShift c = c >>> 1 := by rw [crcShift, if_neg (by rw [h 0 (by omega)]; simp)]
    rw [crcShifts, h0, ih fun i hi => by simpa [Nat.add_comm] using h (i + 1) (by omega), ← BitVec.shiftRight_add, Nat.add_comm]

/-- Folding an accumulator's own low byte shifts it out. -/
theorem crcStep_lo (c : Half) : crcStep c (lo c) = (hi c).setWidth 16 := by
  have hlow : ∀ i, i < 8 → (c ^^^ (lo c).setWidth 16).getLsbD i = false := by
    intro i hi
    simp [lo, hi, show i < 16 by omega]
  rw [crcStep, crcShifts_of_low_zero 8 hlow]
  apply BitVec.eq_of_getLsbD_eq
  intro i h
  simp only [lo, hi, BitVec.getLsbD_setWidth, BitVec.getLsbD_ushiftRight, BitVec.getLsbD_xor]
  by_cases h8 : i < 8
  · simp [h8, show 8 + i < 16 by omega]; omega
  · simp [h8, show 16 ≤ 8 + i by omega]

/-- The CRC of bytes followed by their own CRC, low byte first, is 0. -/
theorem foldl_own_crc (c : Half) : [lo c, hi c].foldl crcStep c = 0 := by
  have h0 : ∀ b : Byte, crcStep (b.setWidth 16) b = 0 := by
    intro b
    rw [crcStep, BitVec.xor_self, crcShifts_of_low_zero 8 (by simp)]
    rfl
  simp only [List.foldl_cons, List.foldl_nil, crcStep_lo, h0]

@[simp] theorem length_crcBytes (bytes : List Byte) : (crcBytes bytes).length = 2 := rfl

@[simp] theorem ofHiLo_hi_lo (v : Half) : ofHiLo (hi v) (lo v) = v := by
  apply BitVec.eq_of_getLsbD_eq
  intro i h
  simp only [ofHiLo, hi, lo, BitVec.getLsbD_append, BitVec.getLsbD_setWidth, BitVec.getLsbD_ushiftRight]
  by_cases h8 : i < 8
  · simp [h8]
  · simp [h8, show i - 8 < 8 by omega, show 8 + (i - 8) = i by omega]

@[simp] theorem hi_ofHiLo (h l : Byte) : hi (ofHiLo h l) = h := by
  apply BitVec.eq_of_getLsbD_eq
  intro i hi'
  simp only [ofHiLo, hi, BitVec.getLsbD_append, BitVec.getLsbD_setWidth, BitVec.getLsbD_ushiftRight]
  simp [hi']

@[simp] theorem lo_ofHiLo (h l : Byte) : lo (ofHiLo h l) = l := by
  apply BitVec.eq_of_getLsbD_eq
  intro i hi'
  simp only [ofHiLo, lo, BitVec.getLsbD_append, BitVec.getLsbD_setWidth]
  simp [hi']

theorem toNat_ofHiLo (h l : Byte) : (ofHiLo h l).toNat = 256 * h.toNat + l.toNat := by
  simp only [ofHiLo, BitVec.toNat_append]
  rw [← Nat.shiftLeft_add_eq_or_of_lt l.isLt, Nat.shiftLeft_eq, Nat.mul_comm]

theorem ofHiLo_inj {h l h' l' : Byte} (e : ofHiLo h l = ofHiLo h' l') : h = h' ∧ l = l' :=
  ⟨by simpa using congrArg hi e, by simpa using congrArg lo e⟩

theorem lo_eq_extract (v : Half) : lo v = v.extractLsb' 0 8 := by
  ext i h; simp [lo]

theorem hi_eq_extract (v : Half) : hi v = v.extractLsb' 8 8 := by
  ext i h; simp [hi]

end Sys2Proof
end

