-- ==== Sys2Proof/Laws/Ops.lean ====
section
/-! SUPPORT. What the shared ways of ending and guarding a command can do: one lemma for each, which later proofs cite
instead of unfolding it. -/

namespace Sys2Proof.Machine

@[simp] theorem done_eq (s : State) (code : ResultCode) (value : Word) :
    done s code value = .next { s with result := code, rdata := value } := rfl

@[simp] theorem chain_next (s : State) (k : State → Outcome) : chain (.next s) k = k s := rfl

theorem chain_eq_next {o : Outcome} {k : State → Outcome} {t : State} (h : chain o k = .next t) :
    ∃ s, o = .next s ∧ k s = .next t := by
  cases o with
  | next s => exact ⟨s, rfl, h⟩
  | fault f => cases h
  | refused r => cases h

theorem within_of_le {n limit : Nat} (h : n ≤ limit) (k : Outcome) : within n limit k = k := if_pos h

theorem within_eq_next {n limit : Nat} {k : Outcome} {t : State} (h : within n limit k = .next t) : n ≤ limit ∧ k = .next t := by
  unfold within at h
  split at h
  · exact ⟨‹_›, h⟩
  · cases h

theorem withEnvelope_none {s : State} (h : s.txVariant = .none) (k : Outcome) : withEnvelope s k = done s .noFrame 0 := if_pos h

theorem withEnvelope_some {s : State} (h : s.txVariant ≠ .none) (hl : s.txLen + 2 ≤ s.params.cap) (k : Outcome) :
    withEnvelope s k = k := by
  rw [withEnvelope, if_neg h, within_of_le hl]

/-- A command on the envelope that goes on either found none and returned NOFRAME, or ran with the envelope inside CAP. -/
theorem withEnvelope_eq_next {s t : State} {k : Outcome} (h : withEnvelope s k = .next t) :
    (s.txVariant = .none ∧ t = { s with result := .noFrame, rdata := 0 }) ∨
    (s.txVariant ≠ .none ∧ s.txLen + 2 ≤ s.params.cap ∧ k = .next t) := by
  unfold withEnvelope at h
  split at h
  · exact .inl ⟨‹_›, by simpa using h.symm⟩
  · exact .inr ⟨‹_›, within_eq_next h⟩

theorem select_rx (s : State) : select .rx s = if s.rxValid then
    some { buf := s.rxBuf, variant := s.rxView.variant, status := s.rxView.status, vq := s.rxView.vq.toNat, len := s.rxLen - 2 }
    else none := rfl

theorem select_tx (s : State) : select .tx s = if s.txVariant = .none then none
    else some { buf := s.txBuf, variant := s.txVariant, status := .ok, vq := s.txVq.toNat, len := s.txLen } := rfl

theorem withSelected_none {sel : Sel} {s : State} (h : select sel s = none) (k : Selected → Outcome) :
    withSelected sel s k = done s .noFrame 0 := by
  simp [withSelected, h]

theorem withSelected_some {sel : Sel} {s : State} {f : Selected} (h : select sel s = some f) (hl : f.len + 2 ≤ s.params.cap)
    (k : Selected → Outcome) : withSelected sel s k = k f := by
  simp [withSelected, h, within_of_le hl]

/-- A get command that goes on either found no frame and returned NOFRAME, or ran on the selected one. -/
theorem withSelected_eq_next {sel : Sel} {s t : State} {k : Selected → Outcome} (h : withSelected sel s k = .next t) :
    (select sel s = none ∧ t = { s with result := .noFrame, rdata := 0 }) ∨
    ∃ f, select sel s = some f ∧ f.len + 2 ≤ s.params.cap ∧ k f = .next t := by
  unfold withSelected at h
  split at h
  · exact .inl ⟨‹_›, by simpa using h.symm⟩
  · exact .inr ⟨_, ‹_›, within_eq_next h⟩

/-- A command on the elements that goes on found no envelope, found the wrong class, or ran on a region inside the PDU. -/
theorem withElements_eq_next {cls : Variant → Bool} {s t : State} {k : Outcome} (h : withElements cls s k = .next t) :
    (s.txVariant = .none ∧ t = { s with result := .noFrame, rdata := 0 }) ∨
    (s.txVariant ≠ .none ∧ cls s.txVariant = false ∧ t = { s with result := .badVariant, rdata := 0 }) ∨
    (s.txVariant ≠ .none ∧ cls s.txVariant = true ∧ s.txLen + 2 ≤ s.params.cap ∧
      valOff s.txVariant + storageBytes s.txVariant s.txVq.toNat ≤ s.txLen ∧ k = .next t) := by
  rcases withEnvelope_eq_next h with h | ⟨hv, hl, h⟩
  · exact .inl h
  · split at h
    · obtain ⟨hr, h⟩ := within_eq_next h
      exact .inr (.inr ⟨hv, ‹_›, hl, hr, h⟩)
    · exact .inr (.inl ⟨hv, Bool.eq_false_iff.2 ‹_›, by simpa using h.symm⟩)

theorem withElements_some {cls : Variant → Bool} {s : State} (hv : s.txVariant ≠ .none) (hc : cls s.txVariant = true)
    (hl : s.txLen + 2 ≤ s.params.cap) (hr : valOff s.txVariant + storageBytes s.txVariant s.txVq.toNat ≤ s.txLen) (k : Outcome) :
    withElements cls s k = k := by
  rw [withElements, withEnvelope_some hv hl, if_pos hc, within_of_le hr]

end Sys2Proof.Machine
end

