-- ==== Sys2Proof/Laws/Checksum.lean ====
section
/-! SUPPORT. The laws of the frame wrapper: the two bytes applying a CRC writes, what verifying compares, and that the one makes the
other succeed. -/

namespace Sys2Proof.Machine

theorem applyCrc_read (buf : Buf) (len a : Nat) : (applyCrc buf len).read a =
    if a = len then lo (crc16 (buf.slice 0 len))
    else if a = len + 1 then hi (crc16 (buf.slice 0 len))
    else buf.read a := by
  unfold applyCrc
  rw [Buf.read_writeAll]
  by_cases h1 : a = len
  · subst h1; simp [crcBytes]
  · by_cases h2 : a = len + 1
    · subst h2; simp [crcBytes]
    · rw [if_neg (by simp; omega), if_neg h1, if_neg h2]

theorem applyCrc_slice (buf : Buf) (len : Nat) : (applyCrc buf len).slice 0 len = buf.slice 0 len :=
  Buf.slice_congr fun b _ hb => by rw [applyCrc_read, if_neg (by omega), if_neg (by omega)]

theorem applyCrc_wf {cap : Nat} {buf : Buf} (h : buf.wf cap) {len : Nat} (hl : len + 2 ≤ cap) : (applyCrc buf len).wf cap :=
  Buf.writeAll_wf h (by simpa using hl)

theorem crcMatches_iff (buf : Buf) (len : Nat) : crcMatches buf len = true ↔
    buf.read len = lo (crc16 (buf.slice 0 len)) ∧ buf.read (len + 1) = hi (crc16 (buf.slice 0 len)) := by
  simp [crcMatches, crcBytes, Buf.slice_succ]

/-- A frame with its CRC applied verifies. -/
theorem crcMatches_applyCrc (buf : Buf) (len : Nat) : crcMatches (applyCrc buf len) len = true := by
  rw [crcMatches_iff, applyCrc_slice, applyCrc_read, applyCrc_read]
  simp

/-- Verifying depends only on the bytes up to the CRC. -/
theorem crcMatches_congr {m m' : Buf} {len : Nat} (h : ∀ a, a < len + 2 → m.read a = m'.read a) :
    crcMatches m len = crcMatches m' len := by
  unfold crcMatches
  rw [Buf.slice_congr fun b h1 h2 => h b (by omega), Buf.slice_congr (m := m) (m' := m') (n := len) fun b h1 h2 => h b (by omega)]

/-- ENV.VERIFYCRC TX on an envelope inside CAP. -/
theorem execEnvVerifycrc_tx {s : State} (hv : s.txVariant ≠ .none) (hl : s.txLen + 2 ≤ s.params.cap) :
    execEnvVerifycrc .tx s =
      .next { s with result := .ok, rdata := if crcMatches s.txBuf s.txLen then 1 else 0 } :=
  withEnvelope_some hv hl _

end Sys2Proof.Machine
end

