-- ==== Sys2Proof/Laws/Elements.lean ====
section
/-! SUPPORT. The laws of the values region: how long its encoding is, that its elements are read back as they were written,
and that its padding is 0. -/

namespace Sys2Proof.Machine

/-! ### Classes and sizes -/

theorem isVariable_iff (v : Variant) : isVariable v = true ↔ isBits v = true ∨ isRegs v = true := by
  cases v <;> decide

theorem isRegs_of_not_isBits {v : Variant} (h : isVariable v = true) (hb : isBits v = false) : isRegs v = true := by
  revert h hb; cases v <;> decide

theorem isBits_eq_false_of_isRegs {v : Variant} (h : isRegs v = true) : isBits v = false := by
  revert h; cases v <;> decide

theorem valOff_of_isVariable {v : Variant} (h : isVariable v = true) : valOff v = 3 ∨ valOff v = 7 := by
  revert h; cases v <;> decide

theorem valOff_of_isWriteMultiple {v : Variant} (h : isWriteMultiple v = true) : valOff v = 7 := by
  revert h; cases v <;> decide

theorem isVariable_of_isWriteMultiple {v : Variant} (h : isWriteMultiple v = true) : isVariable v = true := by
  revert h; cases v <;> decide

theorem ne_none_of_isVariable {v : Variant} (h : isVariable v = true) : v ≠ .none := by
  revert h; cases v <;> decide

theorem storageBytes_mono (v : Variant) {q q' : Nat} (h : q ≤ q') : storageBytes v q ≤ storageBytes v q' := by
  unfold storageBytes cdiv8; split <;> omega

@[simp] theorem length_packBits (bits : List Bool) : (packBits bits).length = cdiv8 bits.length := by simp [packBits]

@[simp] theorem length_packRegs (regs : List Half) : (packRegs regs).length = 2 * regs.length := by
  induction regs with
  | nil => rfl
  | cons r regs ih => simp only [packRegs, List.flatMap_cons] at ih ⊢; simp [ih]; omega

@[simp] theorem length_packElems (v : Variant) (es : List Half) : (packElems v es).length = storageBytes v es.length := by
  unfold packElems storageBytes; split <;> simp

@[simp] theorem length_elems (m : Buf) (v : Variant) (q : Nat) : (elems m v q).length = q := by simp [elems]

@[simp] theorem elems_zero (m : Buf) (v : Variant) : elems m v 0 = [] := rfl

/-! ### Bits and bytes -/

theorem getLsbD_byteOfBits (f : Nat → Bool) (j : Nat) (h : j < 8) : (byteOfBits f).getLsbD j = f j := by
  unfold byteOfBits
  simp only [BitVec.getLsbD_append, BitVec.getLsbD_ofBool]
  interval_cases j <;> simp

theorem bitOf_byteOfBits (f : Nat → Bool) (i : Nat) : bitOf (byteOfBits f) i = f (i % 8) :=
  getLsbD_byteOfBits f _ (Nat.mod_lt _ (by decide))

theorem getLsbD_setBit (b : Byte) (i : Nat) (v : Bool) (j : Nat) (h : j < 8) :
    (setBit b i v).getLsbD j = if j = i % 8 then v else b.getLsbD j := by
  have hm : ∀ k : Nat, k < 8 → (1#8 <<< k).getLsbD j = decide (j = k) := by
    intro k hk
    revert h; interval_cases k <;> intro h <;> interval_cases j <;> rfl
  unfold setBit
  have hk := hm (i % 8) (Nat.mod_lt _ (by decide))
  cases v
  · simp only [Bool.false_eq_true, if_false, BitVec.getLsbD_and, BitVec.getLsbD_not, hk]
    by_cases e : j = i % 8 <;> simp [e, h]
  · simp only [if_true, BitVec.getLsbD_or, hk]
    by_cases e : j = i % 8 <;> simp [e]

/-- Element `i` of packed bits. -/
theorem bitOf_packBits (bits : List Bool) (i : Nat) (h : i / 8 < cdiv8 bits.length) :
    bitOf ((packBits bits).getD (i / 8) 0) i = bits.getD i false := by
  rw [List.getD_eq_getElem _ _ (by simpa using h)]
  simp only [packBits, List.getElem_map, List.getElem_range, bitOf_byteOfBits]
  congr 1; omega

theorem packRegs_getD (regs : List Half) (i : Nat) (h : i < regs.length) :
    (packRegs regs).getD (2 * i) 0 = hi (regs.getD i 0) ∧ (packRegs regs).getD (2 * i + 1) 0 = lo (regs.getD i 0) := by
  induction regs generalizing i with
  | nil => simp at h
  | cons r regs ih =>
    cases i with
    | zero => simp [packRegs]
    | succ i =>
      have := ih i (by simpa using h)
      simp only [packRegs] at this
      simpa [packRegs, Nat.mul_add] using this

/-! ### Reading elements back -/

/-- Elements depend only on the bytes of the region. -/
theorem elems_congr {m m' : Buf} {v : Variant} {q : Nat}
    (h : ∀ a, valOff v ≤ a → a < valOff v + storageBytes v q → m.read a = m'.read a) : elems m v q = elems m' v q := by
  unfold elems
  refine List.map_congr_left fun i hi => ?_
  have hq := List.mem_range.1 hi
  unfold elemAt
  unfold storageBytes cdiv8 at h
  split
  · rename_i hb
    simp only [hb, if_true] at h
    rw [h _ (by omega) (by omega)]
  · rename_i hb
    simp only [hb] at h
    simp only [Buf.read16, h (valOff v + 2 * i) (by omega) (by simp; omega), h (valOff v + 2 * i + 1) (by omega) (by simp; omega)]

/-- The elements of the bit class are 0 or 1. -/
theorem elemAt_isBits {m : Buf} {v : Variant} {i : Nat} (h : isBits v = true) :
    elemAt m v i = 0#16 ∨ elemAt m v i = 1#16 := by
  simp only [elemAt, h, if_true]; split <;> simp

/-- A list of elements of the class: for the bit class 0 or 1. -/
def ElementList (v : Variant) (es : List Half) : Prop := isBits v = true → ∀ e ∈ es, e = 0#16 ∨ e = 1#16

theorem elementList_elems (m : Buf) (v : Variant) (q : Nat) : ElementList v (elems m v q) := by
  intro h e he
  simp only [elems, List.mem_map] at he
  obtain ⟨i, -, rfl⟩ := he
  exact elemAt_isBits h

/-- The wire encoding of an element list, read back from where it was written, is the list. -/
theorem elems_writeAll {m : Buf} {v : Variant} {es : List Half} (he : ElementList v es) :
    elems (m.writeAll (valOff v) (packElems v es)) v es.length = es := by
  apply List.ext_getElem (by simp)
  intro i h1 h2
  simp only [elems, List.getElem_map, List.getElem_range]
  have hlen := length_packElems v es
  unfold elemAt
  by_cases hb : isBits v = true
  · rw [if_pos hb]
    have hs : storageBytes v es.length = (es.length + 7) / 8 := by simp [storageBytes, hb, cdiv8]
    have hr : (m.writeAll (valOff v) (packElems v es)).read (valOff v + i / 8) = (packElems v es).getD (i / 8) 0 := by
      rw [Buf.read_writeAll, if_pos ⟨by omega, by omega⟩, Nat.add_sub_cancel_left]
    rw [hr]
    simp only [packElems, hb, if_true]
    rw [bitOf_packBits _ _ (by simp [cdiv8]; omega), List.getD_eq_getElem _ _ (by simpa using h2), List.getElem_map]
    rcases he hb es[i] (List.getElem_mem h2) with h | h <;> rw [h] <;> rfl
  · rw [if_neg hb]
    have hs : storageBytes v es.length = 2 * es.length := by simp [storageBytes, hb]
    simp only [Buf.read16]
    rw [Buf.read_writeAll, if_pos ⟨by omega, by omega⟩, Buf.read_writeAll, if_pos ⟨by omega, by omega⟩, Nat.add_sub_cancel_left,
      show valOff v + 2 * i + 1 - valOff v = 2 * i + 1 by omega]
    simp only [packElems, hb]
    have := packRegs_getD es i h2
    simp only [Bool.false_eq_true, if_false, this.1, this.2, ofHiLo_hi_lo]
    rw [List.getD_eq_getElem _ _ h2]

/-- The padding bits of written bits are 0. -/
theorem padding_writeAll {m : Buf} {v : Variant} {es : List Half} (hb : isBits v = true) {i : Nat} (h : es.length ≤ i)
    (hi : i < 8 * storageBytes v es.length) :
    bitOf ((m.writeAll (valOff v) (packElems v es)).read (valOff v + i / 8)) i = false := by
  have hs : storageBytes v es.length = (es.length + 7) / 8 := by simp [storageBytes, hb, cdiv8]
  have hlen := length_packElems v es
  rw [Buf.read_writeAll, if_pos ⟨by omega, by omega⟩, Nat.add_sub_cancel_left]
  simp only [packElems, hb, if_true]
  rw [bitOf_packBits _ _ (by simp [cdiv8]; omega), List.getD_eq_default _ _ (by simpa using h)]

/-- Elements whose encoding lies at the values offset are read back. -/
theorem elems_of_slice {m : Buf} {v : Variant} {es : List Half} (he : ElementList v es)
    (h : m.slice (valOff v) (storageBytes v es.length) = packElems v es) : elems m v es.length = es := by
  refine (elems_congr fun a h1 h2 => ?_).trans (elems_writeAll (m := m) he)
  rw [Buf.read_writeAll, if_pos ⟨h1, by rw [length_packElems]; exact h2⟩, ← h, Buf.getD_slice _ _ _ _ (by omega)]
  congr 1; omega

/-- The bit elements of a list of bits. -/
def bitElems (bits : List Bool) : List Half := bits.map fun b => if b then 1#16 else 0#16

@[simp] theorem length_bitElems (bits : List Bool) : (bitElems bits).length = bits.length := by simp [bitElems]

theorem elementList_bitElems (v : Variant) (bits : List Bool) : ElementList v (bitElems bits) := by
  intro _ e he
  simp only [bitElems, List.mem_map] at he
  obtain ⟨b, -, rfl⟩ := he
  cases b <;> simp

theorem packElems_bitElems {v : Variant} (hb : isBits v = true) (bits : List Bool) :
    packElems v (bitElems bits) = packBits bits := by
  simp only [packElems, hb, if_true, bitElems, List.map_map]
  congr 1
  refine (List.map_congr_left fun b _ => ?_).trans (List.map_id _)
  cases b <;> rfl

end Sys2Proof.Machine
end

