-- ==== Sys2Proof/Laws/Codec.lean ====
section
/-! SUPPORT. The laws of `PDU.DECODE`: the variant of a view, that a known form is never UNSUPPORTED, and that the values region a view
describes lies inside the payload. -/

namespace Sys2Proof.Machine

@[simp] theorem formView_variant (f : WireForm) (p : List Byte) : (formView f p).variant = f.variant := by
  cases f <;> simp only [formView] <;> first
    | rfl
    | (unfold viewRsBits; split <;> rfl)
    | (unfold viewRsRegs; split <;> rfl)
    | (unfold viewRqWbits; split <;> rfl)
    | (unfold viewRqWregs; split <;> rfl)

theorem lengthStatus_ne_unsupported (n want : Nat) : lengthStatus n want ≠ .unsupported := by
  unfold lengthStatus; split
  · simp
  · split <;> simp

theorem countedStatus_ne_unsupported (avail bc : Nat) (mismatch : Bool) : countedStatus avail bc mismatch ≠ .unsupported := by
  unfold countedStatus; split
  · simp
  · split
    · simp
    · split <;> simp

theorem formView_status (f : WireForm) (p : List Byte) : (formView f p).status ≠ .unsupported := by
  cases f <;> simp only [formView] <;> first
    | exact lengthStatus_ne_unsupported _ _
    | (unfold viewRsBits; split <;> [simp [viewShort]; exact countedStatus_ne_unsupported _ _ _])
    | (unfold viewRsRegs; split <;> [simp [viewShort]; exact countedStatus_ne_unsupported _ _ _])
    | (unfold viewRqWbits; split <;> first | exact countedStatus_ne_unsupported _ _ _ | simp [viewShort])
    | (unfold viewRqWregs; split <;> first | exact countedStatus_ne_unsupported _ _ _ | simp [viewShort])

theorem pduDecode_some {fc : Byte} {isResponse : Bool} {f : WireForm} (h : wireFormOf fc isResponse = some f) (p : List Byte) :
    pduDecode fc isResponse p = formView f p := by
  simp [pduDecode, h]

theorem pduDecode_none {fc : Byte} {isResponse : Bool} (h : wireFormOf fc isResponse = none) (p : List Byte) :
    pduDecode fc isResponse p = { variant := .none, status := .unsupported, bc := 0, vq := 0 } := by
  simp [pduDecode, h]

theorem pduDecode_unsupported_iff (fc : Byte) (isResponse : Bool) (p : List Byte) :
    (pduDecode fc isResponse p).status = .unsupported ↔ wireFormOf fc isResponse = none := by
  cases h : wireFormOf fc isResponse with
  | none => simp [pduDecode_none h]
  | some f => simp [pduDecode_some h, formView_status]

theorem pduDecode_variant (fc : Byte) (isResponse : Bool) (p : List Byte) :
    (pduDecode fc isResponse p).variant = variantOf fc isResponse := by
  unfold variantOf
  cases h : wireFormOf fc isResponse with
  | none => simp [pduDecode_none h]
  | some f => simp [pduDecode_some h]

theorem toNat_ofNat_16 {n : Nat} (h : n < 65536) : (BitVec.ofNat 16 n).toNat = n := by
  rw [BitVec.toNat_ofNat]; exact Nat.mod_eq_of_lt h

theorem toNat_ofNat_8 {n : Nat} (h : n < 256) : (BitVec.ofNat 8 n).toNat = n := by
  rw [BitVec.toNat_ofNat]; exact Nat.mod_eq_of_lt h

/-- The values region of a view lies inside the payload (41_pdu_decode.md R191). -/
theorem formView_region (f : WireForm) (p : List Byte) :
    (formView f p).vq.toNat = 0 ∨
    (isVariable f.variant = true ∧ valOff f.variant - 2 + storageBytes f.variant (formView f p).vq.toNat ≤ p.length) := by
  have hbits : ∀ p, (viewRsBits p).vq.toNat = 0 ∨ 1 + cdiv8 (viewRsBits p).vq.toNat ≤ p.length := by
    intro p
    unfold viewRsBits
    split
    · exact .inl rfl
    · rename_i bc values
      right
      have := bc.isLt
      dsimp only
      rw [toNat_ofNat_16 (by omega), List.length_cons]
      unfold cdiv8; omega
  have hregs : ∀ p, (viewRsRegs p).vq.toNat = 0 ∨ 1 + 2 * (viewRsRegs p).vq.toNat ≤ p.length := by
    intro p
    unfold viewRsRegs
    split
    · exact .inl rfl
    · rename_i bc values
      right
      have := bc.isLt
      dsimp only
      rw [toNat_ofNat_16 (by omega), List.length_cons]
      omega
  have hwbits : ∀ p, (viewRqWbits p).vq.toNat = 0 ∨ 5 + cdiv8 (viewRqWbits p).vq.toNat ≤ p.length := by
    intro p
    unfold viewRqWbits
    split
    · rename_i q1 q0 bc values
      right
      have := bc.isLt
      dsimp only
      rw [toNat_ofNat_16 (by omega)]
      simp only [List.length_cons]
      unfold cdiv8; omega
    all_goals exact .inl rfl
  have hwregs : ∀ p, (viewRqWregs p).vq.toNat = 0 ∨ 5 + 2 * (viewRqWregs p).vq.toNat ≤ p.length := by
    intro p
    unfold viewRqWregs
    split
    · rename_i q1 q0 bc values
      right
      have := bc.isLt
      dsimp only
      rw [toNat_ofNat_16 (by omega)]
      simp only [List.length_cons]
      omega
    all_goals exact .inl rfl
  cases f <;> first
    | exact .inl rfl
    | exact (hbits p).imp_right fun h => ⟨rfl, h⟩
    | exact (hregs p).imp_right fun h => ⟨rfl, h⟩
    | exact (hwbits p).imp_right fun h => ⟨rfl, h⟩
    | exact (hwregs p).imp_right fun h => ⟨rfl, h⟩

end Sys2Proof.Machine
end

