-- ==== Sys2Proof/Laws/Decode.lean ====
section
/-! SUPPORT. The laws of the two encodings: codes and forms name each other, and a frame's bytes decode to the frame. -/

namespace Sys2Proof

theorem BaseFc.ofByte_code (b : BaseFc) : BaseFc.ofByte b.code = some b := by cases b <;> decide

theorem BaseFc.code_of_ofByte {fc : Byte} {b : BaseFc} (h : BaseFc.ofByte fc = some b) : b.code = fc := by
  have := List.find?_some h
  simpa using this

theorem BaseFc.ofByte_diag (b : BaseFc) : BaseFc.ofByte (b.code ||| 0x80#8) = none := by cases b <;> decide

theorem BaseFc.ofDiagByte_diag (b : BaseFc) : BaseFc.ofDiagByte (b.code ||| 0x80#8) = some b := by cases b <;> decide

theorem BaseFc.diag_of_ofDiagByte {fc : Byte} {b : BaseFc} (h : BaseFc.ofDiagByte fc = some b) : b.code ||| 0x80#8 = fc := by
  unfold BaseFc.ofDiagByte at h
  split at h
  · rename_i h7
    rw [BaseFc.code_of_ofByte h]
    have hall : ∀ v : Byte, v.getLsbD 7 = true → v &&& 0x7F#8 ||| 0x80#8 = v := by decide
    exact hall fc h7
  · cases h

/-- The code of a form selects it in its direction. -/
theorem wireFormOf_code (f : WireForm) : wireFormOf f.code f.isResponse = some f := by
  cases f with
  | diagRsp b => simp [wireFormOf, WireForm.code, WireForm.isResponse, BaseFc.ofByte_diag, BaseFc.ofDiagByte_diag]
  | _ => rfl

/-- A form is selected by its code alone, in its direction alone. -/
theorem code_of_wireFormOf {fc : Byte} {isResponse : Bool} {f : WireForm} (h : wireFormOf fc isResponse = some f) :
    f.code = fc ∧ f.isResponse = isResponse := by
  unfold wireFormOf at h
  split at h
  · rename_i b hb
    rw [← BaseFc.code_of_ofByte hb]
    cases isResponse <;> cases b <;> cases h <;> exact ⟨rfl, rfl⟩
  · split at h
    · rename_i hr
      simp only [Option.map_eq_some_iff] at h
      obtain ⟨b, hb, rfl⟩ := h
      exact ⟨BaseFc.diag_of_ofDiagByte hb, hr.symm⟩
    · cases h

theorem decodeFrame_bytes (f : Frame) : decodeFrame f.form.isResponse f.bytes = .ok f := by
  obtain ⟨form, st, p⟩ := f
  simp only [Frame.bytes, List.cons_append, decodeFrame, List.length_append, crcBytes, List.length_cons, List.length_nil]
  rw [if_neg (by omega), if_neg]
  · rw [wireFormOf_code]
    simp
  · simp

theorem bytes_of_decodeFrame {isResponse : Bool} {bytes : List Byte} {f : Frame} (h : decodeFrame isResponse bytes = .ok f) :
    f.bytes = bytes ∧ f.form.isResponse = isResponse := by
  unfold decodeFrame at h
  split at h
  · rename_i st fc rest
    split at h
    · cases h
    · dsimp only at h
      by_cases hc : rest.drop (rest.length - 2) = crcBytes (st :: fc :: rest.take (rest.length - 2))
      · rw [if_neg (not_not.2 hc)] at h
        split at h
        · rename_i form hf
          injection h with h
          subst h
          obtain ⟨hcode, hdir⟩ := code_of_wireFormOf hf
          refine ⟨?_, hdir⟩
          simp only [Frame.bytes, hcode]
          rw [← hc]
          simp
        · cases h
      · rw [if_pos hc] at h
        cases h
  · cases h
  · cases h

theorem encode_toInstr (f : Frame) : encode f.toInstr = .adu f.form.isResponse f.bytes := by
  obtain ⟨form, st, p⟩ := f
  cases form <;> rfl

/-- Every instruction is a frame's or a command's. -/
theorem decode_adu {isResponse : Bool} {bytes : List Byte} {f : Frame} (h : decodeFrame isResponse bytes = .ok f) :
    decode (.adu isResponse bytes) = .ok f.toInstr := by
  simp [decode, h]

theorem decode_frame (f : Frame) : decode (encode f.toInstr) = .ok f.toInstr := by
  rw [encode_toInstr, decode_adu (decodeFrame_bytes f)]

/-! ### Operand bits -/

/-- A field of the low `n` bits, widened again, is the word under a mask of those bits. -/
theorem setWidth_setWidth_eq_and {n : Nat} {m : Word} (hm : ∀ i, i < 32 → m.getLsbD i = decide (i < n)) (w : Word) :
    (w.setWidth n).setWidth 32 = w &&& m := by
  apply BitVec.eq_of_getLsbD_eq
  intro i h
  simp only [BitVec.getLsbD_setWidth, BitVec.getLsbD_and, hm i h]
  by_cases hn : i < n <;> simp [hn, h]

/-- The low bit alone, as a word, is the word under the mask 1. -/
theorem bit0_eq_and (w : Word) : (if w.getLsbD 0 then (1 : Word) else 0) = w &&& 1#32 := by
  apply BitVec.eq_of_getLsbD_eq
  intro i h
  have h1 : (1#32).getLsbD i = decide (i = 0) := by interval_cases i <;> rfl
  rw [BitVec.getLsbD_and, h1]
  by_cases h0 : i = 0
  · subst h0; cases w.getLsbD 0 <;> rfl
  · cases w.getLsbD 0 <;> simp [h0, h1]

theorem selOfBit0_word (w : Word) : (selOfBit0 w).word = w &&& 1#32 := by
  rw [← bit0_eq_and]; unfold selOfBit0; cases w.getLsbD 0 <;> rfl

/-- Words that agree under a mask agree in a field the mask covers. -/
theorem setWidth_eq_of_and_eq {n : Nat} {a b m : Word} (hm : ∀ i, i < n → m.getLsbD i = true) (h : a &&& m = b &&& m) :
    a.setWidth n = b.setWidth n := by
  apply BitVec.eq_of_getLsbD_eq
  intro i hi
  have := congrArg (fun v : Word => v.getLsbD i) h
  simp only [BitVec.getLsbD_and, hm i hi, Bool.and_true] at this
  simp [this, hi]

theorem bit0_eq_of_and_eq {a b m : Word} (hm : m.getLsbD 0 = true) (h : a &&& m = b &&& m) : a.getLsbD 0 = b.getLsbD 0 := by
  have := congrArg (fun v : Word => v.getLsbD 0) h
  simpa only [BitVec.getLsbD_and, hm, Bool.and_true] using this

/-- A decoded command is the instruction of its opcode's row. -/
theorem decodeCommand_eq_ok {op : Byte} {arg0 arg1 : Word} {i : Instr} (h : decodeCommand op arg0 arg1 = .ok i) :
    ∃ r ∈ commandTable, r.op = op ∧ i = r.build arg0 arg1 ∧ ∀ b0 b1, decodeCommand op b0 b1 = .ok (r.build b0 b1) := by
  unfold decodeCommand at h ⊢
  split at h
  · rename_i r hr
    injection h with h
    exact ⟨r, List.mem_of_find?_eq_some hr, by simpa using List.find?_some hr, h.symm, fun b0 b1 => rfl⟩
  · cases h

end Sys2Proof
end

