-- ==== Sys2Proof/Laws/Envelope.lean ====
section
/-! SUPPORT. What replacing the values region of the envelope does (43_payload_ops.md R249), said once: the bytes it leaves, that they
are determined by the element list, when it refuses, and that it keeps the buffer canonical. -/

namespace Sys2Proof.Machine

/-- The bytes `storeValues` leaves. -/
def storedBuf (v : Variant) (es : List Half) (m : Buf) : Buf :=
  let bc := storageBytes v es.length
  let region := (m.zeroFill (valOff v) (max bc (m.read (valOff v - 1)).toNat + 2)).writeAll (valOff v) (packElems v es)
  let counted := region.write (valOff v - 1) (BitVec.ofNat 8 bc)
  if isWriteMultiple v then counted.write16 4 (BitVec.ofNat 16 es.length) else counted

theorem storedBuf_read {v : Variant} {es : List Half} {m : Buf} (a : Nat) :
    (storedBuf v es m).read a =
      if isWriteMultiple v = true ∧ a = 4 then hi (BitVec.ofNat 16 es.length)
      else if isWriteMultiple v = true ∧ a = 5 then lo (BitVec.ofNat 16 es.length)
      else if a = valOff v - 1 then BitVec.ofNat 8 (storageBytes v es.length)
      else if valOff v ≤ a ∧ a < valOff v + storageBytes v es.length then (packElems v es).getD (a - valOff v) 0
      else if valOff v ≤ a ∧ a < valOff v + (max (storageBytes v es.length) (m.read (valOff v - 1)).toNat + 2) then 0
      else m.read a := by
  unfold storedBuf
  by_cases hw : isWriteMultiple v = true
  · have ho := valOff_of_isWriteMultiple hw
    simp only [hw, if_true, true_and, Buf.read_write16, Buf.read_write, Buf.read_writeAll, Buf.read_zeroFill, length_packElems, ho]
    by_cases h4 : a = 4
    · simp [h4]
    · simp [h4]
  · simp only [hw, if_false, false_and, Buf.read_write, Buf.read_writeAll, Buf.read_zeroFill, length_packElems,
      Bool.false_eq_true]

theorem storedBuf_stores {v : Variant} {es : List Half} {m : Buf} (hv : isVariable v = true) (he : ElementList v es)
    (hbc : storageBytes v es.length ≤ 255)
    (htail : ∀ a, valOff v + (m.read (valOff v - 1)).toNat + 2 ≤ a → m.read a = 0) :
    StoresElements v es m (storedBuf v es m) := by
  have ho := valOff_of_isVariable hv
  have hw : isWriteMultiple v = true → valOff v = 7 := valOff_of_isWriteMultiple
  have hregion : ∀ a, valOff v ≤ a → a < valOff v + storageBytes v es.length →
      (storedBuf v es m).read a = (m.writeAll (valOff v) (packElems v es)).read a := by
    intro a h1 h2
    rw [storedBuf_read, Buf.read_writeAll, if_neg (by rintro ⟨h, rfl⟩; have := hw h; omega),
      if_neg (by rintro ⟨h, rfl⟩; have := hw h; omega), if_neg (by omega), if_pos ⟨h1, h2⟩,
      if_pos ⟨h1, by rw [length_packElems]; exact h2⟩]
  refine ⟨?_, ?_, ?_, ?_, ?_, ?_⟩
  · rw [elems_congr hregion, elems_writeAll he]
  · rw [storedBuf_read, if_neg (by rintro ⟨h, h'⟩; have := hw h; omega), if_neg (by rintro ⟨h, h'⟩; have := hw h; omega),
      if_pos rfl, BitVec.toNat_ofNat, Nat.mod_eq_of_lt (by omega)]
  · intro h
    rw [Buf.read16, storedBuf_read, if_pos ⟨h, rfl⟩, storedBuf_read, if_neg (by omega), if_pos ⟨h, rfl⟩, ofHiLo_hi_lo]
  · intro hb i h1 h2
    rw [hregion _ (by omega) (by omega)]
    exact padding_writeAll hb h1 h2
  · intro a ha
    rw [storedBuf_read, if_neg (by rintro ⟨h, rfl⟩; have := hw h; omega), if_neg (by rintro ⟨h, rfl⟩; have := hw h; omega),
      if_neg (by omega), if_neg (by omega)]
    split
    · rfl
    · exact htail a (by omega)
  · intro a ha hn
    rw [storedBuf_read, if_neg (by rintro ⟨h, rfl⟩; exact hn ⟨h, .inl rfl⟩),
      if_neg (by rintro ⟨h, rfl⟩; exact hn ⟨h, .inr rfl⟩), if_neg (by omega), if_neg (by omega), if_neg (by omega)]

theorem storedBuf_wf {cap : Nat} {v : Variant} {es : List Half} {m : Buf} (hm : m.wf cap) (hv : isVariable v = true)
    (hfit : valOff v + storageBytes v es.length + 2 ≤ cap) : (storedBuf v es m).wf cap := by
  have ho := valOff_of_isVariable hv
  have hregion : ((m.zeroFill (valOff v) (max (storageBytes v es.length) (m.read (valOff v - 1)).toNat + 2)).writeAll (valOff v)
      (packElems v es)).wf cap := Buf.writeAll_wf (Buf.zeroFill_wf hm ..) (by rw [length_packElems]; omega)
  unfold storedBuf
  split
  · rename_i hw
    have := valOff_of_isWriteMultiple hw
    exact Buf.write16_wf (Buf.write_wf hregion (by omega) _) (by omega) _
  · exact Buf.write_wf hregion (by omega) _

theorem storeValues_noSpace {es : List Half} {s : State} (h : ¬ Fits s.params.cap s.txVariant es.length) :
    storeValues es s = done s .noSpace 0 := by
  unfold storeValues
  rw [if_pos]
  simp only [Fits] at h
  omega

theorem storeValues_fits {es : List Half} {s : State} (h : Fits s.params.cap s.txVariant es.length)
    (hold : valOff s.txVariant + (s.txBuf.read (valOff s.txVariant - 1)).toNat + 2 ≤ s.params.cap) :
    storeValues es s = .next
      { s with
        txBuf := storedBuf s.txVariant es s.txBuf
        txVq := BitVec.ofNat 16 es.length
        txLen := valOff s.txVariant + storageBytes s.txVariant es.length
        result := .ok
        rdata := 0 } := by
  obtain ⟨h1, h2⟩ := h
  simp only [storeValues]
  rw [if_neg (by omega), within_of_le (by omega)]
  rfl

/-- A command that stores values and goes on either returned NOSPACE and changed nothing else, or stored them all. -/
theorem storeValues_eq_next {es : List Half} {s t : State} (h : storeValues es s = .next t) :
    (¬ Fits s.params.cap s.txVariant es.length ∧ t = { s with result := .noSpace, rdata := 0 }) ∨
    (Fits s.params.cap s.txVariant es.length ∧
      t = { s with
        txBuf := storedBuf s.txVariant es s.txBuf
        txVq := BitVec.ofNat 16 es.length
        txLen := valOff s.txVariant + storageBytes s.txVariant es.length
        result := .ok
        rdata := 0 }) := by
  by_cases hf : Fits s.params.cap s.txVariant es.length
  · refine .inr ⟨hf, ?_⟩
    have hf' := hf
    obtain ⟨h1, h2⟩ := hf'
    simp only [storeValues] at h
    rw [if_neg (by omega)] at h
    have := (within_eq_next h).2
    injection this with h
    exact h.symm
  · rw [storeValues_noSpace hf] at h
    refine .inl ⟨hf, ?_⟩
    injection h with h
    exact h.symm

/-- The bytes are determined by the element list and the fields before the region. -/
theorem StoresElements.read_eq {v : Variant} {es : List Half} {m m' x y : Buf} (hv : isVariable v = true)
    (hx : StoresElements v es m x) (hy : StoresElements v es m' y)
    (hm : ∀ a, a < valOff v - 1 → ¬(isWriteMultiple v = true ∧ (a = 4 ∨ a = 5)) → m.read a = m'.read a) (a : Nat) :
    x.read a = y.read a := by
  obtain ⟨ex, bx, qx, px, zx, fx⟩ := hx
  obtain ⟨ey, by', qy, py, zy, fy⟩ := hy
  have ho := valOff_of_isVariable hv
  rcases Nat.lt_or_ge a (valOff v - 1) with h1 | h1
  · by_cases hw : isWriteMultiple v = true ∧ (a = 4 ∨ a = 5)
    · obtain ⟨hw, ha⟩ := hw
      have := ofHiLo_inj ((qx hw).trans (qy hw).symm)
      rcases ha with rfl | rfl
      · exact this.1
      · exact this.2
    · rw [fx a h1 hw, fy a h1 hw, hm a h1 hw]
  · rcases Nat.lt_or_ge a (valOff v) with h2 | h2
    · obtain rfl : a = valOff v - 1 := by omega
      exact BitVec.eq_of_toNat_eq (bx.trans by'.symm)
    · rcases Nat.lt_or_ge a (valOff v + storageBytes v es.length) with h3 | h3
      · have helem : ∀ i, i < es.length → elemAt x v i = elemAt y v i := by
          intro i hi
          have h := congrArg (fun l : List Half => l.getD i 0) (ex.trans ey.symm)
          simpa [elems, List.getD_eq_getElem, hi] using h
        by_cases hb : isBits v = true
        · apply BitVec.eq_of_getLsbD_eq
          intro j hj
          have hs : storageBytes v es.length = (es.length + 7) / 8 := by simp [storageBytes, hb, cdiv8]
          have hk : valOff v + (8 * (a - valOff v) + j) / 8 = a := by omega
          have hbit : ∀ m : Buf, bitOf (m.read (valOff v + (8 * (a - valOff v) + j) / 8)) (8 * (a - valOff v) + j) =
              (m.read a).getLsbD j := by
            intro m
            rw [hk, bitOf, show (8 * (a - valOff v) + j) % 8 = j by omega]
          rcases Nat.lt_or_ge (8 * (a - valOff v) + j) es.length with h4 | h4
          · have := helem _ h4
            simp only [elemAt, hb, if_true, hbit] at this
            revert this
            cases (x.read a).getLsbD j <;> cases (y.read a).getLsbD j <;> simp
          · rw [← hbit, ← hbit, px hb _ h4 (by omega), py hb _ h4 (by omega)]
        · have hs : storageBytes v es.length = 2 * es.length := by simp [storageBytes, hb]
          have := helem ((a - valOff v) / 2) (by omega)
          simp only [elemAt, hb, Bool.false_eq_true, if_false, Buf.read16] at this
          have := ofHiLo_inj this
          rcases Nat.mod_two_eq_zero_or_one (a - valOff v) with h4 | h4
          · rw [show valOff v + 2 * ((a - valOff v) / 2) = a by omega] at this; exact this.1
          · rw [show valOff v + 2 * ((a - valOff v) / 2) + 1 = a by omega] at this; exact this.2
      · rw [zx a h3, zy a h3]

end Sys2Proof.Machine
end

