-- ==== Sys2Proof/Laws/Invariant.lean ====
section
/-! SUPPORT. What the invariant gives about the envelope and the selected frame, and that the shared updates of the envelope keep
it. -/

namespace Sys2Proof.Machine

variable {s : State}

/-! ### The envelope of a good state -/

theorem State.Inv.txLen_le (h : s.Inv) (hv : s.txVariant ≠ .none) : s.txLen + 2 ≤ s.params.cap := (h.envelope hv).1

theorem State.Inv.cap_ge (h : s.Inv) : 9 ≤ s.params.cap := h.params.1

theorem State.Inv.tail_zero (h : s.Inv) (hv : s.txVariant ≠ .none) : ∀ a, s.txLen + 2 ≤ a → s.txBuf.read a = 0 :=
  (h.envelope hv).2.2.1

theorem State.Inv.region (h : s.Inv) (hv : isVariable s.txVariant = true) : s.regionOk :=
  (h.envelope (ne_none_of_isVariable hv)).2.2.2.2 hv

theorem State.Inv.fixed (h : s.Inv) (hn : s.txVariant ≠ .none) (hv : isVariable s.txVariant = false) :
    s.txLen = s.txVariant.initLen ∧ s.txVq = 0 :=
  (h.envelope hn).2.2.2.1 hv

theorem State.Inv.three_le_txLen (h : s.Inv) (hn : s.txVariant ≠ .none) : 3 ≤ s.txLen := by
  by_cases hv : isVariable s.txVariant = true
  · have := (h.region hv).2.1
    have := valOff_of_isVariable hv
    omega
  · rw [(h.fixed hn (Bool.eq_false_iff.2 hv)).1]
    revert hn; cases s.txVariant <;> decide

/-- The elements of a good envelope fill no more than a byteCount can say, and fit. -/
theorem State.Inv.fits (h : s.Inv) (hv : isVariable s.txVariant = true) {q : Nat} (hq : q ≤ s.txVq.toNat) :
    Fits s.params.cap s.txVariant q := by
  obtain ⟨hb, hl, -⟩ := h.region hv
  have := h.txLen_le (ne_none_of_isVariable hv)
  have := storageBytes_mono s.txVariant hq
  have := (s.txBuf.read (valOff s.txVariant - 1)).isLt
  exact ⟨by omega, by omega⟩

theorem State.Inv.byteCount_le (h : s.Inv) (hv : isVariable s.txVariant = true) :
    valOff s.txVariant + (s.txBuf.read (valOff s.txVariant - 1)).toNat + 2 ≤ s.params.cap := by
  obtain ⟨hb, hl, -⟩ := h.region hv
  have := h.txLen_le (ne_none_of_isVariable hv)
  omega

theorem State.Inv.byteCount_tail (h : s.Inv) (hv : isVariable s.txVariant = true) :
    ∀ a, valOff s.txVariant + (s.txBuf.read (valOff s.txVariant - 1)).toNat + 2 ≤ a → s.txBuf.read a = 0 := by
  obtain ⟨hb, hl, -⟩ := h.region hv
  intro a ha
  exact h.tail_zero (ne_none_of_isVariable hv) a (by omega)

/-- The values region of a good envelope without a CRC is the canonical encoding of its elements. -/
theorem State.Inv.storesElements (h : s.Inv) (hv : isVariable s.txVariant = true) (h0 : s.txBuf.read s.txLen = 0)
    (h1 : s.txBuf.read (s.txLen + 1) = 0) : StoresElements s.txVariant (envelopeElems s) s.txBuf s.txBuf := by
  obtain ⟨hb, hl, hq, hp⟩ := h.region hv
  have hlen : (envelopeElems s).length = s.txVq.toNat := length_elems ..
  refine ⟨by rw [hlen]; rfl, by rw [hlen]; exact hb, fun hw => ?_, fun hbits i hi1 hi2 => ?_, fun a ha => ?_, fun _ _ _ => rfl⟩
  · rw [hlen, hq hw]; exact (BitVec.ofNat_toNat ..).symm ▸ (by simp)
  · rw [hlen] at hi1 hi2
    simp only [storageBytes, hbits, if_true] at hi2
    exact hp hbits i hi1 hi2
  · rw [hlen, ← hl] at ha
    by_cases e0 : a = s.txLen
    · rw [e0]; exact h0
    · by_cases e1 : a = s.txLen + 1
      · rw [e1]; exact h1
      · exact h.tail_zero (ne_none_of_isVariable hv) a (by omega)

/-! ### The selected frame of a good state -/

theorem State.Inv.select_len (h : s.Inv) {sel : Sel} {f : Selected} (hs : select sel s = some f) : f.len + 2 ≤ s.params.cap := by
  cases sel with
  | rx =>
    rw [select_rx] at hs
    split at hs
    · rename_i hv
      injection hs with hs
      have := h.frame hv
      subst hs
      show s.rxLen - 2 + 2 ≤ _
      omega
    · cases hs
  | tx =>
    rw [select_tx] at hs
    split at hs
    · cases hs
    · rename_i hv
      injection hs with hs
      subst hs
      exact h.txLen_le hv

/-- Every element of the selected frame lies inside its PDU. -/
theorem State.Inv.select_region (h : s.Inv) {sel : Sel} {f : Selected} (hs : select sel s = some f) {i : Nat} (hi : i < f.vq) :
    isVariable f.variant = true ∧ valOff f.variant + storageBytes f.variant f.vq ≤ f.len := by
  cases sel with
  | rx =>
    rw [select_rx] at hs
    split at hs
    · rename_i hv
      injection hs with hs
      obtain ⟨-, h4, -, -, hview, hst⟩ := h.frame hv
      subst hs
      dsimp only at hi ⊢
      cases hw : wireFormOf (s.rxBuf.read 1) (decide (s.params.role = .master)) with
      | none =>
        rw [hview, pduDecode_none hw] at hst
        exact absurd rfl hst
      | some form =>
        rw [pduDecode_some hw] at hview
        rw [hview] at hi ⊢
        rw [formView_variant]
        rcases formView_region form (s.rxBuf.slice 2 (s.rxLen - 4)) with h0 | ⟨hvar, hr⟩
        · omega
        · rw [Buf.length_slice] at hr
          have := valOff_of_isVariable hvar
          exact ⟨hvar, by omega⟩
    · cases hs
  | tx =>
    rw [select_tx] at hs
    split at hs
    · cases hs
    · rename_i hv
      injection hs with hs
      subst hs
      dsimp only at hi ⊢
      by_cases hvar : isVariable s.txVariant = true
      · exact ⟨hvar, by rw [(h.region hvar).2.1]⟩
      · have := (h.fixed hv (Bool.eq_false_iff.2 hvar)).2
        rw [this] at hi
        simp at hi

/-! ### Updates that keep the invariant -/

/-- Ending a command keeps the invariant. -/
theorem State.Inv.returning (h : s.Inv) (code : ResultCode) (value : Word) :
    ({ s with result := code, rdata := value } : State).Inv :=
  ⟨h.params, h.buffers, h.receiver, h.frame, h.envelope, h.gates, h.fifo, h.log⟩

/-- Emptying the envelope keeps the invariant. -/
theorem State.Inv.emptied (h : s.Inv) : ({ s with txBuf := [], txVariant := .none, txLen := 0, txVq := 0 } : State).Inv :=
  ⟨h.params, ⟨h.buffers.1, Buf.wf_nil _⟩, h.receiver, h.frame, fun hn => absurd rfl hn, h.gates, h.fifo, h.log⟩

/-- Replacing the envelope by a good one keeps the invariant. -/
theorem State.Inv.withEnvelope (h : s.Inv) {buf : Buf} {v : Variant} {len : Nat} {vq : Half} (hw : buf.wf s.params.cap)
    (he : ({ s with txBuf := buf, txVariant := v, txLen := len, txVq := vq } : State).envelopeOk) :
    ({ s with txBuf := buf, txVariant := v, txLen := len, txVq := vq } : State).Inv :=
  ⟨h.params, ⟨h.buffers.1, hw⟩, h.receiver, h.frame, he, h.gates, h.fifo, h.log⟩

/-- Changing `hdata` within its depth keeps the invariant. -/
theorem State.Inv.withHdata (h : s.Inv) {q : List Half} (hq : q.length ≤ s.params.hdataDepth) :
    ({ s with hdata := q } : State).Inv :=
  ⟨h.params, h.buffers, h.receiver, h.frame, h.envelope, h.gates, hq, h.log⟩

/-- Storing an element list that fits keeps the invariant. -/
theorem State.Inv.stored (h : s.Inv) (hv : isVariable s.txVariant = true) {es : List Half} (he : ElementList s.txVariant es)
    (hf : Fits s.params.cap s.txVariant es.length) :
    ({ s with
      txBuf := storedBuf s.txVariant es s.txBuf
      txVq := BitVec.ofNat 16 es.length
      txLen := valOff s.txVariant + storageBytes s.txVariant es.length } : State).Inv := by
  have hq : (BitVec.ofNat 16 es.length).toNat = es.length := toNat_ofNat_16 (by
    have := hf.1
    unfold storageBytes cdiv8 at this
    split at this <;> omega)
  obtain ⟨helems, hbc, hqty, hpad, htail, hhead⟩ := storedBuf_stores hv he hf.1 (h.byteCount_tail hv)
  obtain ⟨-, ⟨dir, hdir⟩, -⟩ := h.envelope (ne_none_of_isVariable hv)
  have ho := valOff_of_isVariable hv
  refine h.withEnvelope (storedBuf_wf h.buffers.2 hv hf.2) fun _ => ⟨hf.2, ⟨dir, ?_⟩, fun a ha => htail a (by
    have : valOff s.txVariant + storageBytes s.txVariant es.length + 2 ≤ a := ha
    omega), fun hn => ?_, fun _ => ⟨?_, ?_, fun hw => hqty hw, fun hb i h1 h2 => ?_⟩⟩
  · show variantOf ((storedBuf s.txVariant es s.txBuf).read 1) dir = _
    rw [hhead 1 (by omega) (by omega)]
    exact hdir
  · exact absurd hv (Bool.eq_false_iff.1 hn)
  · show ((storedBuf s.txVariant es s.txBuf).read (valOff s.txVariant - 1)).toNat = storageBytes s.txVariant (BitVec.ofNat 16 es.length).toNat
    rw [hq]; exact hbc
  · show valOff s.txVariant + storageBytes s.txVariant es.length = valOff s.txVariant + storageBytes s.txVariant (BitVec.ofNat 16 es.length).toNat
    rw [hq]
  · have h1 : (BitVec.ofNat 16 es.length).toNat ≤ i := h1
    have h2 : i < 8 * cdiv8 (BitVec.ofNat 16 es.length).toNat := h2
    rw [hq] at h1 h2
    refine hpad hb i h1 ?_
    have hb : isBits s.txVariant = true := hb
    simpa only [storageBytes, hb, if_true] using h2

/-- Writing bytes of the envelope that leave its function code, its counts, its padding and the zeros after its CRC as they are
keeps the invariant. -/
theorem State.Inv.edited (h : s.Inv) {buf : Buf} (hw : buf.wf s.params.cap) (hn : s.txVariant ≠ .none)
    (h1 : buf.read 1 = s.txBuf.read 1) (htail : ∀ a, s.txLen + 2 ≤ a → buf.read a = s.txBuf.read a)
    (hbc : isVariable s.txVariant = true → buf.read (valOff s.txVariant - 1) = s.txBuf.read (valOff s.txVariant - 1))
    (hqty : isWriteMultiple s.txVariant = true → buf.read16 4 = s.txBuf.read16 4)
    (hpad : isBits s.txVariant = true → ∀ i, s.txVq.toNat ≤ i → i < 8 * cdiv8 s.txVq.toNat →
      bitOf (buf.read (valOff s.txVariant + i / 8)) i = bitOf (s.txBuf.read (valOff s.txVariant + i / 8)) i) :
    ({ s with txBuf := buf } : State).Inv := by
  obtain ⟨hl, ⟨dir, hdir⟩, ht, hfix, hvar⟩ := h.envelope hn
  have he : ({ s with txBuf := buf } : State).envelopeOk := by
    refine fun _ => ⟨hl, ⟨dir, ?_⟩, fun a ha => (htail a ha).trans (ht a ha), hfix, fun hv => ?_⟩
    · show variantOf (buf.read 1) dir = _
      rw [h1]; exact hdir
    · obtain ⟨r1, r2, r3, r4⟩ := hvar hv
      refine ⟨?_, r2, fun hm => ?_, fun hb i h1 h2 => (hpad hb i h1 h2).trans (r4 hb i h1 h2)⟩
      · show (buf.read (valOff s.txVariant - 1)).toNat = _
        rw [hbc hv]; exact r1
      · show buf.read16 4 = _
        rw [hqty hm]; exact r3 hm
  exact ⟨h.params, ⟨h.buffers.1, hw⟩, h.receiver, h.frame, he, h.gates, h.fifo, h.log⟩

/-- Writing bytes at or after the end of the PDU, or the station byte, keeps the invariant where the zeros after the CRC stay. -/
theorem State.Inv.edited_outside (h : s.Inv) {buf : Buf} (hw : buf.wf s.params.cap) (hn : s.txVariant ≠ .none)
    (hr : ∀ a, a ≠ 0 → a ≠ s.txLen → a ≠ s.txLen + 1 → buf.read a = s.txBuf.read a) :
    ({ s with txBuf := buf } : State).Inv := by
  have h3 := h.three_le_txLen hn
  refine h.edited hw hn (hr 1 (by omega) (by omega) (by omega)) (fun a ha => hr a (by omega) (by omega) (by omega))
    (fun hv => ?_) (fun hm => ?_) fun hb i h1 h2 => ?_
  · have := valOff_of_isVariable hv
    have := (h.region hv).2.1
    exact hr _ (by omega) (by omega) (by omega)
  · have := valOff_of_isWriteMultiple hm
    have := (h.region (isVariable_of_isWriteMultiple hm)).2.1
    rw [Buf.read16, Buf.read16, hr 4 (by omega) (by omega) (by omega), hr 5 (by omega) (by omega) (by omega)]
  · have hv := (isVariable_iff _).2 (.inl hb)
    have := valOff_of_isVariable hv
    have hl := (h.region hv).2.1
    simp only [storageBytes, hb, if_true] at hl
    rw [hr _ (by omega) (by omega) (by omega)]

end Sys2Proof.Machine
end

