-- ==== Sys2Proof/Laws/ElementLists.lean ====
section
/-! SUPPORT. What the insert and remove commands answer in a good state (43_payload_ops.md section 5), case by case, and that packing
elements keeps only bit 0 of a bit element. -/

namespace Sys2Proof.Machine

theorem isVariable_of_isBits {v : Variant} (h : isBits v = true) : isVariable v = true := (isVariable_iff v).2 (.inl h)

theorem isVariable_of_isRegs {v : Variant} (h : isRegs v = true) : isVariable v = true := (isVariable_iff v).2 (.inr h)

/-- In a good state with elements of the class the guards of an insert or remove command pass. -/
theorem State.Inv.withElements {cls : Variant → Bool} {s : State} (h : s.Inv) (hcls : ∀ v, cls v = true → isVariable v = true)
    (hc : cls s.txVariant = true) (k : Outcome) : withElements cls s k = k := by
  have hv := hcls _ hc
  have hn := ne_none_of_isVariable hv
  exact withElements_some hn hc (h.txLen_le hn) (by rw [(h.region hv).2.1]) k

section Insert

variable {cls : Variant → Bool} {place : List Half → List Half → List Half} {n : Nat} {s : State}

theorem insertElems_badArg (h : s.Inv) (hcls : ∀ v, cls v = true → isVariable v = true) (hc : cls s.txVariant = true)
    (hn : s.hdata.length < n) : insertElems cls place n s = .next { s with result := .badArg, rdata := 0 } := by
  rw [insertElems, h.withElements hcls hc, if_pos hn]
  rfl

theorem insertElems_noSpace (h : s.Inv) (hcls : ∀ v, cls v = true → isVariable v = true) (hc : cls s.txVariant = true)
    (hn : n ≤ s.hdata.length)
    (hf : ¬ Fits s.params.cap s.txVariant (place (s.hdata.take n) (envelopeElems s)).length) :
    insertElems cls place n s = .next { s with hdata := s.hdata.drop n, result := .noSpace, rdata := 0 } := by
  rw [insertElems, h.withElements hcls hc, if_neg (by omega)]
  exact storeValues_noSpace hf

theorem insertElems_stored (h : s.Inv) (hcls : ∀ v, cls v = true → isVariable v = true) (hc : cls s.txVariant = true)
    (hn : n ≤ s.hdata.length)
    (hf : Fits s.params.cap s.txVariant (place (s.hdata.take n) (envelopeElems s)).length) :
    insertElems cls place n s = .next
      { s with
        txBuf := storedBuf s.txVariant (place (s.hdata.take n) (envelopeElems s)) s.txBuf
        txVq := BitVec.ofNat 16 (place (s.hdata.take n) (envelopeElems s)).length
        txLen := valOff s.txVariant + storageBytes s.txVariant (place (s.hdata.take n) (envelopeElems s)).length
        hdata := s.hdata.drop n
        result := .ok
        rdata := 0 } := by
  rw [insertElems, h.withElements hcls hc, if_neg (by omega)]
  exact storeValues_fits (s := { s with hdata := s.hdata.drop n }) hf (h.byteCount_le (hcls _ hc))

end Insert

section Remove

variable {cls : Variant → Bool} {cut : List Half → List Half × List Half} {n : Nat} {s : State}

theorem removeElems_range (h : s.Inv) (hcls : ∀ v, cls v = true → isVariable v = true) (hc : cls s.txVariant = true)
    (hn : s.txVq.toNat < n) : removeElems cls cut n s = .next { s with result := .range, rdata := 0 } := by
  rw [removeElems, h.withElements hcls hc, if_pos hn]
  rfl

/-- A remove command keeps no more elements than there were, which fit. -/
theorem removeElems_stored (h : s.Inv) (hcls : ∀ v, cls v = true → isVariable v = true) (hc : cls s.txVariant = true)
    (hn : n ≤ s.txVq.toNat) {out keep : List Half} (hcut : cut (envelopeElems s) = (out, keep))
    (hk : keep.length ≤ s.txVq.toNat) :
    removeElems cls cut n s = .next
      { s with
        txBuf := storedBuf s.txVariant keep s.txBuf
        txVq := BitVec.ofNat 16 keep.length
        txLen := valOff s.txVariant + storageBytes s.txVariant keep.length
        hdata := out.take s.params.hdataDepth
        result := .ok
        rdata := 0 } := by
  have hv := hcls _ hc
  rw [removeElems, h.withElements hcls hc, if_neg (by omega)]
  dsimp only
  rw [hcut]
  have hp : pushHdata s.params [] out = out.take s.params.hdataDepth := by simp [pushHdata]
  rw [hp]
  exact storeValues_fits (s := { s with hdata := out.take s.params.hdataDepth }) (h.fits hv hk) (h.byteCount_le hv)

end Remove

/-- Only bit 0 of each entry enters a bit element. -/
theorem packElems_map_and (v : Variant) (d : List Half) (hb : isBits v = true) :
    packElems v (d.map fun e => e &&& 1#16) = packElems v d := by
  simp only [packElems, hb, if_true, List.map_map]
  congr 1
  exact List.map_congr_left fun e _ => by simp

theorem packElems_append_congr {v : Variant} {d d' es es' : List Half} (hd : d.length = d'.length) (hes : es.length = es'.length)
    (h1 : isBits v = true → d.map (fun e => e.getLsbD 0) = d'.map (fun e => e.getLsbD 0))
    (h2 : isBits v = true → es.map (fun e => e.getLsbD 0) = es'.map (fun e => e.getLsbD 0))
    (h3 : isBits v = false → d = d' ∧ es = es') : packElems v (d ++ es) = packElems v (d' ++ es') := by
  by_cases hb : isBits v = true
  · simp only [packElems, hb, if_true, List.map_append, h1 hb, h2 hb]
  · obtain ⟨rfl, rfl⟩ := h3 (Bool.eq_false_iff.2 hb)
    rfl

/-- The bytes stored depend on the packed elements and their number. -/
theorem storedBuf_congr {v : Variant} {es es' : List Half} (m : Buf) (h : packElems v es = packElems v es')
    (hl : es.length = es'.length) : storedBuf v es m = storedBuf v es' m := by
  simp only [storedBuf, h, hl]

end Sys2Proof.Machine
end

