-- ==== Sys2Proof/Laws/State.lean ====
section
/-! SUPPORT. One lemma per field per state update: what each field holds after the updates that the meanings share, so that no
later proof unfolds a record update. -/

namespace Sys2Proof.Machine

/-! ### `failureEntry`: the failure entry without the count of the frame end (60_exceptions.md R410) -/

@[simp] theorem failureEntry_params (kind : FailKind) (s : State) : (failureEntry kind s).params = s.params := rfl
@[simp] theorem failureEntry_rxBuf (kind : FailKind) (s : State) : (failureEntry kind s).rxBuf = s.rxBuf := rfl
@[simp] theorem failureEntry_txBuf (kind : FailKind) (s : State) : (failureEntry kind s).txBuf = s.txBuf := rfl
@[simp] theorem failureEntry_rxState (kind : FailKind) (s : State) : (failureEntry kind s).rxState = .waitStation := rfl
@[simp] theorem failureEntry_rxLen (kind : FailKind) (s : State) : (failureEntry kind s).rxLen = s.rxLen := rfl
@[simp] theorem failureEntry_txLen (kind : FailKind) (s : State) : (failureEntry kind s).txLen = s.txLen := rfl
@[simp] theorem failureEntry_rxValid (kind : FailKind) (s : State) : (failureEntry kind s).rxValid = false := rfl
@[simp] theorem failureEntry_awaiting (kind : FailKind) (s : State) : (failureEntry kind s).awaiting = s.awaiting := rfl
@[simp] theorem failureEntry_allowed (kind : FailKind) (s : State) : (failureEntry kind s).allowed = s.allowed := rfl
@[simp] theorem failureEntry_txPending (kind : FailKind) (s : State) : (failureEntry kind s).txPending = s.txPending := rfl
@[simp] theorem failureEntry_pendingTarget (kind : FailKind) (s : State) : (failureEntry kind s).pendingTarget = s.pendingTarget := rfl
@[simp] theorem failureEntry_txVariant (kind : FailKind) (s : State) : (failureEntry kind s).txVariant = s.txVariant := rfl
@[simp] theorem failureEntry_txVq (kind : FailKind) (s : State) : (failureEntry kind s).txVq = s.txVq := rfl
@[simp] theorem failureEntry_evPending (kind : FailKind) (s : State) : (failureEntry kind s).evPending = s.evPending ||| 0b10#2 := rfl
@[simp] theorem failureEntry_evMask (kind : FailKind) (s : State) : (failureEntry kind s).evMask = s.evMask := rfl
@[simp] theorem failureEntry_rxView (kind : FailKind) (s : State) : (failureEntry kind s).rxView = s.rxView := rfl
@[simp] theorem failureEntry_now (kind : FailKind) (s : State) : (failureEntry kind s).now = s.now := rfl
@[simp] theorem failureEntry_lastRxUs (kind : FailKind) (s : State) : (failureEntry kind s).lastRxUs = s.lastRxUs := rfl
@[simp] theorem failureEntry_lastActUs (kind : FailKind) (s : State) : (failureEntry kind s).lastActUs = s.lastActUs := rfl
@[simp] theorem failureEntry_txStampUs (kind : FailKind) (s : State) : (failureEntry kind s).txStampUs = s.txStampUs := rfl
@[simp] theorem failureEntry_baud (kind : FailKind) (s : State) : (failureEntry kind s).baud = s.baud := rfl
@[simp] theorem failureEntry_silenceUs (kind : FailKind) (s : State) : (failureEntry kind s).silenceUs = s.silenceUs := rfl
@[simp] theorem failureEntry_sendbackUs (kind : FailKind) (s : State) : (failureEntry kind s).sendbackUs = s.sendbackUs := rfl
@[simp] theorem failureEntry_respTimeoutUs (kind : FailKind) (s : State) : (failureEntry kind s).respTimeoutUs = s.respTimeoutUs := rfl
@[simp] theorem failureEntry_station (kind : FailKind) (s : State) : (failureEntry kind s).station = s.station := rfl
@[simp] theorem failureEntry_failKind (kind : FailKind) (s : State) : (failureEntry kind s).failKind = kind := rfl
@[simp] theorem failureEntry_totalFrames (kind : FailKind) (s : State) : (failureEntry kind s).totalFrames = s.totalFrames := rfl
@[simp] theorem failureEntry_failedFrames (kind : FailKind) (s : State) : (failureEntry kind s).failedFrames = s.failedFrames + 1 := rfl
@[simp] theorem failureEntry_crc (kind : FailKind) (s : State) : (failureEntry kind s).crc = s.crc := rfl
@[simp] theorem failureEntry_cmdArg0 (kind : FailKind) (s : State) : (failureEntry kind s).cmdArg0 = s.cmdArg0 := rfl
@[simp] theorem failureEntry_cmdArg1 (kind : FailKind) (s : State) : (failureEntry kind s).cmdArg1 = s.cmdArg1 := rfl
@[simp] theorem failureEntry_result (kind : FailKind) (s : State) : (failureEntry kind s).result = s.result := rfl
@[simp] theorem failureEntry_rdata (kind : FailKind) (s : State) : (failureEntry kind s).rdata = s.rdata := rfl
@[simp] theorem failureEntry_hdata (kind : FailKind) (s : State) : (failureEntry kind s).hdata = s.hdata := rfl
@[simp] theorem failureEntry_rxq (kind : FailKind) (s : State) : (failureEntry kind s).rxq = s.rxq := rfl
@[simp] theorem failureEntry_txlog (kind : FailKind) (s : State) : (failureEntry kind s).txlog = s.txlog := rfl
@[simp] theorem failureEntry_inputs (kind : FailKind) (s : State) : (failureEntry kind s).inputs = s.inputs := rfl
@[simp] theorem failureEntry_portData (kind : FailKind) (s : State) : (failureEntry kind s).portData = s.portData := rfl
@[simp] theorem failureEntry_freeCount (kind : FailKind) (s : State) : (failureEntry kind s).freeCount = s.freeCount := rfl

/-! ### `raiseFailure`: the failure entry (60_exceptions.md R410) -/

@[simp] theorem raiseFailure_params (kind : FailKind) (s : State) : (raiseFailure kind s).params = s.params := rfl
@[simp] theorem raiseFailure_rxBuf (kind : FailKind) (s : State) : (raiseFailure kind s).rxBuf = s.rxBuf := rfl
@[simp] theorem raiseFailure_txBuf (kind : FailKind) (s : State) : (raiseFailure kind s).txBuf = s.txBuf := rfl
@[simp] theorem raiseFailure_rxState (kind : FailKind) (s : State) : (raiseFailure kind s).rxState = .waitStation := rfl
@[simp] theorem raiseFailure_rxLen (kind : FailKind) (s : State) : (raiseFailure kind s).rxLen = s.rxLen := rfl
@[simp] theorem raiseFailure_txLen (kind : FailKind) (s : State) : (raiseFailure kind s).txLen = s.txLen := rfl
@[simp] theorem raiseFailure_rxValid (kind : FailKind) (s : State) : (raiseFailure kind s).rxValid = false := rfl
@[simp] theorem raiseFailure_awaiting (kind : FailKind) (s : State) : (raiseFailure kind s).awaiting = s.awaiting := rfl
@[simp] theorem raiseFailure_allowed (kind : FailKind) (s : State) : (raiseFailure kind s).allowed = s.allowed := rfl
@[simp] theorem raiseFailure_txPending (kind : FailKind) (s : State) : (raiseFailure kind s).txPending = s.txPending := rfl
@[simp] theorem raiseFailure_pendingTarget (kind : FailKind) (s : State) : (raiseFailure kind s).pendingTarget = s.pendingTarget := rfl
@[simp] theorem raiseFailure_txVariant (kind : FailKind) (s : State) : (raiseFailure kind s).txVariant = s.txVariant := rfl
@[simp] theorem raiseFailure_txVq (kind : FailKind) (s : State) : (raiseFailure kind s).txVq = s.txVq := rfl
@[simp] theorem raiseFailure_evPending (kind : FailKind) (s : State) : (raiseFailure kind s).evPending = s.evPending ||| 0b10#2 := rfl
@[simp] theorem raiseFailure_evMask (kind : FailKind) (s : State) : (raiseFailure kind s).evMask = s.evMask := rfl
@[simp] theorem raiseFailure_rxView (kind : FailKind) (s : State) : (raiseFailure kind s).rxView = s.rxView := rfl
@[simp] theorem raiseFailure_now (kind : FailKind) (s : State) : (raiseFailure kind s).now = s.now := rfl
@[simp] theorem raiseFailure_lastRxUs (kind : FailKind) (s : State) : (raiseFailure kind s).lastRxUs = s.lastRxUs := rfl
@[simp] theorem raiseFailure_lastActUs (kind : FailKind) (s : State) : (raiseFailure kind s).lastActUs = s.lastActUs := rfl
@[simp] theorem raiseFailure_txStampUs (kind : FailKind) (s : State) : (raiseFailure kind s).txStampUs = s.txStampUs := rfl
@[simp] theorem raiseFailure_baud (kind : FailKind) (s : State) : (raiseFailure kind s).baud = s.baud := rfl
@[simp] theorem raiseFailure_silenceUs (kind : FailKind) (s : State) : (raiseFailure kind s).silenceUs = s.silenceUs := rfl
@[simp] theorem raiseFailure_sendbackUs (kind : FailKind) (s : State) : (raiseFailure kind s).sendbackUs = s.sendbackUs := rfl
@[simp] theorem raiseFailure_respTimeoutUs (kind : FailKind) (s : State) : (raiseFailure kind s).respTimeoutUs = s.respTimeoutUs := rfl
@[simp] theorem raiseFailure_station (kind : FailKind) (s : State) : (raiseFailure kind s).station = s.station := rfl
@[simp] theorem raiseFailure_failKind (kind : FailKind) (s : State) : (raiseFailure kind s).failKind = kind := rfl
@[simp] theorem raiseFailure_totalFrames (kind : FailKind) (s : State) : (raiseFailure kind s).totalFrames = s.totalFrames + 1 := rfl
@[simp] theorem raiseFailure_failedFrames (kind : FailKind) (s : State) : (raiseFailure kind s).failedFrames = s.failedFrames + 1 := rfl
@[simp] theorem raiseFailure_crc (kind : FailKind) (s : State) : (raiseFailure kind s).crc = s.crc := rfl
@[simp] theorem raiseFailure_cmdArg0 (kind : FailKind) (s : State) : (raiseFailure kind s).cmdArg0 = s.cmdArg0 := rfl
@[simp] theorem raiseFailure_cmdArg1 (kind : FailKind) (s : State) : (raiseFailure kind s).cmdArg1 = s.cmdArg1 := rfl
@[simp] theorem raiseFailure_result (kind : FailKind) (s : State) : (raiseFailure kind s).result = s.result := rfl
@[simp] theorem raiseFailure_rdata (kind : FailKind) (s : State) : (raiseFailure kind s).rdata = s.rdata := rfl
@[simp] theorem raiseFailure_hdata (kind : FailKind) (s : State) : (raiseFailure kind s).hdata = s.hdata := rfl
@[simp] theorem raiseFailure_rxq (kind : FailKind) (s : State) : (raiseFailure kind s).rxq = s.rxq := rfl
@[simp] theorem raiseFailure_txlog (kind : FailKind) (s : State) : (raiseFailure kind s).txlog = s.txlog := rfl
@[simp] theorem raiseFailure_inputs (kind : FailKind) (s : State) : (raiseFailure kind s).inputs = s.inputs := rfl
@[simp] theorem raiseFailure_portData (kind : FailKind) (s : State) : (raiseFailure kind s).portData = s.portData := rfl
@[simp] theorem raiseFailure_freeCount (kind : FailKind) (s : State) : (raiseFailure kind s).freeCount = s.freeCount := rfl

/-! ### `deliver`: delivering a frame (44_framing_fsm.md R303, R304) -/

@[simp] theorem deliver_params (st : Byte) (v : View) (s : State) : (deliver st v s).params = s.params := rfl
@[simp] theorem deliver_rxBuf (st : Byte) (v : View) (s : State) : (deliver st v s).rxBuf = s.rxBuf := rfl
@[simp] theorem deliver_txBuf (st : Byte) (v : View) (s : State) : (deliver st v s).txBuf = s.txBuf := rfl
@[simp] theorem deliver_rxState (st : Byte) (v : View) (s : State) : (deliver st v s).rxState = .waitStation := rfl
@[simp] theorem deliver_rxLen (st : Byte) (v : View) (s : State) : (deliver st v s).rxLen = s.rxLen := rfl
@[simp] theorem deliver_txLen (st : Byte) (v : View) (s : State) : (deliver st v s).txLen = s.txLen := rfl
@[simp] theorem deliver_rxValid (st : Byte) (v : View) (s : State) : (deliver st v s).rxValid = true := rfl
@[simp] theorem deliver_awaiting (st : Byte) (v : View) (s : State) : (deliver st v s).awaiting = s.awaiting := rfl
@[simp] theorem deliver_allowed (st : Byte) (v : View) (s : State) : (deliver st v s).allowed = (s.allowed || (decide (s.params.role = .slave) && decide (st = s.station))) := rfl
@[simp] theorem deliver_txPending (st : Byte) (v : View) (s : State) : (deliver st v s).txPending = s.txPending := rfl
@[simp] theorem deliver_pendingTarget (st : Byte) (v : View) (s : State) : (deliver st v s).pendingTarget = s.pendingTarget := rfl
@[simp] theorem deliver_txVariant (st : Byte) (v : View) (s : State) : (deliver st v s).txVariant = s.txVariant := rfl
@[simp] theorem deliver_txVq (st : Byte) (v : View) (s : State) : (deliver st v s).txVq = s.txVq := rfl
@[simp] theorem deliver_evPending (st : Byte) (v : View) (s : State) : (deliver st v s).evPending = s.evPending ||| 0b01#2 := rfl
@[simp] theorem deliver_evMask (st : Byte) (v : View) (s : State) : (deliver st v s).evMask = s.evMask := rfl
@[simp] theorem deliver_rxView (st : Byte) (v : View) (s : State) : (deliver st v s).rxView = v := rfl
@[simp] theorem deliver_now (st : Byte) (v : View) (s : State) : (deliver st v s).now = s.now := rfl
@[simp] theorem deliver_lastRxUs (st : Byte) (v : View) (s : State) : (deliver st v s).lastRxUs = s.lastRxUs := rfl
@[simp] theorem deliver_lastActUs (st : Byte) (v : View) (s : State) : (deliver st v s).lastActUs = s.lastActUs := rfl
@[simp] theorem deliver_txStampUs (st : Byte) (v : View) (s : State) : (deliver st v s).txStampUs = s.txStampUs := rfl
@[simp] theorem deliver_baud (st : Byte) (v : View) (s : State) : (deliver st v s).baud = s.baud := rfl
@[simp] theorem deliver_silenceUs (st : Byte) (v : View) (s : State) : (deliver st v s).silenceUs = s.silenceUs := rfl
@[simp] theorem deliver_sendbackUs (st : Byte) (v : View) (s : State) : (deliver st v s).sendbackUs = s.sendbackUs := rfl
@[simp] theorem deliver_respTimeoutUs (st : Byte) (v : View) (s : State) : (deliver st v s).respTimeoutUs = s.respTimeoutUs := rfl
@[simp] theorem deliver_station (st : Byte) (v : View) (s : State) : (deliver st v s).station = s.station := rfl
@[simp] theorem deliver_failKind (st : Byte) (v : View) (s : State) : (deliver st v s).failKind = s.failKind := rfl
@[simp] theorem deliver_totalFrames (st : Byte) (v : View) (s : State) : (deliver st v s).totalFrames = s.totalFrames := rfl
@[simp] theorem deliver_failedFrames (st : Byte) (v : View) (s : State) : (deliver st v s).failedFrames = s.failedFrames := rfl
@[simp] theorem deliver_crc (st : Byte) (v : View) (s : State) : (deliver st v s).crc = s.crc := rfl
@[simp] theorem deliver_cmdArg0 (st : Byte) (v : View) (s : State) : (deliver st v s).cmdArg0 = s.cmdArg0 := rfl
@[simp] theorem deliver_cmdArg1 (st : Byte) (v : View) (s : State) : (deliver st v s).cmdArg1 = s.cmdArg1 := rfl
@[simp] theorem deliver_result (st : Byte) (v : View) (s : State) : (deliver st v s).result = s.result := rfl
@[simp] theorem deliver_rdata (st : Byte) (v : View) (s : State) : (deliver st v s).rdata = s.rdata := rfl
@[simp] theorem deliver_hdata (st : Byte) (v : View) (s : State) : (deliver st v s).hdata = s.hdata := rfl
@[simp] theorem deliver_rxq (st : Byte) (v : View) (s : State) : (deliver st v s).rxq = s.rxq := rfl
@[simp] theorem deliver_txlog (st : Byte) (v : View) (s : State) : (deliver st v s).txlog = s.txlog := rfl
@[simp] theorem deliver_inputs (st : Byte) (v : View) (s : State) : (deliver st v s).inputs = s.inputs := rfl
@[simp] theorem deliver_portData (st : Byte) (v : View) (s : State) : (deliver st v s).portData = s.portData := rfl
@[simp] theorem deliver_freeCount (st : Byte) (v : View) (s : State) : (deliver st v s).freeCount = s.freeCount := rfl

/-! ### `tick`: the clock (60_exceptions.md R415) -/

@[simp] theorem tick_params (n : Nat) (s : State) : (tick n s).params = s.params := rfl
@[simp] theorem tick_rxBuf (n : Nat) (s : State) : (tick n s).rxBuf = s.rxBuf := rfl
@[simp] theorem tick_txBuf (n : Nat) (s : State) : (tick n s).txBuf = s.txBuf := rfl
@[simp] theorem tick_rxState (n : Nat) (s : State) : (tick n s).rxState = s.rxState := rfl
@[simp] theorem tick_rxLen (n : Nat) (s : State) : (tick n s).rxLen = s.rxLen := rfl
@[simp] theorem tick_txLen (n : Nat) (s : State) : (tick n s).txLen = s.txLen := rfl
@[simp] theorem tick_rxValid (n : Nat) (s : State) : (tick n s).rxValid = s.rxValid := rfl
@[simp] theorem tick_awaiting (n : Nat) (s : State) : (tick n s).awaiting = s.awaiting := rfl
@[simp] theorem tick_allowed (n : Nat) (s : State) : (tick n s).allowed = s.allowed := rfl
@[simp] theorem tick_txPending (n : Nat) (s : State) : (tick n s).txPending = s.txPending := rfl
@[simp] theorem tick_pendingTarget (n : Nat) (s : State) : (tick n s).pendingTarget = s.pendingTarget := rfl
@[simp] theorem tick_txVariant (n : Nat) (s : State) : (tick n s).txVariant = s.txVariant := rfl
@[simp] theorem tick_txVq (n : Nat) (s : State) : (tick n s).txVq = s.txVq := rfl
@[simp] theorem tick_evPending (n : Nat) (s : State) : (tick n s).evPending = s.evPending := rfl
@[simp] theorem tick_evMask (n : Nat) (s : State) : (tick n s).evMask = s.evMask := rfl
@[simp] theorem tick_rxView (n : Nat) (s : State) : (tick n s).rxView = s.rxView := rfl
@[simp] theorem tick_now (n : Nat) (s : State) : (tick n s).now = s.now + BitVec.ofNat 32 n := rfl
@[simp] theorem tick_lastRxUs (n : Nat) (s : State) : (tick n s).lastRxUs = s.lastRxUs := rfl
@[simp] theorem tick_lastActUs (n : Nat) (s : State) : (tick n s).lastActUs = s.lastActUs := rfl
@[simp] theorem tick_txStampUs (n : Nat) (s : State) : (tick n s).txStampUs = s.txStampUs := rfl
@[simp] theorem tick_baud (n : Nat) (s : State) : (tick n s).baud = s.baud := rfl
@[simp] theorem tick_silenceUs (n : Nat) (s : State) : (tick n s).silenceUs = s.silenceUs := rfl
@[simp] theorem tick_sendbackUs (n : Nat) (s : State) : (tick n s).sendbackUs = s.sendbackUs := rfl
@[simp] theorem tick_respTimeoutUs (n : Nat) (s : State) : (tick n s).respTimeoutUs = s.respTimeoutUs := rfl
@[simp] theorem tick_station (n : Nat) (s : State) : (tick n s).station = s.station := rfl
@[simp] theorem tick_failKind (n : Nat) (s : State) : (tick n s).failKind = s.failKind := rfl
@[simp] theorem tick_totalFrames (n : Nat) (s : State) : (tick n s).totalFrames = s.totalFrames := rfl
@[simp] theorem tick_failedFrames (n : Nat) (s : State) : (tick n s).failedFrames = s.failedFrames := rfl
@[simp] theorem tick_crc (n : Nat) (s : State) : (tick n s).crc = s.crc := rfl
@[simp] theorem tick_cmdArg0 (n : Nat) (s : State) : (tick n s).cmdArg0 = s.cmdArg0 := rfl
@[simp] theorem tick_cmdArg1 (n : Nat) (s : State) : (tick n s).cmdArg1 = s.cmdArg1 := rfl
@[simp] theorem tick_result (n : Nat) (s : State) : (tick n s).result = s.result := rfl
@[simp] theorem tick_rdata (n : Nat) (s : State) : (tick n s).rdata = s.rdata := rfl
@[simp] theorem tick_hdata (n : Nat) (s : State) : (tick n s).hdata = s.hdata := rfl
@[simp] theorem tick_rxq (n : Nat) (s : State) : (tick n s).rxq = s.rxq := rfl
@[simp] theorem tick_txlog (n : Nat) (s : State) : (tick n s).txlog = s.txlog := rfl
@[simp] theorem tick_inputs (n : Nat) (s : State) : (tick n s).inputs = s.inputs := rfl
@[simp] theorem tick_portData (n : Nat) (s : State) : (tick n s).portData = s.portData := rfl
@[simp] theorem tick_freeCount (n : Nat) (s : State) : (tick n s).freeCount = s.freeCount := rfl

/-! ### `arrive`: an arriving byte (60_exceptions.md R420) -/

@[simp] theorem arrive_params (b : Byte) (s : State) : (arrive b s).params = s.params := rfl
@[simp] theorem arrive_rxBuf (b : Byte) (s : State) : (arrive b s).rxBuf = s.rxBuf := rfl
@[simp] theorem arrive_txBuf (b : Byte) (s : State) : (arrive b s).txBuf = s.txBuf := rfl
@[simp] theorem arrive_rxState (b : Byte) (s : State) : (arrive b s).rxState = s.rxState := rfl
@[simp] theorem arrive_rxLen (b : Byte) (s : State) : (arrive b s).rxLen = s.rxLen := rfl
@[simp] theorem arrive_txLen (b : Byte) (s : State) : (arrive b s).txLen = s.txLen := rfl
@[simp] theorem arrive_rxValid (b : Byte) (s : State) : (arrive b s).rxValid = s.rxValid := rfl
@[simp] theorem arrive_awaiting (b : Byte) (s : State) : (arrive b s).awaiting = s.awaiting := rfl
@[simp] theorem arrive_allowed (b : Byte) (s : State) : (arrive b s).allowed = s.allowed := rfl
@[simp] theorem arrive_txPending (b : Byte) (s : State) : (arrive b s).txPending = s.txPending := rfl
@[simp] theorem arrive_pendingTarget (b : Byte) (s : State) : (arrive b s).pendingTarget = s.pendingTarget := rfl
@[simp] theorem arrive_txVariant (b : Byte) (s : State) : (arrive b s).txVariant = s.txVariant := rfl
@[simp] theorem arrive_txVq (b : Byte) (s : State) : (arrive b s).txVq = s.txVq := rfl
@[simp] theorem arrive_evPending (b : Byte) (s : State) : (arrive b s).evPending = s.evPending := rfl
@[simp] theorem arrive_evMask (b : Byte) (s : State) : (arrive b s).evMask = s.evMask := rfl
@[simp] theorem arrive_rxView (b : Byte) (s : State) : (arrive b s).rxView = s.rxView := rfl
@[simp] theorem arrive_now (b : Byte) (s : State) : (arrive b s).now = s.now := rfl
@[simp] theorem arrive_lastRxUs (b : Byte) (s : State) : (arrive b s).lastRxUs = s.lastRxUs := rfl
@[simp] theorem arrive_lastActUs (b : Byte) (s : State) : (arrive b s).lastActUs = s.lastActUs := rfl
@[simp] theorem arrive_txStampUs (b : Byte) (s : State) : (arrive b s).txStampUs = s.txStampUs := rfl
@[simp] theorem arrive_baud (b : Byte) (s : State) : (arrive b s).baud = s.baud := rfl
@[simp] theorem arrive_silenceUs (b : Byte) (s : State) : (arrive b s).silenceUs = s.silenceUs := rfl
@[simp] theorem arrive_sendbackUs (b : Byte) (s : State) : (arrive b s).sendbackUs = s.sendbackUs := rfl
@[simp] theorem arrive_respTimeoutUs (b : Byte) (s : State) : (arrive b s).respTimeoutUs = s.respTimeoutUs := rfl
@[simp] theorem arrive_station (b : Byte) (s : State) : (arrive b s).station = s.station := rfl
@[simp] theorem arrive_failKind (b : Byte) (s : State) : (arrive b s).failKind = s.failKind := rfl
@[simp] theorem arrive_totalFrames (b : Byte) (s : State) : (arrive b s).totalFrames = s.totalFrames := rfl
@[simp] theorem arrive_failedFrames (b : Byte) (s : State) : (arrive b s).failedFrames = s.failedFrames := rfl
@[simp] theorem arrive_crc (b : Byte) (s : State) : (arrive b s).crc = s.crc := rfl
@[simp] theorem arrive_cmdArg0 (b : Byte) (s : State) : (arrive b s).cmdArg0 = s.cmdArg0 := rfl
@[simp] theorem arrive_cmdArg1 (b : Byte) (s : State) : (arrive b s).cmdArg1 = s.cmdArg1 := rfl
@[simp] theorem arrive_result (b : Byte) (s : State) : (arrive b s).result = s.result := rfl
@[simp] theorem arrive_rdata (b : Byte) (s : State) : (arrive b s).rdata = s.rdata := rfl
@[simp] theorem arrive_hdata (b : Byte) (s : State) : (arrive b s).hdata = s.hdata := rfl
@[simp] theorem arrive_rxq (b : Byte) (s : State) : (arrive b s).rxq = s.rxq ++ [b] := rfl
@[simp] theorem arrive_txlog (b : Byte) (s : State) : (arrive b s).txlog = s.txlog := rfl
@[simp] theorem arrive_inputs (b : Byte) (s : State) : (arrive b s).inputs = s.inputs := rfl
@[simp] theorem arrive_portData (b : Byte) (s : State) : (arrive b s).portData = s.portData := rfl
@[simp] theorem arrive_freeCount (b : Byte) (s : State) : (arrive b s).freeCount = s.freeCount := rfl

/-! ### `readRegister`: a host read (10_state.md R45) -/

@[simp] theorem readRegister_params (r : Register) (s : State) : (readRegister r s).params = s.params := rfl
@[simp] theorem readRegister_rxBuf (r : Register) (s : State) : (readRegister r s).rxBuf = s.rxBuf := rfl
@[simp] theorem readRegister_txBuf (r : Register) (s : State) : (readRegister r s).txBuf = s.txBuf := rfl
@[simp] theorem readRegister_rxState (r : Register) (s : State) : (readRegister r s).rxState = s.rxState := rfl
@[simp] theorem readRegister_rxLen (r : Register) (s : State) : (readRegister r s).rxLen = s.rxLen := rfl
@[simp] theorem readRegister_txLen (r : Register) (s : State) : (readRegister r s).txLen = s.txLen := rfl
@[simp] theorem readRegister_rxValid (r : Register) (s : State) : (readRegister r s).rxValid = s.rxValid := rfl
@[simp] theorem readRegister_awaiting (r : Register) (s : State) : (readRegister r s).awaiting = s.awaiting := rfl
@[simp] theorem readRegister_allowed (r : Register) (s : State) : (readRegister r s).allowed = s.allowed := rfl
@[simp] theorem readRegister_txPending (r : Register) (s : State) : (readRegister r s).txPending = s.txPending := rfl
@[simp] theorem readRegister_pendingTarget (r : Register) (s : State) : (readRegister r s).pendingTarget = s.pendingTarget := rfl
@[simp] theorem readRegister_txVariant (r : Register) (s : State) : (readRegister r s).txVariant = s.txVariant := rfl
@[simp] theorem readRegister_txVq (r : Register) (s : State) : (readRegister r s).txVq = s.txVq := rfl
@[simp] theorem readRegister_evPending (r : Register) (s : State) : (readRegister r s).evPending = s.evPending := rfl
@[simp] theorem readRegister_evMask (r : Register) (s : State) : (readRegister r s).evMask = s.evMask := rfl
@[simp] theorem readRegister_rxView (r : Register) (s : State) : (readRegister r s).rxView = s.rxView := rfl
@[simp] theorem readRegister_now (r : Register) (s : State) : (readRegister r s).now = s.now := rfl
@[simp] theorem readRegister_lastRxUs (r : Register) (s : State) : (readRegister r s).lastRxUs = s.lastRxUs := rfl
@[simp] theorem readRegister_lastActUs (r : Register) (s : State) : (readRegister r s).lastActUs = s.lastActUs := rfl
@[simp] theorem readRegister_txStampUs (r : Register) (s : State) : (readRegister r s).txStampUs = s.txStampUs := rfl
@[simp] theorem readRegister_baud (r : Register) (s : State) : (readRegister r s).baud = s.baud := rfl
@[simp] theorem readRegister_silenceUs (r : Register) (s : State) : (readRegister r s).silenceUs = s.silenceUs := rfl
@[simp] theorem readRegister_sendbackUs (r : Register) (s : State) : (readRegister r s).sendbackUs = s.sendbackUs := rfl
@[simp] theorem readRegister_respTimeoutUs (r : Register) (s : State) : (readRegister r s).respTimeoutUs = s.respTimeoutUs := rfl
@[simp] theorem readRegister_station (r : Register) (s : State) : (readRegister r s).station = s.station := rfl
@[simp] theorem readRegister_failKind (r : Register) (s : State) : (readRegister r s).failKind = s.failKind := rfl
@[simp] theorem readRegister_totalFrames (r : Register) (s : State) : (readRegister r s).totalFrames = s.totalFrames := rfl
@[simp] theorem readRegister_failedFrames (r : Register) (s : State) : (readRegister r s).failedFrames = s.failedFrames := rfl
@[simp] theorem readRegister_crc (r : Register) (s : State) : (readRegister r s).crc = s.crc := rfl
@[simp] theorem readRegister_cmdArg0 (r : Register) (s : State) : (readRegister r s).cmdArg0 = s.cmdArg0 := rfl
@[simp] theorem readRegister_cmdArg1 (r : Register) (s : State) : (readRegister r s).cmdArg1 = s.cmdArg1 := rfl
@[simp] theorem readRegister_result (r : Register) (s : State) : (readRegister r s).result = s.result := rfl
@[simp] theorem readRegister_rdata (r : Register) (s : State) : (readRegister r s).rdata = s.rdata := rfl
@[simp] theorem readRegister_hdata (r : Register) (s : State) : (readRegister r s).hdata = if r = .hdata then s.hdata.tail else s.hdata := rfl
@[simp] theorem readRegister_rxq (r : Register) (s : State) : (readRegister r s).rxq = s.rxq := rfl
@[simp] theorem readRegister_txlog (r : Register) (s : State) : (readRegister r s).txlog = s.txlog := rfl
@[simp] theorem readRegister_inputs (r : Register) (s : State) : (readRegister r s).inputs = s.inputs := rfl
@[simp] theorem readRegister_portData (r : Register) (s : State) : (readRegister r s).portData = registerValue r s := rfl
@[simp] theorem readRegister_freeCount (r : Register) (s : State) : (readRegister r s).freeCount = s.freeCount := rfl

/-! ### `takeInput`: the next step taken off the list (log 2, log 8) -/

@[simp] theorem takeInput_params (i : Input) (rest : List Input) (s : State) : (takeInput i rest s).params = s.params := rfl
@[simp] theorem takeInput_rxBuf (i : Input) (rest : List Input) (s : State) : (takeInput i rest s).rxBuf = s.rxBuf := rfl
@[simp] theorem takeInput_txBuf (i : Input) (rest : List Input) (s : State) : (takeInput i rest s).txBuf = s.txBuf := rfl
@[simp] theorem takeInput_rxState (i : Input) (rest : List Input) (s : State) : (takeInput i rest s).rxState = s.rxState := rfl
@[simp] theorem takeInput_rxLen (i : Input) (rest : List Input) (s : State) : (takeInput i rest s).rxLen = s.rxLen := rfl
@[simp] theorem takeInput_txLen (i : Input) (rest : List Input) (s : State) : (takeInput i rest s).txLen = s.txLen := rfl
@[simp] theorem takeInput_rxValid (i : Input) (rest : List Input) (s : State) : (takeInput i rest s).rxValid = s.rxValid := rfl
@[simp] theorem takeInput_awaiting (i : Input) (rest : List Input) (s : State) : (takeInput i rest s).awaiting = s.awaiting := rfl
@[simp] theorem takeInput_allowed (i : Input) (rest : List Input) (s : State) : (takeInput i rest s).allowed = s.allowed := rfl
@[simp] theorem takeInput_txPending (i : Input) (rest : List Input) (s : State) : (takeInput i rest s).txPending = s.txPending := rfl
@[simp] theorem takeInput_pendingTarget (i : Input) (rest : List Input) (s : State) : (takeInput i rest s).pendingTarget = s.pendingTarget := rfl
@[simp] theorem takeInput_txVariant (i : Input) (rest : List Input) (s : State) : (takeInput i rest s).txVariant = s.txVariant := rfl
@[simp] theorem takeInput_txVq (i : Input) (rest : List Input) (s : State) : (takeInput i rest s).txVq = s.txVq := rfl
@[simp] theorem takeInput_evPending (i : Input) (rest : List Input) (s : State) : (takeInput i rest s).evPending = s.evPending := rfl
@[simp] theorem takeInput_evMask (i : Input) (rest : List Input) (s : State) : (takeInput i rest s).evMask = s.evMask := rfl
@[simp] theorem takeInput_rxView (i : Input) (rest : List Input) (s : State) : (takeInput i rest s).rxView = s.rxView := rfl
@[simp] theorem takeInput_now (i : Input) (rest : List Input) (s : State) : (takeInput i rest s).now = s.now := rfl
@[simp] theorem takeInput_lastRxUs (i : Input) (rest : List Input) (s : State) : (takeInput i rest s).lastRxUs = s.lastRxUs := rfl
@[simp] theorem takeInput_lastActUs (i : Input) (rest : List Input) (s : State) : (takeInput i rest s).lastActUs = s.lastActUs := rfl
@[simp] theorem takeInput_txStampUs (i : Input) (rest : List Input) (s : State) : (takeInput i rest s).txStampUs = s.txStampUs := rfl
@[simp] theorem takeInput_baud (i : Input) (rest : List Input) (s : State) : (takeInput i rest s).baud = s.baud := rfl
@[simp] theorem takeInput_silenceUs (i : Input) (rest : List Input) (s : State) : (takeInput i rest s).silenceUs = s.silenceUs := rfl
@[simp] theorem takeInput_sendbackUs (i : Input) (rest : List Input) (s : State) : (takeInput i rest s).sendbackUs = s.sendbackUs := rfl
@[simp] theorem takeInput_respTimeoutUs (i : Input) (rest : List Input) (s : State) : (takeInput i rest s).respTimeoutUs = s.respTimeoutUs := rfl
@[simp] theorem takeInput_station (i : Input) (rest : List Input) (s : State) : (takeInput i rest s).station = s.station := rfl
@[simp] theorem takeInput_failKind (i : Input) (rest : List Input) (s : State) : (takeInput i rest s).failKind = s.failKind := rfl
@[simp] theorem takeInput_totalFrames (i : Input) (rest : List Input) (s : State) : (takeInput i rest s).totalFrames = s.totalFrames := rfl
@[simp] theorem takeInput_failedFrames (i : Input) (rest : List Input) (s : State) : (takeInput i rest s).failedFrames = s.failedFrames := rfl
@[simp] theorem takeInput_crc (i : Input) (rest : List Input) (s : State) : (takeInput i rest s).crc = s.crc := rfl
@[simp] theorem takeInput_cmdArg0 (i : Input) (rest : List Input) (s : State) : (takeInput i rest s).cmdArg0 = s.cmdArg0 := rfl
@[simp] theorem takeInput_cmdArg1 (i : Input) (rest : List Input) (s : State) : (takeInput i rest s).cmdArg1 = s.cmdArg1 := rfl
@[simp] theorem takeInput_result (i : Input) (rest : List Input) (s : State) : (takeInput i rest s).result = s.result := rfl
@[simp] theorem takeInput_rdata (i : Input) (rest : List Input) (s : State) : (takeInput i rest s).rdata = s.rdata := rfl
@[simp] theorem takeInput_hdata (i : Input) (rest : List Input) (s : State) : (takeInput i rest s).hdata = s.hdata := rfl
@[simp] theorem takeInput_rxq (i : Input) (rest : List Input) (s : State) : (takeInput i rest s).rxq = s.rxq := rfl
@[simp] theorem takeInput_txlog (i : Input) (rest : List Input) (s : State) : (takeInput i rest s).txlog = s.txlog := rfl
@[simp] theorem takeInput_inputs (i : Input) (rest : List Input) (s : State) : (takeInput i rest s).inputs = rest := rfl
@[simp] theorem takeInput_portData (i : Input) (rest : List Input) (s : State) : (takeInput i rest s).portData = s.portData := rfl
@[simp] theorem takeInput_read_freeCount (offset : Nat) (rest : List Input) (s : State) :
    (takeInput (.read offset) rest s).freeCount = s.freeCount := rfl

end Sys2Proof.Machine
end

