-- ==== Sys2Proof/Laws/Roles.lean ====
section
/-! SUPPORT. What a transmission does (45_role_gate.md R335): the bytes it leaves, the group it appends, the flags it moves; that it keeps
the invariant; and the two phases of an update that the role controllers add. -/

namespace Sys2Proof.Machine

/-- The bytes DOXMIT leaves. -/
def sentBuf (station : Byte) (len : Nat) (m : Buf) : Buf := applyCrc (m.write 0 station) len

/-- The station byte of a transmission. -/
def sentStation (target : Byte) (s : State) : Byte := if s.params.role = .master then target else s.station

/-- The state DOXMIT leaves. -/
def sentState (target : Byte) (s : State) : State :=
  { s with
    txBuf := sentBuf (sentStation target s) s.txLen s.txBuf
    txlog := s.txlog ++ txGroup (aduBytes (sentBuf (sentStation target s) s.txLen s.txBuf) s.txLen)
    lastActUs := s.now
    awaiting := if s.params.role = .master then true else s.awaiting
    txStampUs := if s.params.role = .master then s.now else s.txStampUs
    allowed := if s.params.role = .master then s.allowed else false }

theorem doXmit_eq {s : State} (hl : s.txLen + 2 ≤ s.params.cap) (target : Byte) : doXmit target s = .next (sentState target s) := by
  unfold doXmit
  rw [within_of_le hl]
  by_cases hr : s.params.role = .master
  · simp [sentState, sentBuf, sentStation, hr]
  · simp [sentState, sentBuf, sentStation, hr]

theorem doXmit_eq_next {s t : State} {target : Byte} (h : doXmit target s = .next t) :
    s.txLen + 2 ≤ s.params.cap ∧ t = sentState target s := by
  have hl : s.txLen + 2 ≤ s.params.cap := by
    unfold doXmit at h
    exact (within_eq_next h).1
  rw [doXmit_eq hl] at h
  injection h with h
  exact ⟨hl, h.symm⟩

theorem write_slice (m : Buf) (b : Byte) {len : Nat} (h : 1 ≤ len) : (m.write 0 b).slice 0 len = b :: m.slice 1 (len - 1) := by
  obtain ⟨n, rfl⟩ : ∃ n, len = n + 1 := ⟨len - 1, by omega⟩
  rw [Buf.slice_succ, Buf.read_write, if_pos rfl]
  congr 1
  exact Buf.slice_congr fun a h1 h2 => by rw [Buf.read_write, if_neg (by omega)]

theorem sentBuf_read (m : Buf) (b : Byte) {len : Nat} (h : 1 ≤ len) (a : Nat) :
    (sentBuf b len m).read a =
      if a = 0 then b
      else if a = len then lo (crc16 (b :: m.slice 1 (len - 1)))
      else if a = len + 1 then hi (crc16 (b :: m.slice 1 (len - 1)))
      else m.read a := by
  rw [sentBuf, applyCrc_read, write_slice m b h]
  by_cases h0 : a = 0
  · subst h0; rw [if_neg (by omega), if_neg (by omega), if_pos rfl, Buf.read_write, if_pos rfl]
  · rw [if_neg h0, Buf.read_write, if_neg h0]

/-- What a transmission hands to the transport carries its own CRC. -/
theorem sentBuf_crc (m : Buf) (b : Byte) (len : Nat) :
    (aduBytes (sentBuf b len m) len).drop len = crcBytes ((aduBytes (sentBuf b len m) len).take len) := by
  have h := crcMatches_applyCrc (m.write 0 b) len
  simp only [crcMatches, beq_iff_eq] at h
  rw [aduBytes, Buf.drop_slice _ _ _ _ (by omega), Buf.take_slice _ _ _ _ (by omega)]
  simpa [sentBuf] using h

theorem logOk_nil (cap : Nat) : TxEvent.logOk cap [] := ⟨[], rfl, by simp⟩

theorem logOk_append {cap : Nat} {log : List TxEvent} (h : TxEvent.logOk cap log) {frame : List Byte} (h4 : 4 ≤ frame.length)
    (hc : frame.length ≤ cap) (hcrc : frame.drop (frame.length - 2) = crcBytes (frame.take (frame.length - 2))) :
    TxEvent.logOk cap (log ++ txGroup frame) := by
  obtain ⟨frames, rfl, hf⟩ := h
  refine ⟨frames ++ [frame], by simp, fun f hm => ?_⟩
  rcases List.mem_append.1 hm with hm | hm
  · exact hf f hm
  · rw [List.mem_singleton] at hm
    subst hm
    exact ⟨h4, hc, hcrc⟩

/-- A transmission from a good state whose deferred slot is free, and which a slave is allowed, leaves a good state. -/
theorem State.Inv.sent {s : State} (h : s.Inv) (hn : s.txVariant ≠ .none) (hp : s.txPending = false) (target : Byte) :
    (sentState target s).Inv := by
  have h3 := h.three_le_txLen hn
  have hl := h.txLen_le hn
  have hwf : (sentBuf (sentStation target s) s.txLen s.txBuf).wf s.params.cap :=
    applyCrc_wf (Buf.write_wf h.buffers.2 (by omega) _) hl
  have he := h.edited_outside hwf hn fun a h0 h1 h2 => by
    rw [sentBuf_read _ _ (by omega), if_neg h0, if_neg h1, if_neg h2]
  have hlen : (aduBytes (sentBuf (sentStation target s) s.txLen s.txBuf) s.txLen).length = s.txLen + 2 := by simp [aduBytes]
  refine ⟨h.params, he.buffers, h.receiver, h.frame, he.envelope, ?_, h.fifo, ?_⟩
  · have hg := h.gates
    unfold State.gatesOk at hg ⊢
    show match s.params.role with
      | .master => _
      | .slave => _
    cases hr : s.params.role with
    | master =>
      rw [hr] at hg
      refine ⟨?_, hg.2.1, hg.2.2.1, fun hc => ?_⟩
      · simpa [sentState, hr] using hg.1
      · rw [show (sentState target s).txPending = s.txPending from rfl, hp] at hc; cases hc
    | slave =>
      rw [hr] at hg
      refine ⟨?_, hg.2.1, hg.2.2.1, fun hc => ?_⟩
      · simpa [sentState, hr] using hg.1
      · rw [show (sentState target s).txPending = s.txPending from rfl, hp] at hc; cases hc
  · refine logOk_append h.log (by rw [hlen]; omega) (by rw [hlen]; exact hl) ?_
    rw [hlen, Nat.add_sub_cancel]
    exact sentBuf_crc ..

/-! ### The role phases of an update -/

/-- The response timeout either does nothing, or ends a master's wait with the failure entry. -/
theorem responseTimeout_cases (s : State) :
    (responseTimeout s = s ∧ ¬(s.params.role = .master ∧ s.awaiting = true ∧ s.respTimeoutUs.toNat ≤ elapsed s.now s.txStampUs)) ∨
    (s.params.role = .master ∧ s.awaiting = true ∧ s.respTimeoutUs.toNat ≤ elapsed s.now s.txStampUs ∧
      responseTimeout s = raiseFailure .timedout { s with awaiting := false }) := by
  unfold responseTimeout
  split
  · rename_i h; exact .inr ⟨h.1, h.2.1, h.2.2, rfl⟩
  · exact .inl ⟨rfl, ‹_›⟩

/-- The deferred transmission waits, drops a request whose envelope is gone, or transmits. -/
theorem deferredTransmit_eq_next {s t : State} (h : deferredTransmit s = .next t) :
    (t = s ∧ ¬(s.txPending = true ∧ s.sendbackUs.toNat ≤ elapsed s.now s.lastActUs)) ∨
    (s.txPending = true ∧ s.sendbackUs.toNat ≤ elapsed s.now s.lastActUs ∧ s.txVariant = .none ∧
      t = { s with txPending := false }) ∨
    (s.txPending = true ∧ s.sendbackUs.toNat ≤ elapsed s.now s.lastActUs ∧ s.txVariant ≠ .none ∧
      s.txLen + 2 ≤ s.params.cap ∧ t = sentState s.pendingTarget { s with txPending := false }) := by
  unfold deferredTransmit at h
  split at h
  · rename_i hc
    split at h
    · injection h with h
      exact .inr (.inl ⟨hc.1, hc.2, ‹_›, h.symm⟩)
    · obtain ⟨hl, ht⟩ := doXmit_eq_next h
      exact .inr (.inr ⟨hc.1, hc.2, ‹_›, hl, ht⟩)
  · injection h with h
    exact .inl ⟨h.symm, ‹_›⟩

/-- A failure entry keeps the invariant. -/
theorem State.Inv.failed {s : State} (h : s.Inv) (kind : FailKind) : (failureEntry kind s).Inv := by
  refine ⟨h.params, h.buffers, ⟨h.receiver.1, ?_, ?_⟩, ?_, h.envelope, h.gates, h.fifo, h.log⟩
  · simp
  · simp
  · intro hv; simp at hv

theorem State.Inv.counted {s : State} (h : s.Inv) : ({ s with totalFrames := s.totalFrames + 1 } : State).Inv :=
  ⟨h.params, h.buffers, h.receiver, h.frame, h.envelope, h.gates, h.fifo, h.log⟩

/-- A master that stops waiting, and a slave, keep the invariant. -/
theorem State.Inv.stopped {s : State} (h : s.Inv) : ({ s with awaiting := false } : State).Inv := by
  refine ⟨h.params, h.buffers, h.receiver, h.frame, h.envelope, ?_, h.fifo, h.log⟩
  have hg := h.gates
  unfold State.gatesOk at hg ⊢
  dsimp only
  cases hr : s.params.role with
  | master => rw [hr] at hg; exact ⟨hg.1, hg.2.1, hg.2.2.1, fun _ => rfl⟩
  | slave => rw [hr] at hg; exact ⟨rfl, hg.2.1, hg.2.2.1, hg.2.2.2⟩

theorem State.Inv.timedOut {s : State} (h : s.Inv) : (responseTimeout s).Inv := by
  rcases responseTimeout_cases s with ⟨he, -⟩ | ⟨-, -, -, he⟩
  · rw [he]; exact h
  · rw [he]; exact (h.stopped.counted).failed .timedout

/-- Dropping a deferred request keeps the invariant. -/
theorem State.Inv.dropped {s : State} (h : s.Inv) : ({ s with txPending := false } : State).Inv := by
  refine ⟨h.params, h.buffers, h.receiver, h.frame, h.envelope, ?_, h.fifo, h.log⟩
  have hg := h.gates
  unfold State.gatesOk at hg ⊢
  dsimp only
  cases hr : s.params.role with
  | master => rw [hr] at hg; exact ⟨hg.1, hg.2.1, hg.2.2.1, fun hc => nomatch hc⟩
  | slave => rw [hr] at hg; exact ⟨hg.1, hg.2.1, hg.2.2.1, fun hc => nomatch hc⟩

theorem State.Inv.deferred {s t : State} (h : s.Inv) (ht : deferredTransmit s = .next t) : t.Inv := by
  rcases deferredTransmit_eq_next ht with ⟨rfl, -⟩ | ⟨-, -, -, rfl⟩ | ⟨-, -, hn, -, rfl⟩
  · exact h
  · exact h.dropped
  · exact h.dropped.sent hn rfl _

end Sys2Proof.Machine
end

