-- ==== Sys2Proof/Laws/Framing.lean ====
section
/-! SUPPORT. What the phases of an update can do (44_framing_fsm.md): the bytes a drain moves, the ways a frame can end, what executing a
wire form is, and that each keeps the invariant. -/

namespace Sys2Proof.Machine

/-- Elapsed time is the difference of the two registers modulo 2^32 (60_exceptions.md R416). -/
theorem elapsed_eq_mod (now t0 : Word) : elapsed now t0 = (2 ^ 32 - t0.toNat + now.toNat) % 2 ^ 32 := BitVec.toNat_sub now t0

/-! ### Executing a wire form -/

theorem deliver_eq_delivering (station : Byte) (view : View) (s : State) : deliver station view s = s.delivering station view := by
  simp only [deliver, State.delivering]
  congr 1
  by_cases h1 : s.params.role = .slave <;> by_cases h2 : station = s.station <;> simp [h1, h2]

theorem runFrame_eq (f : Frame) (s : State) : runFrame f s = .next (deliver f.station (formView f.form f.payload) s) := by
  obtain ⟨form, st, p⟩ := f
  cases form <;> rfl

theorem runFrame_eq_exec (f : Frame) (s : State) : runFrame f s = exec f.toInstr s := by
  obtain ⟨form, st, p⟩ := f
  cases form <;> rfl

/-- Every wire form is the instruction of a frame. -/
theorem exists_frame_of_isWire {i : Instr} (h : i.isWire = true) : ∃ f : Frame, i = f.toInstr := by
  cases i with
  | rdcoilsReq st p => exact ⟨⟨.rdcoilsReq, st, p⟩, rfl⟩
  | rddiscReq st p => exact ⟨⟨.rddiscReq, st, p⟩, rfl⟩
  | rdholdReq st p => exact ⟨⟨.rdholdReq, st, p⟩, rfl⟩
  | rdinputReq st p => exact ⟨⟨.rdinputReq, st, p⟩, rfl⟩
  | rdcoilsRsp st p => exact ⟨⟨.rdcoilsRsp, st, p⟩, rfl⟩
  | rddiscRsp st p => exact ⟨⟨.rddiscRsp, st, p⟩, rfl⟩
  | rdholdRsp st p => exact ⟨⟨.rdholdRsp, st, p⟩, rfl⟩
  | rdinputRsp st p => exact ⟨⟨.rdinputRsp, st, p⟩, rfl⟩
  | wrcoilReq st p => exact ⟨⟨.wrcoilReq, st, p⟩, rfl⟩
  | wrcoilRsp st p => exact ⟨⟨.wrcoilRsp, st, p⟩, rfl⟩
  | wrregReq st p => exact ⟨⟨.wrregReq, st, p⟩, rfl⟩
  | wrregRsp st p => exact ⟨⟨.wrregRsp, st, p⟩, rfl⟩
  | wrcoilsReq st p => exact ⟨⟨.wrcoilsReq, st, p⟩, rfl⟩
  | wrcoilsRsp st p => exact ⟨⟨.wrcoilsRsp, st, p⟩, rfl⟩
  | wrregsReq st p => exact ⟨⟨.wrregsReq, st, p⟩, rfl⟩
  | wrregsRsp st p => exact ⟨⟨.wrregsRsp, st, p⟩, rfl⟩
  | diagRsp base st p => exact ⟨⟨.diagRsp base, st, p⟩, rfl⟩
  | _ => cases h

/-- Executing a wire form is the delivery of its view. -/
theorem exec_isWire {i : Instr} (h : i.isWire = true) (s : State) : ∃ station view, exec i s = .next (deliver station view s) := by
  obtain ⟨f, rfl⟩ := exists_frame_of_isWire h
  exact ⟨_, _, by rw [← runFrame_eq_exec, runFrame_eq]⟩

/-! ### The drain -/

@[simp] theorem drain_of_empty {s : State} (h : s.rxq = []) : drain s = s := by
  unfold drain
  rw [h]
  simp [drainFrom, ← h]

/-- A drain inside a frame moves as many bytes as there is room for. -/
theorem drainFrom_eq (q : List Byte) (s : State) (hw : s.rxState ≠ .waitStation) :
    drainFrom q s = { s with
      rxBuf := s.rxBuf.writeAll s.rxLen (q.take (s.params.cap - s.rxLen))
      rxq := q.drop (s.params.cap - s.rxLen)
      rxLen := s.rxLen + min q.length (s.params.cap - s.rxLen)
      rxState := if min q.length (s.params.cap - s.rxLen) = 0 then s.rxState else .waitData
      lastRxUs := if min q.length (s.params.cap - s.rxLen) = 0 then s.lastRxUs else s.now
      lastActUs := if min q.length (s.params.cap - s.rxLen) = 0 then s.lastActUs else s.now } := by
  induction q generalizing s with
  | nil => simp [drainFrom, Buf.writeAll]
  | cons b q ih =>
    unfold drainFrom
    by_cases hc : s.rxLen < s.params.cap
    · rw [if_pos (.inr hc)]
      have hr : rxByte b s = { s with
          rxState := .waitData, rxBuf := s.rxBuf.write s.rxLen b, rxLen := s.rxLen + 1, lastRxUs := s.now, lastActUs := s.now } := by
        unfold rxByte
        cases h : s.rxState with
        | waitStation => exact absurd h hw
        | waitFunctionCode => rfl
        | waitData => rfl
      rw [hr, ih _ (by simp)]
      obtain ⟨d, hd⟩ : ∃ d, s.params.cap - s.rxLen = d + 1 := ⟨s.params.cap - s.rxLen - 1, by omega⟩
      have hd' : s.params.cap - (s.rxLen + 1) = d := by omega
      simp only [hd, hd', List.take_succ_cons, List.drop_succ_cons, Buf.writeAll, List.length_cons, Nat.succ_min_succ]
      have h1 : ∀ n : Nat, s.rxLen + 1 + n = s.rxLen + (n + 1) := by omega
      simp [h1]
    · rw [if_neg (by simp [hw, hc])]
      have hz : s.params.cap - s.rxLen = 0 := by omega
      simp [hz, Buf.writeAll]

/-- Where the next byte goes: a byte in WaitStation starts a new frame. -/
def drainStart (s : State) : Nat := if s.rxState = .waitStation then 0 else s.rxLen

/-- How many bytes a drain moves. -/
def drainCount (s : State) : Nat := min s.rxq.length (s.params.cap - drainStart s)

/-- A drain that moves nothing changes nothing; one that moves bytes writes them in order and stamps the frame. -/
theorem drain_eq {s : State} (h1 : 1 ≤ s.params.cap) :
    (drainCount s = 0 ∧ drain s = s) ∨
    (0 < drainCount s ∧ drain s = { s with
      rxBuf := s.rxBuf.writeAll (drainStart s) (s.rxq.take (drainCount s))
      rxq := s.rxq.drop (drainCount s)
      rxLen := drainStart s + drainCount s
      rxState := if s.rxState = .waitStation ∧ drainCount s = 1 then .waitFunctionCode else .waitData
      rxValid := if s.rxState = .waitStation then false else s.rxValid
      lastRxUs := s.now
      lastActUs := s.now }) := by
  by_cases hw : s.rxState = .waitStation
  · have hs : drainStart s = 0 := by simp [drainStart, hw]
    have hd : drainCount s = min s.rxq.length s.params.cap := by simp [drainCount, hs]
    rcases hq : s.rxq with _ | ⟨b, q⟩
    · exact .inl ⟨by rw [hd, hq]; simp, drain_of_empty hq⟩
    · right
      obtain ⟨d, hcap⟩ : ∃ d, s.params.cap = d + 1 := ⟨s.params.cap - 1, by omega⟩
      have hd2 : drainCount s = min q.length d + 1 := by rw [hd, hq, hcap]; simp
      refine ⟨by omega, ?_⟩
      have htake : (b :: q).take (min q.length d + 1) = b :: q.take d := by
        rw [List.take_succ_cons]; congr 1
        rcases Nat.le_total q.length d with h | h
        · rw [Nat.min_eq_left h, List.take_of_length_le h, List.take_of_length_le (Nat.le_refl _)]
        · rw [Nat.min_eq_right h]
      have hdrop : (b :: q).drop (min q.length d + 1) = q.drop d := by
        rw [List.drop_succ_cons]
        rcases Nat.le_total q.length d with h | h
        · rw [Nat.min_eq_left h, List.drop_of_length_le h, List.drop_of_length_le (Nat.le_refl _)]
        · rw [Nat.min_eq_right h]
      have hr : rxByte b s = { s with
          rxState := .waitFunctionCode, rxValid := false, rxBuf := s.rxBuf.write 0 b, rxLen := 1, lastRxUs := s.now
          lastActUs := s.now } := by
        unfold rxByte
        simp [hw]
      unfold drain
      rw [hq]
      unfold drainFrom
      rw [if_pos (.inl hw), hr, drainFrom_eq _ _ (by simp)]
      simp only [hcap, Nat.add_sub_cancel, hs, hd2, htake, hdrop, hw, if_true, Buf.writeAll, true_and,
        Nat.zero_add, ite_self]
      have h2 : 1 + min q.length d = min q.length d + 1 := by omega
      rw [h2]
      congr 1
      by_cases h0 : min q.length d = 0
      · simp [h0]
      · simp [h0]
  · have hs : drainStart s = s.rxLen := by simp [drainStart, hw]
    have hd : drainCount s = min s.rxq.length (s.params.cap - s.rxLen) := by simp [drainCount, hs]
    have he := drainFrom_eq s.rxq s hw
    rcases Nat.eq_zero_or_pos (drainCount s) with h0 | h0
    · refine .inl ⟨h0, ?_⟩
      have : s.rxq = [] ∨ s.params.cap - s.rxLen = 0 := by
        rw [hd] at h0
        rcases Nat.eq_zero_or_pos (s.params.cap - s.rxLen) with h | h
        · exact .inr h
        · refine .inl (List.eq_nil_of_length_eq_zero (by omega))
      rcases this with h | h
      · exact drain_of_empty h
      · show drainFrom s.rxq s = s
        rw [he]
        simp [h, Buf.writeAll]
    · refine .inr ⟨h0, ?_⟩
      have htake : s.rxq.take (s.params.cap - s.rxLen) = s.rxq.take (drainCount s) := by
        rw [hd]
        rcases Nat.le_total s.rxq.length (s.params.cap - s.rxLen) with h | h
        · rw [Nat.min_eq_left h, List.take_of_length_le h, List.take_of_length_le (Nat.le_refl _)]
        · rw [Nat.min_eq_right h]
      have hdrop : s.rxq.drop (s.params.cap - s.rxLen) = s.rxq.drop (drainCount s) := by
        rw [hd]
        rcases Nat.le_total s.rxq.length (s.params.cap - s.rxLen) with h | h
        · rw [Nat.min_eq_left h, List.drop_of_length_le h, List.drop_of_length_le (Nat.le_refl _)]
        · rw [Nat.min_eq_right h]
      show drainFrom s.rxq s = _
      rw [he, ← hd, htake, hdrop, hs]
      simp [hw, Nat.pos_iff_ne_zero.1 h0]

/-- What a drain never touches. -/
theorem drain_keeps (s : State) (h1 : 1 ≤ s.params.cap) :
    drain s = { s with
      rxBuf := (drain s).rxBuf, rxq := (drain s).rxq, rxLen := (drain s).rxLen, rxState := (drain s).rxState
      rxValid := (drain s).rxValid, lastRxUs := (drain s).lastRxUs, lastActUs := (drain s).lastActUs } := by
  rcases drain_eq h1 with ⟨-, h⟩ | ⟨-, h⟩ <;> rw [h]

theorem State.Inv.drained {s : State} (h : s.Inv) : (drain s).Inv := by
  have hcap := h.cap_ge
  rcases drain_eq (s := s) (by omega) with ⟨-, he⟩ | ⟨h0, he⟩
  · rw [he]; exact h
  · obtain ⟨hlen, hfc, hdat⟩ := h.receiver
    have hst : drainStart s + drainCount s ≤ s.params.cap := by
      unfold drainCount
      have : drainStart s ≤ s.params.cap := by unfold drainStart; split <;> omega
      omega
    rw [he]
    refine ⟨h.params, ⟨?_, h.buffers.2⟩, ⟨hst, ?_, ?_⟩, ?_, h.envelope, h.gates, h.fifo, h.log⟩
    · refine Buf.writeAll_wf h.buffers.1 ?_
      rw [List.length_take]
      omega
    · intro hc
      dsimp only at hc ⊢
      split at hc
      · rename_i hh
        simp [drainStart, hh.1, hh.2]
      · cases hc
    · intro hc
      dsimp only at hc ⊢
      split at hc
      · cases hc
      · rename_i hh
        by_cases hw : s.rxState = .waitStation
        · have : drainCount s ≠ 1 := fun h => hh ⟨hw, h⟩
          omega
        · have : 1 ≤ s.rxLen := by
            cases hr : s.rxState with
            | waitStation => exact absurd hr hw
            | waitFunctionCode => rw [hfc hr]
            | waitData => have := hdat hr; omega
          simp only [drainStart, hw, if_false]
          omega
    · intro hv
      dsimp only at hv
      split at hv
      · cases hv
      · exact absurd (h.frame hv).1 ‹_›

/-! ### The end of a frame -/

/-- The frame a completion counts. -/
def frameCounted (s : State) : State :=
  { s with
    totalFrames := s.totalFrames + 1
    awaiting := if s.params.role = .master then false else s.awaiting }

/-- A completion fails the CRC, fails the function code, or delivers the frame's form. -/
theorem complete_cases (s : State) (h4 : 4 ≤ s.rxLen) :
    (crcMatches s.rxBuf (s.rxLen - 2) = false ∧ complete s = .next (failureEntry .verifyFailed (frameCounted s))) ∨
    (crcMatches s.rxBuf (s.rxLen - 2) = true ∧
      wireFormOf (s.rxBuf.read 1) (decide (s.params.role = .master)) = none ∧
      complete s = .next (failureEntry .unsupportedFunctionCode (frameCounted s))) ∨
    (crcMatches s.rxBuf (s.rxLen - 2) = true ∧
      ∃ form, wireFormOf (s.rxBuf.read 1) (decide (s.params.role = .master)) = some form ∧
        complete s = .next (deliver (s.rxBuf.read 0) (formView form (s.rxBuf.slice 2 (s.rxLen - 4))) (frameCounted s))) := by
  obtain ⟨n, hn⟩ : ∃ n, s.rxLen = n + 4 := ⟨s.rxLen - 4, by omega⟩
  have hsl : s.rxBuf.slice 0 s.rxLen = s.rxBuf.read 0 :: s.rxBuf.read 1 :: s.rxBuf.slice 2 (n + 2) := by
    rw [hn, Buf.slice_succ, Buf.slice_succ]
  have htake : (s.rxBuf.slice 2 (n + 2)).take n = s.rxBuf.slice 2 n := Buf.take_slice _ _ _ _ (by omega)
  have hdrop : (s.rxBuf.slice 2 (n + 2)).drop n = s.rxBuf.slice (n + 2) 2 := by
    rw [Buf.drop_slice _ _ _ _ (by omega), Nat.add_comm 2 n]; congr 1; omega
  have hbody : s.rxBuf.slice 0 (n + 2) = s.rxBuf.read 0 :: s.rxBuf.read 1 :: s.rxBuf.slice 2 n := by
    rw [Buf.slice_succ, Buf.slice_succ]
  have hcm : crcMatches s.rxBuf (s.rxLen - 2) = true ↔
      s.rxBuf.slice (n + 2) 2 = crcBytes (s.rxBuf.read 0 :: s.rxBuf.read 1 :: s.rxBuf.slice 2 n) := by
    rw [hn, show n + 4 - 2 = n + 2 by omega, crcMatches, hbody, beq_iff_eq]
  have hcomp : complete s = match decodeFrame (decide (s.params.role = .master)) (s.rxBuf.slice 0 s.rxLen) with
      | .ok f => runFrame f (frameCounted s)
      | .error (.unsupportedFunctionCode _) => .next (failureEntry .unsupportedFunctionCode (frameCounted s))
      | .error _ => .next (failureEntry .verifyFailed (frameCounted s)) := rfl
  rw [hcomp, hsl]
  unfold decodeFrame
  simp only [Buf.length_slice, Nat.add_sub_cancel, htake, hdrop]
  rw [if_neg (by omega)]
  by_cases hc : s.rxBuf.slice (n + 2) 2 = crcBytes (s.rxBuf.read 0 :: s.rxBuf.read 1 :: s.rxBuf.slice 2 n)
  · rw [if_neg (by simpa using hc)]
    cases hf : wireFormOf (s.rxBuf.read 1) (decide (s.params.role = .master)) with
    | none => exact .inr (.inl ⟨hcm.2 hc, rfl, rfl⟩)
    | some form =>
      refine .inr (.inr ⟨hcm.2 hc, form, rfl, ?_⟩)
      show runFrame _ _ = _
      rw [runFrame_eq, show s.rxLen - 4 = n by omega]
  · rw [if_pos (by simpa using hc)]
    exact .inl ⟨Bool.eq_false_iff.2 fun h => hc (hcm.1 h), rfl⟩

/-- The ways an end check can go (44_framing_fsm.md R302). -/
theorem endCheck_cases (s : State) :
    ((s.rxState = .waitStation ∨ (s.rxLen < s.params.cap ∧ elapsed s.now s.lastRxUs ≤ s.silenceUs.toNat)) ∧
      endCheck s = .next s) ∨
    (s.rxState ≠ .waitStation ∧ s.params.cap ≤ s.rxLen ∧ endCheck s = .next (raiseFailure .overflow s)) ∨
    (s.rxState ≠ .waitStation ∧ s.rxLen < s.params.cap ∧ s.silenceUs.toNat < elapsed s.now s.lastRxUs ∧ s.rxLen < 4 ∧
      endCheck s = .next (raiseFailure .timedout s)) ∨
    (s.rxState ≠ .waitStation ∧ s.rxLen < s.params.cap ∧ s.silenceUs.toNat < elapsed s.now s.lastRxUs ∧ 4 ≤ s.rxLen ∧
      endCheck s = complete s) := by
  unfold endCheck minAdu
  by_cases h0 : s.rxState = .waitStation
  · exact .inl ⟨.inl h0, if_pos h0⟩
  · rw [if_neg h0]
    by_cases h1 : s.params.cap ≤ s.rxLen
    · exact .inr (.inl ⟨h0, h1, if_pos h1⟩)
    · rw [if_neg h1]
      by_cases h2 : s.silenceUs.toNat < elapsed s.now s.lastRxUs
      · rw [if_pos h2]
        by_cases h3 : s.rxLen < 4
        · exact .inr (.inr (.inl ⟨h0, by omega, h2, h3, if_pos h3⟩))
        · exact .inr (.inr (.inr ⟨h0, by omega, h2, by omega, if_neg h3⟩))
      · exact .inl ⟨.inr ⟨by omega, by omega⟩, if_neg h2⟩

/-- A completion's count of the frame keeps the invariant. -/
theorem State.Inv.completionCounted {s : State} (h : s.Inv) : (frameCounted s).Inv := by
  have h' := h.counted
  by_cases hr : s.params.role = .master
  · have := h'.stopped
    simpa [frameCounted, hr] using this
  · simpa [frameCounted, hr] using h'

theorem State.Inv.delivered {s : State} (h : s.Inv) {form : WireForm} (h4 : 4 ≤ s.rxLen) (hcap : s.rxLen + 1 ≤ s.params.cap)
    (hc : crcMatches s.rxBuf (s.rxLen - 2) = true)
    (hf : wireFormOf (s.rxBuf.read 1) (decide (s.params.role = .master)) = some form) :
    (deliver (s.rxBuf.read 0) (formView form (s.rxBuf.slice 2 (s.rxLen - 4))) s).Inv := by
  refine ⟨h.params, h.buffers, ⟨h.receiver.1, ?_, ?_⟩, fun _ => ⟨rfl, h4, hcap, hc, ?_, ?_⟩, h.envelope, ?_, h.fifo, h.log⟩
  · simp
  · simp
  · exact (pduDecode_some hf _).symm
  · exact formView_status _ _
  · have hg := h.gates
    unfold State.gatesOk at hg ⊢
    simp only [deliver_params, deliver_allowed, deliver_station, deliver_pendingTarget, deliver_txPending, deliver_awaiting]
    cases hr : s.params.role with
    | master => rw [hr] at hg; simpa using hg
    | slave =>
      rw [hr] at hg
      refine ⟨hg.1, hg.2.1, hg.2.2.1, fun hp => ?_⟩
      rw [hg.2.2.2 hp, Bool.true_or]

theorem State.Inv.raised {s : State} (h : s.Inv) (kind : FailKind) : (raiseFailure kind s).Inv := h.counted.failed kind

/-- The end check of a good state goes on, to a good state. -/
theorem State.Inv.framed {s : State} (h : s.Inv) : ∃ t, endCheck s = .next t ∧ t.Inv := by
  rcases endCheck_cases s with ⟨-, he⟩ | ⟨-, -, he⟩ | ⟨-, -, -, -, he⟩ | ⟨-, hcap, -, h4, he⟩
  · exact ⟨_, he, h⟩
  · exact ⟨_, he, h.raised _⟩
  · exact ⟨_, he, h.raised _⟩
  · rw [he]
    rcases complete_cases s h4 with ⟨-, hc⟩ | ⟨-, -, hc⟩ | ⟨hm, form, hf, hc⟩
    · exact ⟨_, hc, h.completionCounted.failed _⟩
    · exact ⟨_, hc, h.completionCounted.failed _⟩
    · exact ⟨_, hc, h.completionCounted.delivered h4 hcap hm hf⟩

/-- The deferred transmission of a good state goes on. -/
theorem State.Inv.deferredContinues {s : State} (h : s.Inv) : ∃ t, deferredTransmit s = .next t := by
  unfold deferredTransmit
  split
  · split
    · exact ⟨_, rfl⟩
    · rename_i hn
      exact ⟨_, doXmit_eq (s := { s with txPending := false }) (h.txLen_le hn) _⟩
  · exact ⟨_, rfl⟩

/-- An update of a good state goes through its four phases, each of which leaves a good state. -/
theorem State.Inv.update {s : State} (h : s.Inv) :
    ∃ framed sent, endCheck (drain s) = .next framed ∧ deferredTransmit (responseTimeout framed) = .next sent ∧
      (drain s).Inv ∧ framed.Inv ∧ (responseTimeout framed).Inv ∧ sent.Inv ∧
      execFsmUpdate s = .next { sent with result := .ok, rdata := 0 } := by
  have hcap := h.cap_ge
  have hd := h.drained
  obtain ⟨framed, hf, hfi⟩ := hd.framed
  obtain ⟨sent, hs⟩ := hfi.timedOut.deferredContinues
  refine ⟨framed, sent, hf, hs, hd, hfi, hfi.timedOut, hfi.timedOut.deferred hs, ?_⟩
  unfold execFsmUpdate
  rw [within_of_le (by omega), hf, chain_next, hs]
  rfl

/-- An update that goes on went through its four phases. -/
theorem execFsmUpdate_eq_next {s t : State} (h : execFsmUpdate s = .next t) :
    1 ≤ s.params.cap ∧ ∃ framed sent, endCheck (drain s) = .next framed ∧ deferredTransmit (responseTimeout framed) = .next sent ∧
      t = { sent with result := .ok, rdata := 0 } := by
  unfold execFsmUpdate at h
  obtain ⟨h1, h⟩ := within_eq_next h
  obtain ⟨framed, hf, h⟩ := chain_eq_next h
  obtain ⟨sent, hs, h⟩ := chain_eq_next h
  injection h with h
  exact ⟨h1, framed, sent, hf, hs, h.symm⟩

end Sys2Proof.Machine
end

