-- ==== Sys2Proof/Laws/Frames.lean ====
section
/-! SUPPORT. The frame of every command, by shape: when it goes on, the fields it can have written are named, and every other field is as
before. -/

namespace Sys2Proof.Machine

variable {s t : State}

/-- Nothing but the answer is written. -/
def OnlyAnswers (s t : State) : Prop := t = { s with result := t.result, rdata := t.rdata }

/-- Nothing but bytes of `tx_buf` and the answer is written. -/
def OnlyEdits (s t : State) : Prop := t = { s with txBuf := t.txBuf, result := t.result, rdata := t.rdata }

/-- Nothing but the envelope and the answer is written. -/
def OnlyReplaces (s t : State) : Prop :=
  t = { s with
    txBuf := t.txBuf, txVariant := t.txVariant, txLen := t.txLen, txVq := t.txVq, result := t.result, rdata := t.rdata }

/-- Nothing but the envelope's elements, `hdata` and the answer is written. -/
def OnlyStores (s t : State) : Prop :=
  t = { s with txBuf := t.txBuf, txLen := t.txLen, txVq := t.txVq, hdata := t.hdata, result := t.result, rdata := t.rdata }

theorem onlyAnswers_of_done {code : ResultCode} {value : Word} (h : done s code value = .next t) : OnlyAnswers s t := by
  injection h with h
  subst h
  rfl

theorem OnlyAnswers.edits (h : OnlyAnswers s t) : OnlyEdits s t := by
  unfold OnlyAnswers at h
  unfold OnlyEdits
  rw [h]

theorem OnlyAnswers.stores (h : OnlyAnswers s t) : OnlyStores s t := by
  unfold OnlyAnswers at h
  unfold OnlyStores
  rw [h]

theorem OnlyAnswers.replaces (h : OnlyAnswers s t) : OnlyReplaces s t := by
  unfold OnlyAnswers at h
  unfold OnlyReplaces
  rw [h]

/-! ### Guards -/

theorem onlyAnswers_withSelected {sel : Sel} {k : Selected → Outcome} (hk : ∀ f, k f = .next t → OnlyAnswers s t)
    (h : withSelected sel s k = .next t) : OnlyAnswers s t := by
  rcases withSelected_eq_next h with ⟨-, rfl⟩ | ⟨f, -, -, h⟩
  · rfl
  · exact hk f h

theorem onlyEdits_withEnvelope {k : Outcome} (hk : k = .next t → OnlyEdits s t) (h : withEnvelope s k = .next t) :
    OnlyEdits s t := by
  rcases withEnvelope_eq_next h with ⟨-, rfl⟩ | ⟨-, -, h⟩
  · rfl
  · exact hk h

theorem onlyStores_storeValues {es : List Half} {q : List Half} (h : storeValues es { s with hdata := q } = .next t) :
    OnlyStores s t := by
  rcases storeValues_eq_next h with ⟨-, rfl⟩ | ⟨-, rfl⟩ <;> rfl

theorem onlyStores_withElements {cls : Variant → Bool} {k : Outcome} (hk : k = .next t → OnlyStores s t)
    (h : withElements cls s k = .next t) : OnlyStores s t := by
  rcases withElements_eq_next h with ⟨-, rfl⟩ | ⟨-, -, rfl⟩ | ⟨-, -, -, -, h⟩
  · rfl
  · rfl
  · exact hk h

/-! ### The frames -/

theorem execEnvVerifycrc_frame {sel : Sel} (h : execEnvVerifycrc sel s = .next t) : OnlyAnswers s t := by
  cases sel with
  | rx =>
    unfold execEnvVerifycrc at h
    dsimp only at h
    split at h
    · exact onlyAnswers_of_done h
    · exact onlyAnswers_of_done (within_eq_next h).2
  | tx =>
    rcases withEnvelope_eq_next h with ⟨-, rfl⟩ | ⟨-, -, h⟩
    · rfl
    · exact onlyAnswers_of_done h

theorem execEnvApplycrc_frame (h : execEnvApplycrc s = .next t) : OnlyEdits s t := by
  refine onlyEdits_withEnvelope (fun h => ?_) h
  injection h with h
  subst h
  rfl

theorem createEnvelope_frame {v : Variant} {fcb : Byte} (h : createEnvelope v fcb s = .next t) : OnlyReplaces s t := by
  unfold createEnvelope at h
  split at h
  · injection h with h
    subst h
    rfl
  · have := (within_eq_next h).2
    injection this with h
    subst h
    rfl

theorem execPlGetf_frame {sel : Sel} {field : BitVec 4} (h : execPlGetf sel field s = .next t) : OnlyAnswers s t := by
  refine onlyAnswers_withSelected (fun f h => ?_) h
  split at h <;> exact onlyAnswers_of_done h

theorem execPlSetf_frame {value : Half} {field : BitVec 4} (h : execPlSetf value field s = .next t) : OnlyEdits s t := by
  refine onlyEdits_withEnvelope (fun h => ?_) h
  split at h
  · exact (onlyAnswers_of_done h).edits
  · split at h
    · exact (onlyAnswers_of_done h).edits
    · split at h
      · exact (onlyAnswers_of_done h).edits
      · split at h
        · exact (onlyAnswers_of_done h).edits
        · have := (within_eq_next h).2
          injection this with h
          subst h
          rfl

theorem execPlResize_frame {q : Half} (h : execPlResize q s = .next t) : OnlyStores s t := by
  rcases withEnvelope_eq_next h with ⟨-, rfl⟩ | ⟨-, -, h⟩
  · rfl
  · split at h
    · exact onlyStores_storeValues (q := s.hdata) h
    · exact (onlyAnswers_of_done h).stores

/-- PL.RESIZE leaves `hdata` alone. -/
theorem execPlResize_hdata {q : Half} (h : execPlResize q s = .next t) : t.hdata = s.hdata := by
  rcases withEnvelope_eq_next h with ⟨-, rfl⟩ | ⟨-, -, h⟩
  · rfl
  · split at h
    · rcases storeValues_eq_next h with ⟨-, rfl⟩ | ⟨-, rfl⟩ <;> rfl
    · injection h with h
      subst h
      rfl

theorem execPlGetbit_frame {sel : Sel} {i : Half} (h : execPlGetbit sel i s = .next t) : OnlyAnswers s t := by
  refine onlyAnswers_withSelected (fun f h => ?_) h
  split at h
  · exact onlyAnswers_of_done h
  · split at h
    · exact onlyAnswers_of_done h
    · exact onlyAnswers_of_done (within_eq_next h).2

theorem execPlGetreg_frame {sel : Sel} {i : Half} (h : execPlGetreg sel i s = .next t) : OnlyAnswers s t := by
  refine onlyAnswers_withSelected (fun f h => ?_) h
  split at h
  · exact onlyAnswers_of_done h
  · split at h
    · exact onlyAnswers_of_done h
    · exact onlyAnswers_of_done (within_eq_next h).2

theorem execPlSetbit_frame {b : Bool} {i : Half} (h : execPlSetbit b i s = .next t) : OnlyEdits s t := by
  refine onlyEdits_withEnvelope (fun h => ?_) h
  split at h
  · exact (onlyAnswers_of_done h).edits
  · split at h
    · exact (onlyAnswers_of_done h).edits
    · have := (within_eq_next h).2
      injection this with h
      subst h
      rfl

theorem execPlSetreg_frame {w i : Half} (h : execPlSetreg w i s = .next t) : OnlyEdits s t := by
  refine onlyEdits_withEnvelope (fun h => ?_) h
  split at h
  · exact (onlyAnswers_of_done h).edits
  · split at h
    · exact (onlyAnswers_of_done h).edits
    · have := (within_eq_next h).2
      injection this with h
      subst h
      rfl

theorem insertElems_frame {cls : Variant → Bool} {place : List Half → List Half → List Half} {n : Nat}
    (h : insertElems cls place n s = .next t) : OnlyStores s t := by
  refine onlyStores_withElements (fun h => ?_) h
  split at h
  · exact (onlyAnswers_of_done h).stores
  · exact onlyStores_storeValues h

theorem removeElems_frame {cls : Variant → Bool} {cut : List Half → List Half × List Half} {n : Nat}
    (h : removeElems cls cut n s = .next t) : OnlyStores s t := by
  refine onlyStores_withElements (fun h => ?_) h
  split at h
  · exact (onlyAnswers_of_done h).stores
  · exact onlyStores_storeValues h

/-- An admitted command of the gate: there is an envelope, the target is legal on a master, and the gate is open. -/
theorem gate_ok {target : Byte} (h : gate target s = .ok) :
    s.txVariant ≠ .none ∧ ¬(s.params.role = .master ∧ 247 < target.toNat) ∧ availTx s = true := by
  unfold gate at h
  split at h
  · cases h
  · split at h
    · cases h
    · split at h
      · cases h
      · exact ⟨‹_›, ‹_›, by simpa using ‹¬availTx s = false›⟩

/-- ROLE.XMIT that goes on was refused by the gate with nothing done, or sent the frame. -/
theorem execRoleXmit_eq_next {target : Byte} (h : execRoleXmit target s = .next t) :
    (gate target s ≠ .ok ∧ t = { s with result := gate target s, rdata := 0 }) ∨
    (gate target s = .ok ∧ t = { sentState target s with result := .ok, rdata := 0 }) := by
  unfold execRoleXmit at h
  cases hg : gate target s with
  | ok =>
    rw [hg] at h
    obtain ⟨u, hu, hd⟩ := chain_eq_next h
    obtain ⟨-, rfl⟩ := doXmit_eq_next hu
    injection hd with hd
    exact .inr ⟨rfl, hd.symm⟩
  | _ =>
    rw [hg] at h
    injection h with h
    exact .inl ⟨by simp, h.symm⟩

/-- ROLE.XMITDEF that goes on was refused by the gate with nothing done, or recorded the intent. -/
theorem execRoleXmitdef_eq_next {target : Byte} (h : execRoleXmitdef target s = .next t) :
    (gate target s ≠ .ok ∧ t = { s with result := gate target s, rdata := 0 }) ∨
    (gate target s = .ok ∧ t = { s with
      txPending := true
      pendingTarget := if s.params.role = .master then target else 0
      result := .ok
      rdata := 0 }) := by
  unfold execRoleXmitdef at h
  cases hg : gate target s with
  | ok =>
    rw [hg] at h
    injection h with h
    exact .inr ⟨rfl, h.symm⟩
  | _ =>
    rw [hg] at h
    injection h with h
    exact .inl ⟨by simp, h.symm⟩

theorem execSysRdbuf_frame {sel : Sel} {off : Half} (h : execSysRdbuf sel off s = .next t) : OnlyAnswers s t := by
  cases sel with
  | rx =>
    unfold execSysRdbuf at h
    dsimp only at h
    split at h
    · exact onlyAnswers_of_done h
    · exact onlyAnswers_of_done (within_eq_next h).2
  | tx =>
    unfold execSysRdbuf at h
    dsimp only at h
    split at h
    · exact onlyAnswers_of_done h
    · exact onlyAnswers_of_done (within_eq_next h).2

/-- What an end check can write. -/
theorem endCheck_frame (h : endCheck s = .next t) :
    t = { s with
      totalFrames := t.totalFrames, failedFrames := t.failedFrames, failKind := t.failKind, rxState := t.rxState
      rxValid := t.rxValid, rxView := t.rxView, evPending := t.evPending, awaiting := t.awaiting, allowed := t.allowed } := by
  rcases endCheck_cases s with ⟨-, he⟩ | ⟨-, -, he⟩ | ⟨-, -, -, -, he⟩ | ⟨-, -, -, h4, he⟩
  · rw [he] at h; injection h with h; subst h; rfl
  · rw [he] at h; injection h with h; subst h; rfl
  · rw [he] at h; injection h with h; subst h; rfl
  · rw [he] at h
    rcases complete_cases s h4 with ⟨-, hc⟩ | ⟨-, -, hc⟩ | ⟨-, form, -, hc⟩ <;>
      (rw [hc] at h; injection h with h; subst h; rfl)

theorem responseTimeout_frame (s : State) :
    responseTimeout s = { s with
      totalFrames := (responseTimeout s).totalFrames, failedFrames := (responseTimeout s).failedFrames
      failKind := (responseTimeout s).failKind, rxState := (responseTimeout s).rxState
      rxValid := (responseTimeout s).rxValid, evPending := (responseTimeout s).evPending
      awaiting := (responseTimeout s).awaiting } := by
  rcases responseTimeout_cases s with ⟨h, -⟩ | ⟨-, -, -, h⟩ <;> rw [h]
  rfl

theorem deferredTransmit_frame (h : deferredTransmit s = .next t) :
    t = { s with
      txPending := t.txPending, txBuf := t.txBuf, txlog := t.txlog, lastActUs := t.lastActUs, awaiting := t.awaiting
      txStampUs := t.txStampUs, allowed := t.allowed } := by
  rcases deferredTransmit_eq_next h with ⟨rfl, -⟩ | ⟨-, -, -, rfl⟩ | ⟨-, -, -, -, rfl⟩ <;> rfl

end Sys2Proof.Machine
end

