-- ==== Sys2Proof/Laws/InvCheck.lean ====
section
/-! SUPPORT. A check of the invariant that evaluates on a concrete state: the witnesses of the statements go through it. -/

namespace Sys2Proof.Machine

/-- The envelope half of the check. -/
def envelopeCheck (s : State) : Bool :=
  let v := s.txVariant
  let q := s.txVq.toNat
  decide (v = .none) ||
  (decide (s.txLen + 2 ≤ s.params.cap) &&
    (decide (variantOf (s.txBuf.read 1) false = v) || decide (variantOf (s.txBuf.read 1) true = v)) &&
    s.txBuf.all (fun c => decide (c.1 < s.txLen + 2)) &&
    (if isVariable v then
      decide ((s.txBuf.read (valOff v - 1)).toNat = storageBytes v q) && decide (s.txLen = valOff v + storageBytes v q) &&
        (!isWriteMultiple v || decide (s.txBuf.read16 4 = s.txVq)) &&
        (!isBits v || (List.range (8 * cdiv8 q)).all (fun i => decide (i < q) || !bitOf (s.txBuf.read (valOff v + i / 8)) i))
     else decide (s.txLen = v.initLen ∧ s.txVq = 0)))

/-- The receiver half of the check. -/
def receiverCheck (s : State) : Bool :=
  decide (s.rxLen ≤ s.params.cap) && decide (s.rxState = .waitFunctionCode → s.rxLen = 1) &&
  decide (s.rxState = .waitData → 2 ≤ s.rxLen) &&
  (!s.rxValid ||
    (decide (s.rxState = .waitStation) && decide (4 ≤ s.rxLen) && decide (s.rxLen + 1 ≤ s.params.cap) &&
      crcMatches s.rxBuf (s.rxLen - 2) &&
      decide (s.rxView = pduDecode (s.rxBuf.read 1) (decide (s.params.role = .master)) (s.rxBuf.slice 2 (s.rxLen - 4))) &&
      decide (s.rxView.status ≠ .unsupported)))

/-- The gates of the check. -/
def gatesCheck (s : State) : Bool :=
  match s.params.role with
  | .master => decide (s.allowed = false ∧ s.station = 0 ∧ s.pendingTarget.toNat ≤ 247 ∧ (s.txPending = true → s.awaiting = false))
  | .slave => decide (s.awaiting = false ∧ 1 ≤ s.station.toNat ∧ s.station.toNat ≤ 247 ∧ (s.txPending = true → s.allowed = true))

/-- A check of the invariant for a state that has sent nothing. -/
def State.check (s : State) : Bool :=
  decide s.params.wf && decide (Buf.wf s.params.cap s.rxBuf) && decide (Buf.wf s.params.cap s.txBuf) &&
  receiverCheck s && envelopeCheck s && gatesCheck s && decide (s.hdata.length ≤ s.params.hdataDepth) && decide (s.txlog = [])

theorem Buf.read_eq_zero_of_all {m : Buf} {n a : Nat} (h : m.all (fun c => decide (c.1 < n)) = true) (ha : n ≤ a) :
    m.read a = 0 := by
  induction m with
  | nil => rfl
  | cons c m ih =>
    obtain ⟨k, c⟩ := c
    simp only [List.all_cons, Bool.and_eq_true, decide_eq_true_eq] at h
    rw [Buf.read_cons, if_neg (by omega), ih h.2]

theorem State.envelopeOk_of_check {s : State} (h : envelopeCheck s = true) : s.envelopeOk := by
  intro hn
  simp only [envelopeCheck, hn, decide_false, Bool.false_or, Bool.and_eq_true, Bool.or_eq_true, decide_eq_true_eq] at h
  obtain ⟨⟨⟨hl, hd⟩, ht⟩, hr⟩ := h
  refine ⟨hl, ?_, fun a ha => Buf.read_eq_zero_of_all ht ha, fun hv => ?_, fun hv => ?_⟩
  · exact hd.elim (fun h => ⟨false, h⟩) fun h => ⟨true, h⟩
  · rw [hv] at hr
    simpa using hr
  · rw [hv] at hr
    simp only [if_true, Bool.and_eq_true, decide_eq_true_eq, Bool.or_eq_true, Bool.not_eq_true'] at hr
    obtain ⟨⟨⟨r1, r2⟩, r3⟩, r4⟩ := hr
    refine ⟨r1, r2, fun hw => ?_, fun hb i h1 h2 => ?_⟩
    · rcases r3 with h | h
      · rw [h] at hw; cases hw
      · exact h
    · rcases r4 with h | h
      · rw [h] at hb; cases hb
      · have := List.all_eq_true.1 h i (List.mem_range.2 h2)
        simp only [Bool.or_eq_true, decide_eq_true_eq, Bool.not_eq_true'] at this
        exact this.resolve_left (by omega)

/-- A state that passes the check meets the invariant. -/
theorem State.inv_of_check {s : State} (h : s.check = true) : s.Inv := by
  simp only [State.check, Bool.and_eq_true, decide_eq_true_eq] at h
  obtain ⟨⟨⟨⟨⟨⟨⟨hp, hr⟩, ht⟩, hrec⟩, henv⟩, hg⟩, hf⟩, hl⟩ := h
  simp only [receiverCheck, Bool.and_eq_true, decide_eq_true_eq, Bool.or_eq_true, Bool.not_eq_true'] at hrec
  obtain ⟨⟨⟨r1, r2⟩, r3⟩, r4⟩ := hrec
  refine ⟨hp, ⟨hr, ht⟩, ⟨r1, r2, r3⟩, fun hv => ?_, State.envelopeOk_of_check henv, ?_, hf, by rw [hl]; exact logOk_nil _⟩
  · rcases r4 with h | ⟨⟨⟨⟨⟨h1, h2⟩, h3⟩, h4⟩, h5⟩, h6⟩
    · rw [h] at hv; cases hv
    · exact ⟨h1, h2, h3, h4, h5, h6⟩
  · unfold State.gatesOk
    unfold gatesCheck at hg
    cases hrole : s.params.role with
    | master => rw [hrole] at hg; exact of_decide_eq_true hg
    | slave => rw [hrole] at hg; exact of_decide_eq_true hg

end Sys2Proof.Machine
end

