-- ==== Sys2Proof/Laws/PerInstr.lean ====
section
/-! SUPPORT. One lemma per constructor of `Instr`: the encoding of every instruction carries the opcode or the function code, and the
direction, that its row of the spec's opcode table (30_encoding.md R124) gives it. -/

namespace Sys2Proof.Laws.TableOpcode

/-- A row of the opcode table: the match and mask bytes, and the direction of a wire form. -/
structure Row where
  word : Byte
  mask : Byte
  isResponse : Option Bool
  deriving DecidableEq, Repr

/-- The row of each instruction, copied from the table. -/
def row : Instr → Row
  | .rdcoilsReq _ _ => ⟨0x01#8, 0xFF#8, some false⟩
  | .rddiscReq _ _ => ⟨0x02#8, 0xFF#8, some false⟩
  | .rdholdReq _ _ => ⟨0x03#8, 0xFF#8, some false⟩
  | .rdinputReq _ _ => ⟨0x04#8, 0xFF#8, some false⟩
  | .rdcoilsRsp _ _ => ⟨0x01#8, 0xFF#8, some true⟩
  | .rddiscRsp _ _ => ⟨0x02#8, 0xFF#8, some true⟩
  | .rdholdRsp _ _ => ⟨0x03#8, 0xFF#8, some true⟩
  | .rdinputRsp _ _ => ⟨0x04#8, 0xFF#8, some true⟩
  | .wrcoilReq _ _ => ⟨0x05#8, 0xFF#8, some false⟩
  | .wrcoilRsp _ _ => ⟨0x05#8, 0xFF#8, some true⟩
  | .wrregReq _ _ => ⟨0x06#8, 0xFF#8, some false⟩
  | .wrregRsp _ _ => ⟨0x06#8, 0xFF#8, some true⟩
  | .wrcoilsReq _ _ => ⟨0x0F#8, 0xFF#8, some false⟩
  | .wrcoilsRsp _ _ => ⟨0x0F#8, 0xFF#8, some true⟩
  | .wrregsReq _ _ => ⟨0x10#8, 0xFF#8, some false⟩
  | .wrregsRsp _ _ => ⟨0x10#8, 0xFF#8, some true⟩
  | .diagRsp _ _ _ => ⟨0x80#8, 0x80#8, some true⟩
  | .crcReset => ⟨0x01#8, 0xFF#8, none⟩
  | .crcUpdate _ => ⟨0x02#8, 0xFF#8, none⟩
  | .crcValue => ⟨0x03#8, 0xFF#8, none⟩
  | .envApplycrc => ⟨0x08#8, 0xFF#8, none⟩
  | .envVerifycrc _ => ⟨0x09#8, 0xFF#8, none⟩
  | .envCreq _ => ⟨0x10#8, 0xFF#8, none⟩
  | .envCrsp _ => ⟨0x11#8, 0xFF#8, none⟩
  | .envCdiag _ => ⟨0x12#8, 0xFF#8, none⟩
  | .plGetf _ _ => ⟨0x20#8, 0xFF#8, none⟩
  | .plSetf _ _ => ⟨0x21#8, 0xFF#8, none⟩
  | .plResize _ => ⟨0x22#8, 0xFF#8, none⟩
  | .plGetbit _ _ => ⟨0x23#8, 0xFF#8, none⟩
  | .plSetbit _ _ => ⟨0x24#8, 0xFF#8, none⟩
  | .plGetreg _ _ => ⟨0x25#8, 0xFF#8, none⟩
  | .plSetreg _ _ => ⟨0x26#8, 0xFF#8, none⟩
  | .plInsbitsH _ => ⟨0x28#8, 0xFF#8, none⟩
  | .plInsbitsT _ => ⟨0x29#8, 0xFF#8, none⟩
  | .plRembitsH _ => ⟨0x2A#8, 0xFF#8, none⟩
  | .plRembitsT _ => ⟨0x2B#8, 0xFF#8, none⟩
  | .plInsregsH _ => ⟨0x2C#8, 0xFF#8, none⟩
  | .plInsregsT _ => ⟨0x2D#8, 0xFF#8, none⟩
  | .plRemregsH _ => ⟨0x2E#8, 0xFF#8, none⟩
  | .plRemregsT _ => ⟨0x2F#8, 0xFF#8, none⟩
  | .fsmUpdate => ⟨0x30#8, 0xFF#8, none⟩
  | .roleXmit _ => ⟨0x38#8, 0xFF#8, none⟩
  | .roleXmitdef _ => ⟨0x39#8, 0xFF#8, none⟩
  | .roleAvail => ⟨0x3A#8, 0xFF#8, none⟩
  | .cfgSetbaud _ => ⟨0x40#8, 0xFF#8, none⟩
  | .cfgSetsilence _ => ⟨0x41#8, 0xFF#8, none⟩
  | .cfgSetsendback _ => ⟨0x42#8, 0xFF#8, none⟩
  | .cfgSettimeout _ => ⟨0x43#8, 0xFF#8, none⟩
  | .cfgSetstation _ => ⟨0x44#8, 0xFF#8, none⟩
  | .sysSoftreset => ⟨0x48#8, 0xFF#8, none⟩
  | .evAck _ => ⟨0x49#8, 0xFF#8, none⟩
  | .evSetmask _ => ⟨0x4A#8, 0xFF#8, none⟩
  | .sysRdbuf _ _ => ⟨0x4B#8, 0xFF#8, none⟩

/-- A code agrees with a row: the opcode of a command, or the function code at offset 1 and the direction of an ADU. -/
def Agrees (r : Row) : Code → Prop
  | .command op _ _ => op &&& r.mask = r.word ∧ r.isResponse = none
  | .adu isResponse bytes => bytes.getD 1 0 &&& r.mask = r.word ∧ r.isResponse = some isResponse

/-- The encoding of an instruction agrees with its row. -/
def Statement (i : Instr) : Prop := Agrees (row i) (encode i)

/-- The second byte of a wire form's ADU is its function code. -/
theorem of_wire {i : Instr} {form : WireForm} {station : Byte} {payload : List Byte} (h : encode i = wireCode form station payload)
    (hc : form.code &&& (row i).mask = (row i).word) (hd : (row i).isResponse = some form.isResponse) : Statement i := by
  unfold Statement
  rw [h]
  exact ⟨hc, hd⟩

theorem rdcoilsReq (station : Byte) (payload : List Byte) : Statement (.rdcoilsReq station payload) :=
  of_wire rfl (by simp only [row]; decide) rfl

theorem rddiscReq (station : Byte) (payload : List Byte) : Statement (.rddiscReq station payload) :=
  of_wire rfl (by simp only [row]; decide) rfl

theorem rdholdReq (station : Byte) (payload : List Byte) : Statement (.rdholdReq station payload) :=
  of_wire rfl (by simp only [row]; decide) rfl

theorem rdinputReq (station : Byte) (payload : List Byte) : Statement (.rdinputReq station payload) :=
  of_wire rfl (by simp only [row]; decide) rfl

theorem rdcoilsRsp (station : Byte) (payload : List Byte) : Statement (.rdcoilsRsp station payload) :=
  of_wire rfl (by simp only [row]; decide) rfl

theorem rddiscRsp (station : Byte) (payload : List Byte) : Statement (.rddiscRsp station payload) :=
  of_wire rfl (by simp only [row]; decide) rfl

theorem rdholdRsp (station : Byte) (payload : List Byte) : Statement (.rdholdRsp station payload) :=
  of_wire rfl (by simp only [row]; decide) rfl

theorem rdinputRsp (station : Byte) (payload : List Byte) : Statement (.rdinputRsp station payload) :=
  of_wire rfl (by simp only [row]; decide) rfl

theorem wrcoilReq (station : Byte) (payload : List Byte) : Statement (.wrcoilReq station payload) :=
  of_wire rfl (by simp only [row]; decide) rfl

theorem wrcoilRsp (station : Byte) (payload : List Byte) : Statement (.wrcoilRsp station payload) :=
  of_wire rfl (by simp only [row]; decide) rfl

theorem wrregReq (station : Byte) (payload : List Byte) : Statement (.wrregReq station payload) :=
  of_wire rfl (by simp only [row]; decide) rfl

theorem wrregRsp (station : Byte) (payload : List Byte) : Statement (.wrregRsp station payload) :=
  of_wire rfl (by simp only [row]; decide) rfl

theorem wrcoilsReq (station : Byte) (payload : List Byte) : Statement (.wrcoilsReq station payload) :=
  of_wire rfl (by simp only [row]; decide) rfl

theorem wrcoilsRsp (station : Byte) (payload : List Byte) : Statement (.wrcoilsRsp station payload) :=
  of_wire rfl (by simp only [row]; decide) rfl

theorem wrregsReq (station : Byte) (payload : List Byte) : Statement (.wrregsReq station payload) :=
  of_wire rfl (by simp only [row]; decide) rfl

theorem wrregsRsp (station : Byte) (payload : List Byte) : Statement (.wrregsRsp station payload) :=
  of_wire rfl (by simp only [row]; decide) rfl

theorem diagRsp (base : BaseFc) (station : Byte) (payload : List Byte) : Statement (.diagRsp base station payload) :=
  of_wire rfl (by cases base <;> (simp only [row]; decide)) rfl

theorem crcReset : Statement (.crcReset) := ⟨by simp only [row]; decide, rfl⟩

theorem crcUpdate (b : Byte) : Statement (.crcUpdate b) := ⟨by simp only [row]; decide, rfl⟩

theorem crcValue : Statement (.crcValue) := ⟨by simp only [row]; decide, rfl⟩

theorem envApplycrc : Statement (.envApplycrc) := ⟨by simp only [row]; decide, rfl⟩

theorem envVerifycrc (sel : Sel) : Statement (.envVerifycrc sel) := ⟨by simp only [row]; decide, rfl⟩

theorem envCreq (fc : Byte) : Statement (.envCreq fc) := ⟨by simp only [row]; decide, rfl⟩

theorem envCrsp (fc : Byte) : Statement (.envCrsp fc) := ⟨by simp only [row]; decide, rfl⟩

theorem envCdiag (fc : Byte) : Statement (.envCdiag fc) := ⟨by simp only [row]; decide, rfl⟩

theorem plGetf (sel : Sel) (field : BitVec 4) : Statement (.plGetf sel field) := ⟨by simp only [row]; decide, rfl⟩

theorem plSetf (value : Half) (field : BitVec 4) : Statement (.plSetf value field) := ⟨by simp only [row]; decide, rfl⟩

theorem plResize (q : Half) : Statement (.plResize q) := ⟨by simp only [row]; decide, rfl⟩

theorem plGetbit (sel : Sel) (i : Half) : Statement (.plGetbit sel i) := ⟨by simp only [row]; decide, rfl⟩

theorem plSetbit (b : Bool) (i : Half) : Statement (.plSetbit b i) := ⟨by simp only [row]; decide, rfl⟩

theorem plGetreg (sel : Sel) (i : Half) : Statement (.plGetreg sel i) := ⟨by simp only [row]; decide, rfl⟩

theorem plSetreg (w : Half) (i : Half) : Statement (.plSetreg w i) := ⟨by simp only [row]; decide, rfl⟩

theorem plInsbitsH (n : Half) : Statement (.plInsbitsH n) := ⟨by simp only [row]; decide, rfl⟩

theorem plInsbitsT (n : Half) : Statement (.plInsbitsT n) := ⟨by simp only [row]; decide, rfl⟩

theorem plRembitsH (n : Half) : Statement (.plRembitsH n) := ⟨by simp only [row]; decide, rfl⟩

theorem plRembitsT (n : Half) : Statement (.plRembitsT n) := ⟨by simp only [row]; decide, rfl⟩

theorem plInsregsH (n : Half) : Statement (.plInsregsH n) := ⟨by simp only [row]; decide, rfl⟩

theorem plInsregsT (n : Half) : Statement (.plInsregsT n) := ⟨by simp only [row]; decide, rfl⟩

theorem plRemregsH (n : Half) : Statement (.plRemregsH n) := ⟨by simp only [row]; decide, rfl⟩

theorem plRemregsT (n : Half) : Statement (.plRemregsT n) := ⟨by simp only [row]; decide, rfl⟩

theorem fsmUpdate : Statement (.fsmUpdate) := ⟨by simp only [row]; decide, rfl⟩

theorem roleXmit (target : Byte) : Statement (.roleXmit target) := ⟨by simp only [row]; decide, rfl⟩

theorem roleXmitdef (target : Byte) : Statement (.roleXmitdef target) := ⟨by simp only [row]; decide, rfl⟩

theorem roleAvail : Statement (.roleAvail) := ⟨by simp only [row]; decide, rfl⟩

theorem cfgSetbaud (baud : Word) : Statement (.cfgSetbaud baud) := ⟨by simp only [row]; decide, rfl⟩

theorem cfgSetsilence (us : Word) : Statement (.cfgSetsilence us) := ⟨by simp only [row]; decide, rfl⟩

theorem cfgSetsendback (us : Word) : Statement (.cfgSetsendback us) := ⟨by simp only [row]; decide, rfl⟩

theorem cfgSettimeout (us : Word) : Statement (.cfgSettimeout us) := ⟨by simp only [row]; decide, rfl⟩

theorem cfgSetstation (s : Byte) : Statement (.cfgSetstation s) := ⟨by simp only [row]; decide, rfl⟩

theorem sysSoftreset : Statement (.sysSoftreset) := ⟨by simp only [row]; decide, rfl⟩

theorem evAck (m : BitVec 2) : Statement (.evAck m) := ⟨by simp only [row]; decide, rfl⟩

theorem evSetmask (m : BitVec 2) : Statement (.evSetmask m) := ⟨by simp only [row]; decide, rfl⟩

theorem sysRdbuf (sel : Sel) (off : Half) : Statement (.sysRdbuf sel off) := ⟨by simp only [row]; decide, rfl⟩

end Sys2Proof.Laws.TableOpcode
end

