-- ==== Sys2Proof/Tests/Slice0.lean ====
section
/-! SUPPORT. The model's own tests: small facts about one step each, whose expected values are the spec's worked examples and vectors
(95_test_vectors.md), and a witness for the hypotheses of every statement. -/

namespace Sys2Proof.Tests

set_option maxRecDepth 20000

open Sys2Proof Sys2Proof.Machine

/-! ## Small instances and states -/

/-- A small instance: 24 bytes of buffer, 16 entries of `hdata`, 9600 baud. -/
def small (role : Role) : Params := { Params.default with cap := 24, role := role, stationReset := 5, hdataDepth := 16 }

/-- A slave with station 5, and a master, after reset. -/
def slave : State := State.resetOf (small .slave)
def master : State := State.resetOf (small .master)

/-- The state with an envelope. -/
def envelope (v : Variant) (bytes : List Byte) (vq : Half) (s : State) : State :=
  { s with txBuf := Buf.writeAll [] 0 bytes, txVariant := v, txLen := bytes.length, txVq := vq }

/-- The state with these bytes in `rx_buf` after a frame end. -/
def ended (bytes : List Byte) (s : State) : State := { s with rxBuf := Buf.writeAll [] 0 bytes, rxLen := bytes.length }

/-- The state with a delivered frame. -/
def received (bytes : List Byte) (s : State) : State :=
  { ended bytes s with
    rxValid := true
    rxView := pduDecode (bytes.getD 1 0) (decide (s.params.role = .master)) ((bytes.drop 2).take (bytes.length - 4)) }

/-- The state in the middle of a frame whose last byte came `age` microseconds ago. -/
def receiving (bytes : List Byte) (age : Word) (s : State) : State :=
  { ended bytes s with rxState := .waitData, now := age }

/-- What an outcome that goes on gives. -/
def after {α : Type} (o : Outcome) (f : State → α) : Option α :=
  match o with
  | .next s => some (f s)
  | .fault _ => none
  | .refused _ => none

/-- The answer of a command. -/
def answer (o : Outcome) : Option (ResultCode × Word) := after o fun s => (s.result, s.rdata)

/-- The envelope a command leaves. -/
def sentPdu (o : Outcome) : Option (List Byte × Half) := after o fun s => (s.txBuf.slice 0 s.txLen, s.txVq)

/-- The frames of the vectors V22, V24, V26, V34. -/
def rdholdReqFrame : List Byte := [0x05#8, 0x03#8, 0x00#8, 0x00#8, 0x00#8, 0x02#8, 0xC5#8, 0x8F#8]
def rdcoilsRspFrame : List Byte := [0x05#8, 0x01#8, 0x02#8, 0xCD#8, 0x01#8, 0xDD#8, 0x6C#8]
def rdholdRspFrame : List Byte := [0x05#8, 0x03#8, 0x04#8, 0x00#8, 0x0A#8, 0x00#8, 0x14#8, 0x9F#8, 0xFE#8]
def diagFrame : List Byte := [0x05#8, 0x83#8, 0x02#8, 0x81#8, 0x30#8]

/-- The envelopes of the examples of R245, R247, R210, R251, R255 (43_payload_ops.md, 42_pdu_create_encode.md). -/
def bitsRsp : State := envelope .rsBits [0x05#8, 0x01#8, 0x02#8, 0xCD#8, 0x01#8] 10 slave
def regsRsp : State := envelope .rsRegs [0x05#8, 0x03#8, 0x04#8, 0x00#8, 0x0A#8, 0x00#8, 0x14#8] 2 slave
def readReq : State := envelope .rqRead [0x00#8, 0x03#8, 0x00#8, 0x00#8, 0x00#8, 0x02#8] 0 master
def singleReq : State := envelope .rwSingle [0x00#8, 0x05#8, 0x00#8, 0x03#8, 0x00#8, 0x00#8] 0 master
def bitsReq : State := envelope .rqWbits [0x00#8, 0x0F#8, 0x00#8, 0x00#8, 0x00#8, 0x0A#8, 0x02#8, 0xCD#8, 0x01#8] 10 master
def regsReq : State :=
  envelope .rqWregs [0x00#8, 0x10#8, 0x00#8, 0x00#8, 0x00#8, 0x02#8, 0x04#8, 0x00#8, 0x0A#8, 0x01#8, 0x02#8] 2 master

/-! ## WellFormed -/

/-- R100: with CAP 24 the longest frame has 23 bytes, so 19 of payload. -/
theorem test_wf_longest : (Instr.rdholdReq 5 (List.replicate 19 0)).wf 24 = true := by decide
theorem test_wf_too_long : (Instr.rdholdReq 5 (List.replicate 20 0)).wf 24 = false := by decide
theorem test_wf_diag_too_long : (Instr.diagRsp .readCoils 5 (List.replicate 20 0)).wf 24 = false := by decide
theorem test_wf_command : Instr.fsmUpdate.wf 9 = true := by decide

/-- R215: each constraint refuses a payload that breaks it. -/
theorem test_valid_readReq : (Payload.readReq .writeCoil 0 0).valid = false := by decide
theorem test_valid_bitsRsp_code : (Payload.bitsRsp .readHolding []).valid = false := by decide
theorem test_valid_bitsRsp_count : (Payload.bitsRsp .readCoils (List.replicate 2041 false)).valid = false := by
  simp [Payload.valid]
theorem test_valid_regsRsp_code : (Payload.regsRsp .readCoils []).valid = false := by decide
theorem test_valid_regsRsp_count : (Payload.regsRsp .readHolding (List.replicate 128 0)).valid = false := by simp [Payload.valid]
theorem test_valid_single : (Payload.single .writeCoils 0 0).valid = false := by decide
theorem test_valid_wBitsReq : (Payload.wBitsReq 0 (List.replicate 2041 false)).valid = false := by simp [Payload.valid]
theorem test_valid_wRegsReq : (Payload.wRegsReq 0 (List.replicate 128 0)).valid = false := by simp [Payload.valid]
theorem test_valid_wMultiRsp : (Payload.wMultiRsp .writeCoil 0 0).valid = false := by decide

/-! ## Decoding, from the spec's words -/

/-- V20. -/
theorem test_decode_rdcoilsReq :
    decode (.adu false [0x05#8, 0x01#8, 0x00#8, 0x00#8, 0x00#8, 0x0A#8, 0xBD#8, 0x89#8]) =
      .ok (.rdcoilsReq 0x05#8 [0x00#8, 0x00#8, 0x00#8, 0x0A#8]) := by decide
/-- V21. -/
theorem test_decode_rddiscReq :
    decode (.adu false [0x05#8, 0x02#8, 0x00#8, 0x00#8, 0x00#8, 0x08#8, 0x78#8, 0x48#8]) =
      .ok (.rddiscReq 0x05#8 [0x00#8, 0x00#8, 0x00#8, 0x08#8]) := by decide
/-- V22. -/
theorem test_decode_rdholdReq :
    decode (.adu false [0x05#8, 0x03#8, 0x00#8, 0x00#8, 0x00#8, 0x02#8, 0xC5#8, 0x8F#8]) =
      .ok (.rdholdReq 0x05#8 [0x00#8, 0x00#8, 0x00#8, 0x02#8]) := by decide
/-- V23. -/
theorem test_decode_rdinputReq :
    decode (.adu false [0x05#8, 0x04#8, 0x00#8, 0x00#8, 0x00#8, 0x01#8, 0x30#8, 0x4E#8]) =
      .ok (.rdinputReq 0x05#8 [0x00#8, 0x00#8, 0x00#8, 0x01#8]) := by decide
/-- V24. -/
theorem test_decode_rdcoilsRsp :
    decode (.adu true [0x05#8, 0x01#8, 0x02#8, 0xCD#8, 0x01#8, 0xDD#8, 0x6C#8]) =
      .ok (.rdcoilsRsp 0x05#8 [0x02#8, 0xCD#8, 0x01#8]) := by decide
/-- V25. -/
theorem test_decode_rddiscRsp :
    decode (.adu true [0x05#8, 0x02#8, 0x01#8, 0xAC#8, 0xA0#8, 0xC5#8]) =
      .ok (.rddiscRsp 0x05#8 [0x01#8, 0xAC#8]) := by decide
/-- V26. -/
theorem test_decode_rdholdRsp :
    decode (.adu true [0x05#8, 0x03#8, 0x04#8, 0x00#8, 0x0A#8, 0x00#8, 0x14#8, 0x9F#8, 0xFE#8]) =
      .ok (.rdholdRsp 0x05#8 [0x04#8, 0x00#8, 0x0A#8, 0x00#8, 0x14#8]) := by decide
/-- V27. -/
theorem test_decode_rdinputRsp :
    decode (.adu true [0x05#8, 0x04#8, 0x02#8, 0xFF#8, 0xFF#8, 0x49#8, 0x40#8]) =
      .ok (.rdinputRsp 0x05#8 [0x02#8, 0xFF#8, 0xFF#8]) := by decide
/-- V28. -/
theorem test_decode_wrcoilReq :
    decode (.adu false [0x05#8, 0x05#8, 0x00#8, 0x03#8, 0xFF#8, 0x00#8, 0x7D#8, 0xBE#8]) =
      .ok (.wrcoilReq 0x05#8 [0x00#8, 0x03#8, 0xFF#8, 0x00#8]) := by decide
/-- V28. -/
theorem test_decode_wrcoilRsp :
    decode (.adu true [0x05#8, 0x05#8, 0x00#8, 0x03#8, 0xFF#8, 0x00#8, 0x7D#8, 0xBE#8]) =
      .ok (.wrcoilRsp 0x05#8 [0x00#8, 0x03#8, 0xFF#8, 0x00#8]) := by decide
/-- V29. -/
theorem test_decode_wrregReq :
    decode (.adu false [0x05#8, 0x06#8, 0x00#8, 0x01#8, 0x12#8, 0x34#8, 0xD4#8, 0xF9#8]) =
      .ok (.wrregReq 0x05#8 [0x00#8, 0x01#8, 0x12#8, 0x34#8]) := by decide
/-- V29. -/
theorem test_decode_wrregRsp :
    decode (.adu true [0x05#8, 0x06#8, 0x00#8, 0x01#8, 0x12#8, 0x34#8, 0xD4#8, 0xF9#8]) =
      .ok (.wrregRsp 0x05#8 [0x00#8, 0x01#8, 0x12#8, 0x34#8]) := by decide
/-- V30. -/
theorem test_decode_wrcoilsReq :
    decode (.adu false [0x05#8, 0x0F#8, 0x00#8, 0x13#8, 0x00#8, 0x0A#8, 0x02#8, 0xCD#8, 0x01#8, 0x40#8, 0x0B#8]) =
      .ok (.wrcoilsReq 0x05#8 [0x00#8, 0x13#8, 0x00#8, 0x0A#8, 0x02#8, 0xCD#8, 0x01#8]) := by decide
/-- V31. -/
theorem test_decode_wrcoilsRsp :
    decode (.adu true [0x05#8, 0x0F#8, 0x00#8, 0x13#8, 0x00#8, 0x0A#8, 0x25#8, 0x8D#8]) =
      .ok (.wrcoilsRsp 0x05#8 [0x00#8, 0x13#8, 0x00#8, 0x0A#8]) := by decide
/-- V32. -/
theorem test_decode_wrregsReq :
    decode (.adu false [0x05#8, 0x10#8, 0x00#8, 0x01#8, 0x00#8, 0x02#8, 0x04#8, 0x00#8, 0x0A#8, 0x01#8, 0x02#8, 0x87#8, 0x00#8]) =
      .ok (.wrregsReq 0x05#8 [0x00#8, 0x01#8, 0x00#8, 0x02#8, 0x04#8, 0x00#8, 0x0A#8, 0x01#8, 0x02#8]) := by decide
/-- V33. -/
theorem test_decode_wrregsRsp :
    decode (.adu true [0x05#8, 0x10#8, 0x00#8, 0x01#8, 0x00#8, 0x02#8, 0x11#8, 0x8C#8]) =
      .ok (.wrregsRsp 0x05#8 [0x00#8, 0x01#8, 0x00#8, 0x02#8]) := by decide
/-- V35. -/
theorem test_decode_diagRsp : decode (.adu true [0x05#8, 0x8F#8, 0x03#8, 0x45#8, 0xF0#8]) = .ok (.diagRsp .writeCoils 0x05#8 [0x03#8]) := by
  decide

/-- R190: function code 0x07 is unsupported, and so are the diagnose codes in the request direction. -/
theorem test_decode_unsupported : decode (.adu false [0x05#8, 0x07#8, 0x43#8, 0x22#8]) = .error (.unsupportedFunctionCode 0x07#8) := by
  decide
theorem test_decode_diag_request : decode (.adu false diagFrame) = .error (.unsupportedFunctionCode 0x83#8) := by decide

/-- V7: one inverted bit. -/
theorem test_decode_crc : decode (.adu false [0x05#8, 0x03#8, 0x00#8, 0x00#8, 0x00#8, 0x03#8, 0xC5#8, 0x8F#8]) = .error .crcMismatch := by decide
theorem test_decode_short : decode (.adu false [0x05#8, 0x03#8, 0x00#8]) = .error .shortAdu := by decide

/-- The opcodes and operand fields of R112, from the encodings of the vectors; bits outside the fields are ignored. -/
theorem test_decode_commands_first :
    [decodeCommand 0x01 0xFFFFFFFF 0xFFFFFFFF,
     decodeCommand 0x02 0xABCDEF05 0,
     decodeCommand 0x03 1 1,
     decodeCommand 0x08 0 0,
     decodeCommand 0x09 1 0,
     decodeCommand 0x10 0xFFFFFF0F 0,
     decodeCommand 0x11 0x03 0,
     decodeCommand 0x12 0x0F 0,
     decodeCommand 0x20 0 2,
     decodeCommand 0x21 0xFFFFFF00 0x14,
     decodeCommand 0x22 0x10002 0,
     decodeCommand 0x23 0 8,
     decodeCommand 0x24 1 0x20001,
     decodeCommand 0x25 3 1,
     decodeCommand 0x26 0x000A 0] =
    [.ok (.crcReset), .ok (.crcUpdate 0x05), .ok (.crcValue), .ok (.envApplycrc), .ok (.envVerifycrc .tx), .ok (.envCreq 0x0F), .ok (.envCrsp 0x03), .ok (.envCdiag 0x0F), .ok (.plGetf .rx 2), .ok (.plSetf 0xFF00 4), .ok (.plResize 2), .ok (.plGetbit .rx 8), .ok (.plSetbit true 1), .ok (.plGetreg .tx 1), .ok (.plSetreg 10 0)] := by decide
theorem test_decode_commands_second :
    [decodeCommand 0x28 3 0,
     decodeCommand 0x29 10 0,
     decodeCommand 0x2A 3 0,
     decodeCommand 0x2B 4 0,
     decodeCommand 0x2C 1 0,
     decodeCommand 0x2D 2 0,
     decodeCommand 0x2E 1 0,
     decodeCommand 0x2F 1 0,
     decodeCommand 0x30 9 9,
     decodeCommand 0x38 0x105 0,
     decodeCommand 0x39 5 0,
     decodeCommand 0x3A 0 0,
     decodeCommand 0x40 0x2580 0,
     decodeCommand 0x41 1750 0,
     decodeCommand 0x42 7 0,
     decodeCommand 0x43 0xF4240 0,
     decodeCommand 0x44 0x105 0,
     decodeCommand 0x48 0 0,
     decodeCommand 0x49 5 0,
     decodeCommand 0x4A 7 0,
     decodeCommand 0x4B 1 0x10007] =
    [.ok (.plInsbitsH 3), .ok (.plInsbitsT 10), .ok (.plRembitsH 3), .ok (.plRembitsT 4), .ok (.plInsregsH 1), .ok (.plInsregsT 2), .ok (.plRemregsH 1), .ok (.plRemregsT 1), .ok (.fsmUpdate), .ok (.roleXmit 5), .ok (.roleXmitdef 5), .ok (.roleAvail), .ok (.cfgSetbaud 9600), .ok (.cfgSetsilence 1750), .ok (.cfgSetsendback 7), .ok (.cfgSettimeout 1000000), .ok (.cfgSetstation 5), .ok (.sysSoftreset), .ok (.evAck 1), .ok (.evSetmask 3), .ok (.sysRdbuf .tx 7)] := by decide

/-- V97, and the neighbours of every range of R114. -/
theorem test_decode_reserved :
    [0x00, 0x04, 0x07, 0x0A, 0x0F, 0x13, 0x1F, 0x27, 0x31, 0x37, 0x3B, 0x3F, 0x45, 0x47, 0x4C, 0xFF].all
      (fun op : Byte => decodeCommand op 0 0 == .error (.reservedOpcode op)) = true := by decide

/-! ## Wire forms -/

/-- V20. -/
theorem test_rdcoilsReq : after (exec (.rdcoilsReq 5 [0x00#8, 0x00#8, 0x00#8, 0x0A#8]) slave) (fun s => (s.rxView, s.rxValid, s.evPending, s.allowed)) =
    some (⟨.rqRead, .ok, 0, 0⟩, true, 1, true) := by decide
/-- V21. -/
theorem test_rddiscReq : after (exec (.rddiscReq 5 [0x00#8, 0x00#8, 0x00#8, 0x08#8]) slave) (fun s => (s.rxView, s.rxValid, s.evPending, s.allowed)) =
    some (⟨.rqRead, .ok, 0, 0⟩, true, 1, true) := by decide
/-- V100. -/
theorem test_rdholdReq : after (exec (.rdholdReq 5 [0x00#8, 0x00#8, 0x00#8]) slave) (fun s => (s.rxView, s.rxValid, s.evPending, s.allowed)) =
    some (⟨.rqRead, .short, 0, 0⟩, true, 1, true) := by decide
/-- V101, of the same layout. -/
theorem test_rdinputReq : after (exec (.rdinputReq 5 [0x00#8, 0x00#8, 0x00#8, 0x02#8, 0x09#8]) slave) (fun s => (s.rxView, s.rxValid, s.evPending, s.allowed)) =
    some (⟨.rqRead, .excess, 0, 0⟩, true, 1, true) := by decide
/-- V104. -/
theorem test_rdcoilsRsp : after (exec (.rdcoilsRsp 5 [0x03#8, 0xFF#8, 0x01#8]) slave) (fun s => (s.rxView, s.rxValid, s.evPending, s.allowed)) =
    some (⟨.rsBits, .short, 3, 16⟩, true, 1, true) := by decide
/-- V25. -/
theorem test_rddiscRsp : after (exec (.rddiscRsp 5 [0x01#8, 0xAC#8]) slave) (fun s => (s.rxView, s.rxValid, s.evPending, s.allowed)) =
    some (⟨.rsBits, .ok, 1, 8⟩, true, 1, true) := by decide
/-- V106. -/
theorem test_rdholdRsp : after (exec (.rdholdRsp 5 [0x03#8, 0x00#8, 0x01#8, 0x02#8]) slave) (fun s => (s.rxView, s.rxValid, s.evPending, s.allowed)) =
    some (⟨.rsRegs, .countMismatch, 3, 1⟩, true, 1, true) := by decide
/-- V108. -/
theorem test_rdinputRsp : after (exec (.rdinputRsp 5 [0x02#8, 0x00#8, 0x01#8, 0x02#8]) slave) (fun s => (s.rxView, s.rxValid, s.evPending, s.allowed)) =
    some (⟨.rsRegs, .excess, 2, 1⟩, true, 1, true) := by decide
/-- V28. -/
theorem test_wrcoilReq : after (exec (.wrcoilReq 5 [0x00#8, 0x03#8, 0xFF#8, 0x00#8]) slave) (fun s => (s.rxView, s.rxValid, s.evPending, s.allowed)) =
    some (⟨.rwSingle, .ok, 0, 0⟩, true, 1, true) := by decide
/-- V28. -/
theorem test_wrcoilRsp : after (exec (.wrcoilRsp 5 [0x00#8, 0x03#8, 0xFF#8, 0x00#8]) slave) (fun s => (s.rxView, s.rxValid, s.evPending, s.allowed)) =
    some (⟨.rwSingle, .ok, 0, 0⟩, true, 1, true) := by decide
/-- V29. -/
theorem test_wrregReq : after (exec (.wrregReq 5 [0x00#8, 0x01#8, 0x12#8, 0x34#8]) slave) (fun s => (s.rxView, s.rxValid, s.evPending, s.allowed)) =
    some (⟨.rwSingle, .ok, 0, 0⟩, true, 1, true) := by decide
/-- V29. -/
theorem test_wrregRsp : after (exec (.wrregRsp 5 [0x00#8, 0x01#8, 0x12#8, 0x34#8]) slave) (fun s => (s.rxView, s.rxValid, s.evPending, s.allowed)) =
    some (⟨.rwSingle, .ok, 0, 0⟩, true, 1, true) := by decide
/-- S3. -/
theorem test_wrcoilsReq : after (exec (.wrcoilsReq 5 [0x00#8, 0x00#8, 0x00#8, 0x0A#8, 0x01#8, 0xFF#8]) slave) (fun s => (s.rxView, s.rxValid, s.evPending, s.allowed)) =
    some (⟨.rqWbits, .countMismatch, 1, 8⟩, true, 1, true) := by decide
/-- V31. -/
theorem test_wrcoilsRsp : after (exec (.wrcoilsRsp 5 [0x00#8, 0x13#8, 0x00#8, 0x0A#8]) slave) (fun s => (s.rxView, s.rxValid, s.evPending, s.allowed)) =
    some (⟨.rsWmulti, .ok, 0, 0⟩, true, 1, true) := by decide
/-- V32. -/
theorem test_wrregsReq : after (exec (.wrregsReq 5 [0x00#8, 0x01#8, 0x00#8, 0x02#8, 0x04#8, 0x00#8, 0x0A#8, 0x01#8, 0x02#8]) slave) (fun s => (s.rxView, s.rxValid, s.evPending, s.allowed)) =
    some (⟨.rqWregs, .ok, 4, 2⟩, true, 1, true) := by decide
/-- V33. -/
theorem test_wrregsRsp : after (exec (.wrregsRsp 5 [0x00#8, 0x01#8, 0x00#8, 0x02#8]) slave) (fun s => (s.rxView, s.rxValid, s.evPending, s.allowed)) =
    some (⟨.rsWmulti, .ok, 0, 0⟩, true, 1, true) := by decide
/-- V34: a master has no reply gate. -/
theorem test_diagRsp : after (exec (.diagRsp .readHolding 5 [0x02#8]) master) (fun s => (s.rxView, s.rxValid, s.allowed)) =
    some (⟨.diag, .ok, 0, 0⟩, true, false) := by decide

/-- R304: a frame for another station opens no reply gate. -/
theorem test_other_station : after (exec (.rdholdReq 6 []) slave) (fun s => (s.rxValid, s.allowed)) = some (true, false) := by decide

/-! ## Accumulator and CRC -/

theorem test_crcReset : after (exec .crcReset { slave with crc := 0x1234 }) State.crc = some 0xFFFF := by decide
/-- V3. -/
theorem test_crcUpdate : after (exec (.crcUpdate 0x05) slave) State.crc = some 0x437F := by decide
theorem test_crcUpdate_next : after (exec (.crcUpdate 0x03) { slave with crc := 0x437F }) State.crc = some 0xE142 := by decide
theorem test_crcValue : answer (exec .crcValue { slave with crc := 0x8FC5 }) = some (.ok, 0x8FC5) := by decide
/-- V1. -/
theorem test_crc16_check : crc16 [0x31, 0x32, 0x33, 0x34, 0x35, 0x36, 0x37, 0x38, 0x39] = 0x4B37 := by decide
/-- V6. -/
theorem test_envApplycrc : after (exec .envApplycrc regsRsp) (fun s => (s.rdata, s.txBuf.slice 7 2, s.txLen)) =
    some (0xFE9F, [0x9F, 0xFE], 7) := by decide
theorem test_envApplycrc_none : answer (exec .envApplycrc slave) = some (.noFrame, 0) := by decide
/-- The example of R146. -/
theorem test_envVerifycrc_good : answer (exec (.envVerifycrc .rx) (ended rdholdReqFrame slave)) = some (.ok, 1) := by decide
theorem test_envVerifycrc_bad :
    answer (exec (.envVerifycrc .rx) (ended [0x05, 0x03, 0x00, 0x00, 0x00, 0x02, 0xC5, 0x8E] slave)) = some (.ok, 0) := by decide

/-! ## Envelopes -/

/-- The examples of R210, R211, R212. -/
theorem test_envCreq : sentPdu (exec (.envCreq 0x03) master) = some ([0x00, 0x03, 0x00, 0x00, 0x00, 0x00], 0) := by decide
theorem test_envCreq_diag : answer (exec (.envCreq 0x83) master) = some (.unsupported, 0) := by decide
theorem test_envCrsp : sentPdu (exec (.envCrsp 0x03) slave) = some ([0x05, 0x03, 0x00], 0) := by decide
theorem test_envCrsp_empties : after (exec (.envCrsp 0x07) regsRsp) (fun s => (s.result, s.txVariant, s.txLen)) =
    some (.unsupported, .none, 0) := by decide
theorem test_envCdiag : sentPdu (exec (.envCdiag 0x0F) slave) = some ([0x05, 0x8F, 0x00], 0) := by decide
theorem test_envCdiag_bit7 : sentPdu (exec (.envCdiag 0x8F) slave) = some ([0x05, 0x8F, 0x00], 0) := by decide

/-- The example of R241. -/
theorem test_plGetf : [2, 3, 0, 1, 10, 11, 4].map (fun f => answer (exec (.plGetf .rx f) (received rdholdReqFrame slave))) =
    [some (.ok, 0), some (.ok, 2), some (.ok, 5), some (.ok, 3), some (.ok, 6), some (.ok, 0x8FC5), some (.badVariant, 0)] := by decide
theorem test_plGetf_badArg : answer (exec (.plGetf .tx 12) regsRsp) = some (.badArg, 0) := by decide
/-- The example of R242. -/
theorem test_plSetf : sentPdu (exec (.plSetf 0xFF00 4) singleReq) = some ([0x00, 0x05, 0x00, 0x03, 0xFF, 0x00], 0) := by decide
theorem test_plSetf_owned : answer (exec (.plSetf 3 3) bitsReq) = some (.badVariant, 0) := by decide
/-- The example of R243. -/
theorem test_plResize : sentPdu (exec (.plResize 2) (envelope .rsRegs [0x05, 0x03, 0x00] 0 slave)) =
    some ([0x05, 0x03, 0x04, 0x00, 0x00, 0x00, 0x00], 2) := by decide
/-- The default instance's bound of R258. -/
theorem test_plResize_noSpace : answer (exec (.plResize 128) (envelope .rsRegs [0x05, 0x03, 0x00] 0 State.reset)) =
    some (.noSpace, 0) := by decide
/-- The example of R244. -/
theorem test_plGetbit : [0, 1, 8, 16].map (fun i => answer (exec (.plGetbit .rx i) (received rdcoilsRspFrame master))) =
    [some (.ok, 1), some (.ok, 0), some (.ok, 1), some (.range, 0)] := by decide
theorem test_plGetbit_class : answer (exec (.plGetbit .tx 0) regsRsp) = some (.badVariant, 0) := by decide
/-- The example of R245. -/
theorem test_plSetbit : sentPdu (exec (.plSetbit true 2) (envelope .rsBits [0x00, 0x01, 0x01, 0x01] 3 master)) =
    some ([0x00, 0x01, 0x01, 0x05], 3) := by decide
theorem test_plSetbit_range : answer (exec (.plSetbit true 3) (envelope .rsBits [0x00, 0x01, 0x01, 0x05] 3 master)) =
    some (.range, 0) := by decide
/-- The example of R246. -/
theorem test_plGetreg : [0, 1, 2].map (fun i => answer (exec (.plGetreg .rx i) (received rdholdRspFrame master))) =
    [some (.ok, 10), some (.ok, 20), some (.range, 0)] := by decide
/-- The example of R247. -/
theorem test_plSetreg : sentPdu (exec (.plSetreg 20 1) (envelope .rsRegs [0x05, 0x03, 0x04, 0x00, 0x0A, 0x00, 0x00] 2 slave)) =
    some ([0x05, 0x03, 0x04, 0x00, 0x0A, 0x00, 0x14], 2) := by decide

/-- The examples of R250 to R257. -/
theorem test_plInsbitsH : sentPdu (exec (.plInsbitsH 3) { bitsReq with hdata := [1, 1, 1] }) =
    some ([0x00, 0x0F, 0x00, 0x00, 0x00, 0x0D, 0x02, 0x6F, 0x0E], 13) := by decide
theorem test_plInsbitsT :
    sentPdu (exec (.plInsbitsT 10)
      { envelope .rqWbits [0x00, 0x0F, 0x00, 0x00, 0x00, 0x00, 0x00] 0 master with hdata := [1, 0, 1, 1, 0, 0, 1, 1, 1, 0] }) =
    some ([0x00, 0x0F, 0x00, 0x00, 0x00, 0x0A, 0x02, 0xCD, 0x01], 10) := by decide
theorem test_plRembitsH :
    after (exec (.plRembitsH 3) (envelope .rqWbits [0x00, 0x0F, 0x00, 0x00, 0x00, 0x0D, 0x02, 0x6F, 0x0E] 13 master))
      (fun s => (s.txBuf.slice 0 s.txLen, s.hdata)) =
    some ([0x00, 0x0F, 0x00, 0x00, 0x00, 0x0A, 0x02, 0xCD, 0x01], [1, 1, 1]) := by decide
theorem test_plRembitsT : after (exec (.plRembitsT 4) bitsReq) (fun s => (s.txBuf.slice 0 s.txLen, s.hdata)) =
    some ([0x00, 0x0F, 0x00, 0x00, 0x00, 0x06, 0x01, 0x0D], [1, 1, 1, 0]) := by decide
theorem test_plInsregsH : sentPdu (exec (.plInsregsH 1) { regsReq with hdata := [0xBEEF] }) =
    some ([0x00, 0x10, 0x00, 0x00, 0x00, 0x03, 0x06, 0xBE, 0xEF, 0x00, 0x0A, 0x01, 0x02], 3) := by decide
theorem test_plInsregsT :
    sentPdu (exec (.plInsregsT 2)
      { envelope .rqWregs [0x00, 0x10, 0x00, 0x00, 0x00, 0x00, 0x00] 0 master with hdata := [0x000A, 0x0102] }) =
    some ([0x00, 0x10, 0x00, 0x00, 0x00, 0x02, 0x04, 0x00, 0x0A, 0x01, 0x02], 2) := by decide
theorem test_plRemregsH :
    after (exec (.plRemregsH 1)
        (envelope .rqWregs [0x00, 0x10, 0x00, 0x00, 0x00, 0x02, 0x04, 0xBE, 0xEF, 0x00, 0x0A] 2 master))
      (fun s => (s.txBuf.slice 0 s.txLen, s.hdata)) =
    some ([0x00, 0x10, 0x00, 0x00, 0x00, 0x01, 0x02, 0x00, 0x0A], [0xBEEF]) := by decide
theorem test_plRemregsT :
    after (exec (.plRemregsT 1)
        (envelope .rqWregs [0x00, 0x10, 0x00, 0x00, 0x00, 0x03, 0x06, 0xBE, 0xEF, 0x00, 0x0A, 0x01, 0x02] 3 master))
      (fun s => (s.txBuf.slice 0 s.txLen, s.hdata)) =
    some ([0x00, 0x10, 0x00, 0x00, 0x00, 0x02, 0x04, 0xBE, 0xEF, 0x00, 0x0A], [0x0102]) := by decide
/-- V55 and R255: NOSPACE has popped the entries. -/
theorem test_plInsregs_noSpace :
    after (exec (.plInsregsT 7) { regsReq with hdata := [1, 2, 3, 4, 5, 6, 7, 8] }) (fun s => (s.result, s.txLen, s.hdata)) =
    some (.noSpace, 11, [8]) := by decide

/-- 10_state.md R44, 43_payload_ops.md R252, R249: a remove of no element empties the FIFO and zeroes an applied CRC. -/
theorem test_plRembits_zero :
    after (exec (.plRembitsH 0) { bitsReq with txBuf := bitsReq.txBuf.write 9 0xAA, hdata := [7] })
      (fun s => (s.txBuf.slice 0 11, s.txLen, s.hdata)) =
    some ([0x00, 0x0F, 0x00, 0x00, 0x00, 0x0A, 0x02, 0xCD, 0x01, 0x00, 0x00], 9, []) := by decide

/-- 30_encoding.md R107: the two legal values, and any other. -/
theorem test_coil_values : [0xFF00, 0x0000, 0x1234].map (fun v => (coilLegal v, coilOn v)) =
    [(true, true), (true, false), (false, false)] := by decide

/-! ## Framing -/

/-- P1, steps 6 and 7: a frame ends when the silence is exceeded, not when it is reached. -/
theorem test_fsmUpdate_waits : after (exec .fsmUpdate (receiving rdholdReqFrame 4011 slave)) (fun s => (s.rxState, s.totalFrames)) =
    some (.waitData, 0) := by decide
theorem test_fsmUpdate_delivers :
    after (exec .fsmUpdate (receiving rdholdReqFrame 4012 slave))
      (fun s => (s.rxState, s.totalFrames, s.failedFrames, s.rxView, s.allowed)) =
    some (.waitStation, 1, 0, ⟨.rqRead, .ok, 0, 0⟩, true) := by decide

/-- V71: elapsed time across the wrap of `now`. -/
theorem test_elapsed_wrap : elapsed 0x000007AB 0xFFFFF800 = 4011 ∧ elapsed 0x000007AC 0xFFFFF800 = 4012 := by decide

/-! ## Roles -/

/-- The example of R333. -/
theorem test_roleXmit_master :
    after (exec (.roleXmit 5) { readReq with now := 1000 }) (fun s => (s.txlog, s.awaiting, s.txStampUs, s.lastActUs)) =
    some ([.txBegin, .txByte 0x05, .txByte 0x03, .txByte 0x00, .txByte 0x00, .txByte 0x00, .txByte 0x02, .txByte 0xC5,
      .txByte 0x8F, .txEnd], true, 1000, 1000) := by decide
/-- The example of R334. -/
theorem test_roleXmit_slave :
    after (exec (.roleXmit 77) { regsRsp with allowed := true }) (fun s => (s.txBuf.slice 0 9, s.allowed)) =
    some ([0x05, 0x03, 0x04, 0x00, 0x0A, 0x00, 0x14, 0x9F, 0xFE], false) := by decide
/-- P2, step 9. -/
theorem test_roleXmitdef : after (exec (.roleXmitdef 5) readReq) (fun s => (s.txPending, s.pendingTarget, s.txlog)) =
    some (true, 5, []) := by decide
theorem test_roleAvail_master : answer (exec .roleAvail master) = some (.ok, 1) := by decide
theorem test_roleAvail_slave : answer (exec .roleAvail slave) = some (.ok, 0) := by decide

/-! ## Configuration and system -/

/-- The example of R370. -/
theorem test_cfgSetbaud : after (exec (.cfgSetbaud 19200) slave) (fun s => (s.silenceUs, s.sendbackUs)) =
    some (2006, 160480) := by decide
/-- V90: rounding up to 1, and the largest product. -/
theorem test_cfgSetbaud_one : after (exec (.cfgSetbaud 1) slave) (fun s => (s.silenceUs, s.sendbackUs)) =
    some (38500000, 3080000000) := by decide
/-- V91. -/
theorem test_cfgSetsilence : after (exec (.cfgSetsilence 1750) slave) (fun s => (s.silenceUs, s.sendbackUs, s.baud)) =
    some (1750, 320880, 9600) := by decide
theorem test_cfgSetsendback : after (exec (.cfgSetsendback 7) slave) (fun s => (s.sendbackUs, s.silenceUs)) = some (7, 4011) := by decide
theorem test_cfgSettimeout : after (exec (.cfgSettimeout 1000000) slave) State.respTimeoutUs = some 1000000 := by decide
/-- V93. -/
theorem test_cfgSetstation : [0, 1, 247, 248].map (fun v => after (exec (.cfgSetstation v) slave) fun s => (s.result, s.station)) =
    [some (.badArg, 5), some (.ok, 1), some (.ok, 247), some (.badArg, 5)] := by decide
theorem test_cfgSetstation_master : answer (exec (.cfgSetstation 5) master) = some (.badArg, 0) := by decide
/-- V94. -/
theorem test_sysSoftreset :
    after (exec .sysSoftreset
        { received rdholdReqFrame regsRsp with allowed := true, txPending := true, totalFrames := 1, evPending := 1 })
      (fun s => ((s.rxLen, s.txLen, s.totalFrames), (s.rxValid, s.allowed, s.txPending, s.evPending))) =
    some ((0, 7, 1), (false, false, false, 1)) := by decide
/-- V95. -/
theorem test_evAck : after (exec (.evAck 1) { slave with evPending := 3 }) State.evPending = some 2 := by decide
theorem test_evSetmask : after (exec (.evSetmask 1) { slave with evPending := 1 }) (fun s => (s.evMask, irq s)) =
    some (1, true) := by decide
/-- V96. -/
theorem test_sysRdbuf : [0, 7, 8].map (fun o => answer (exec (.sysRdbuf .rx o) (received rdholdReqFrame slave))) =
    [some (.ok, 0x05), some (.ok, 0x8F), some (.range, 0)] := by decide
theorem test_sysRdbuf_tx : [6, 8, 9].map (fun o => answer (exec (.sysRdbuf .tx o) regsRsp)) =
    [some (.ok, 0x14), some (.ok, 0), some (.range, 0)] := by decide

/-! ## The host port -/

/-- The end state of P1: STATUS is 0x004 with a valid frame and nothing else. -/
theorem test_status : registerValue .status (received rdholdReqFrame slave) = 0x004 := by decide
/-- The end state of P2: an idle master. -/
theorem test_status_master : registerValue .status master = 0x0C0 := by decide
/-- HDATA pops one entry on a read and reads 0 when empty (10_state.md R44). -/
theorem test_hdata_read : after (step { slave with hdata := [7, 8], inputs := [.read 0x14] }) (fun s => (s.portData, s.hdata)) =
    some (7, [8]) := by decide
theorem test_step_badCommand : answer (step { slave with inputs := [.write 0x00 0x4C] }) = some (.badCmd, 0) := by decide
/-- 20_memory.md R79: only a step that is no host read moves the counter the value of CMD_OP is drawn with. -/
theorem test_step_free : [Input.read 0x00, .read 0x14, .tick 1, .write 0x04 9].map
    (fun i => after (step { slave with inputs := [i] }) State.freeCount) = [some 0, some 0, some 1, some 1] := by decide
theorem test_step_idle : step State.reset = .next State.reset := rfl

/-! ## Table words -/

theorem test_table_word : decodeTableWord 8 0x30 = some .fsmUpdate := by decide
theorem test_fetch_word : after (step (State.reset.withFetchWord 8 0x03)) (fun s => (s.result, s.rdata)) = some (.ok, 0xFFFF) := by decide

/-! ## Witnesses

For every statement with hypotheses, a state and operands that meet them all; a statement of several clauses has one for each. -/

/-- An outcome whose next state answers `v` is a next state. -/
theorem exists_of_after {α : Type} {o : Outcome} {f : State → α} {v : α} (h : after o f = some v) : ∃ t, o = .next t ∧ f t = v := by
  cases o with
  | next t => exact ⟨t, rfl, Option.some.inj h⟩
  | fault _ => cases h
  | refused _ => cases h

/-- The difference of two clock registers modulo 2^32 (60_exceptions.md R416), as the statements write it. -/
def since (now t0 : Word) : Nat := (2 ^ 32 - t0.toNat + now.toNat) % 2 ^ 32

/-- The state with its host about to write `value` to CMD_OP, with `a0` in CMD_ARG0. -/
def commanding (value a0 : Word) (s : State) : State := { s with cmdArg0 := a0, inputs := [.write 0x00 value] }

/-- An envelope that fills the small instance: 152 bits. -/
def fullBits : State := envelope .rsBits ([0x05#8, 0x01#8, 0x13#8] ++ List.replicate 19 0x00#8) 152 slave
/-- A diagnose envelope. -/
def diagRsp : State := envelope .diag [0x05#8, 0x83#8, 0x00#8] 0 slave
/-- Envelopes of the default instance. -/
def wideBits : State := envelope .rsBits [0x01#8, 0x01#8, 0x00#8] 0 State.reset
def wideRegs : State := envelope .rsRegs [0x01#8, 0x03#8, 0x00#8] 0 State.reset
/-- Sixteen entries, the depth of the small instance. -/
def entries : List Half := List.replicate 16 1#16
/-- A frame of three bytes, and one that fills the buffer. -/
def shortFrame : State := receiving [0x05#8, 0x03#8, 0x00#8] 4012 slave
def longFrame : State := { slave with rxq := List.replicate 25 0x05#8 }
/-- A master that waits for its response, and one with the response received. -/
def waiting : State := { readReq with awaiting := true, now := 1000000 }
def answered : State := { receiving rdholdRspFrame 4012 master with awaiting := true }
/-- A slave and a master with a deferred transmission and `quiet` microseconds since the last activity. -/
def deferredSlave (quiet : Word) : State := { regsRsp with allowed := true, txPending := true, now := quiet }
def deferredMaster (quiet : Word) : State := { readReq with txPending := true, pendingTarget := 0xF7, now := quiet }

theorem inv_slave : slave.Inv := State.inv_of_check (by decide)
theorem inv_master : master.Inv := State.inv_of_check (by decide)
theorem inv_bitsRsp : bitsRsp.Inv := State.inv_of_check (by decide)
theorem inv_regsRsp : regsRsp.Inv := State.inv_of_check (by decide)
theorem inv_readReq : readReq.Inv := State.inv_of_check (by decide)
theorem inv_singleReq : singleReq.Inv := State.inv_of_check (by decide)
theorem inv_bitsReq : bitsReq.Inv := State.inv_of_check (by decide)
theorem inv_regsReq : regsReq.Inv := State.inv_of_check (by decide)
theorem inv_fullBits : fullBits.Inv := State.inv_of_check (by decide)
theorem inv_diagRsp : diagRsp.Inv := State.inv_of_check (by decide)
theorem inv_wideBits : wideBits.Inv := State.inv_of_check (by decide)
theorem inv_wideRegs : wideRegs.Inv := State.inv_of_check (by decide)
theorem inv_received_slave : (received rdholdReqFrame slave).Inv := State.inv_of_check (by decide)
theorem inv_received_bits : (received rdcoilsRspFrame master).Inv := State.inv_of_check (by decide)
theorem inv_received_regs : (received rdholdRspFrame master).Inv := State.inv_of_check (by decide)
theorem inv_ended : (ended [0x05#8, 0x03#8, 0x00#8, 0x00#8] slave).Inv := State.inv_of_check (by decide)
theorem inv_receiving : (receiving rdholdReqFrame 4012 slave).Inv := State.inv_of_check (by decide)
theorem inv_waits : (receiving rdholdReqFrame 4011 slave).Inv := State.inv_of_check (by decide)
theorem inv_shortFrame : shortFrame.Inv := State.inv_of_check (by decide)
theorem inv_longFrame : longFrame.Inv := State.inv_of_check (by decide)
theorem inv_waiting : waiting.Inv := State.inv_of_check (by decide)
theorem inv_answered : answered.Inv := State.inv_of_check (by decide)
theorem inv_allowed : State.Inv { regsRsp with allowed := true } := State.inv_of_check (by decide)
theorem inv_deferredSlave : (deferredSlave 320880).Inv := State.inv_of_check (by decide)
theorem inv_deferredSlave_early : (deferredSlave 320879).Inv := State.inv_of_check (by decide)
theorem inv_deferredMaster : (deferredMaster 320880).Inv := State.inv_of_check (by decide)
theorem inv_deferred_empty : State.Inv { slave with allowed := true, txPending := true, now := 320880 } := State.inv_of_check (by decide)
theorem inv_bits_entries : State.Inv { bitsReq with hdata := entries } := State.inv_of_check (by decide)
theorem inv_regs_entries : State.Inv { regsReq with hdata := [0xBEEF#16] } := State.inv_of_check (by decide)
theorem inv_full_entries : State.Inv { fullBits with hdata := [1#16] } := State.inv_of_check (by decide)
theorem inv_regs_full_entries : State.Inv { regsReq with hdata := entries } := State.inv_of_check (by decide)

/-! ### Encoding -/

theorem witness_AcceptedFrameIsItsOwnEncoding :
    decode (.adu false rdholdReqFrame) = .ok (.rdholdReq 5 [0x00, 0x00, 0x00, 0x02]) := by decide

theorem witness_CommandDecodeReadsExactlyTheListedBits :
    decodeCommand 0x24 0xFFFFFFFF 0xFFFFFFFF = .ok (.plSetbit true 0xFFFF) ∧
      0x00000001#32 &&& (operandBits 0x24).1 = 0xFFFFFFFF#32 &&& (operandBits 0x24).1 ∧
      0x0000FFFF#32 &&& (operandBits 0x24).2 = 0xFFFFFFFF#32 &&& (operandBits 0x24).2 := by decide

theorem witness_ReservedOpcodesReturnBadCmd_reserved :
    [0x00#32, 0x04#32, 0x07#32, 0x0A#32, 0x0F#32, 0x13#32, 0x1F#32, 0x27#32, 0x31#32, 0x37#32, 0x3B#32, 0x3F#32, 0x45#32, 0x47#32, 0x4C#32, 0xFF#32].all
      (fun value => reservedOpcode (value.setWidth 8)) = true := by decide

theorem witness_ReservedOpcodesReturnBadCmd_commands :
    [0x01#32, 0x03#32, 0x08#32, 0x09#32, 0x10#32, 0x12#32, 0x20#32, 0x26#32, 0x28#32, 0x30#32, 0x38#32, 0x3A#32, 0x40#32, 0x44#32, 0x48#32, 0x4B#32].all
      (fun value => !reservedOpcode (value.setWidth 8)) = true := by decide

theorem witness_UnsupportedCodesAreExactlyTheListedOnes_request :
    unsupportedCode 0x00 false = true ∧ unsupportedCode 0x11 false = true ∧ unsupportedCode 0x81 false = true := by decide

theorem witness_UnsupportedCodesAreExactlyTheListedOnes_response :
    unsupportedCode 0x07 true = true ∧ unsupportedCode 0x80 true = true ∧ 0x80 ≤ (0x81#8).toNat := by decide

theorem witness_UnsupportedCodesAreExactlyTheListedOnes_diag :
    unsupportedCode (0x87#8 &&& 0x7F#8) false = true ∧ unsupportedCode (0x80#8 &&& 0x7F#8) false = true := by decide

/-! ### Steps -/

theorem witness_StepRunsTheDecodedCommand :
    (commanding 0x38 5 readReq).inputs = .write 0x00 0x38#32 :: [] ∧
      decode (.command ((0x38#32).setWidth 8) (commanding 0x38 5 readReq).cmdArg0 (commanding 0x38 5 readReq).cmdArg1) =
        .ok (.roleXmit 5) := by decide

theorem witness_StepRunsTheDecodedFrame :
    let s := commanding 0x30 0 (receiving rdholdReqFrame 4012 slave)
    s.inputs = .write 0x00 0x30#32 :: [] ∧ (0x30#32).setWidth 8 = 0x30#8 ∧ s.rxq = [] ∧ s.rxState ≠ .waitStation ∧
      4 ≤ s.rxLen ∧ s.rxLen < s.params.cap ∧ s.silenceUs.toNat < elapsed s.now s.lastRxUs ∧
      decode (.adu (decide (s.params.role = .master)) (s.rxBuf.slice 0 s.rxLen)) = .ok (.rdholdReq 5 [0x00, 0x00, 0x00, 0x02]) := by decide

theorem witness_HostReadsAndWritesFollowTheRegisterMap :
    (3 ≤ 3 ∧ 3 ≠ 5) ∧ (26 ≤ 26 ∧ 26 ≠ 5) ∧ 26 * 4 < 0x6C ∧ 0x66 % 4 ≠ 0 := by decide

theorem witness_StatusAndViewRegistersPackTheirFields :
    slave.rxValid = false ∧ (received rdholdReqFrame slave).rxValid = true := by decide

/-! ### The CRC -/

theorem witness_ApplyCrcWritesTheCrcAfterThePdu :
    slave.txVariant = .none ∧ fullBits.txVariant ≠ .none ∧ fullBits.txLen + 2 = fullBits.params.cap := by decide

theorem witness_VerifyCrcComparesTheTrailingBytes_none :
    slave.rxLen < 4 ∧ shortFrame.rxState ≠ .waitStation ∧ (ended [0x05, 0x03, 0x00] slave).rxLen = 3 ∧
      slave.txVariant = .none := by decide

theorem witness_VerifyCrcComparesTheTrailingBytes_rx :
    (ended [0x05, 0x03, 0x00, 0x00] slave).rxState = .waitStation ∧ (ended [0x05, 0x03, 0x00, 0x00] slave).rxLen = 4 ∧
      4 ≤ (ended [0x05, 0x03, 0x00, 0x00] slave).params.cap := by decide

theorem witness_VerifyCrcComparesTheTrailingBytes_tx :
    fullBits.txVariant ≠ .none ∧ fullBits.txLen + 2 ≤ fullBits.params.cap := by decide

theorem witness_VerifyDetectsEveryInvertedBit :
    regsRsp.txVariant ≠ .none ∧ ∃ t, exec .envApplycrc regsRsp = .next t ∧ (8 < regsRsp.txLen + 2 ∧ 7 < 8) := ⟨by decide, let ⟨t, h, _⟩ := exists_of_after (f := State.result) (v := .ok) (o := exec .envApplycrc regsRsp) (by decide); ⟨t, h, by decide⟩⟩

/-! ### Wire forms -/

theorem witness_ReadResponsesAreDelivered :
    Instr.rddiscRsp 5 [0x01, 0xAC] ∈ [.rdcoilsRsp 5 [0x01, 0xAC], .rddiscRsp 5 [0x01, 0xAC]] ∧
      Instr.rdinputRsp 5 [0x02, 0xFF, 0xFF] ∈ [.rdholdRsp 5 [0x02, 0xFF, 0xFF], .rdinputRsp 5 [0x02, 0xFF, 0xFF]] ∧
      1 = (([0x01, 0xAC] : List Byte).getD 0 0).toNat ∧ 1 = ([0x01, 0xAC] : List Byte).length - 1 := by decide

theorem witness_FixedLengthFormsAreDelivered :
    Instr.rdinputReq 5 [] ∈ [.rdcoilsReq 5 [], .rddiscReq 5 [], .rdholdReq 5 [], .rdinputReq 5 []] ∧
      Instr.wrregRsp 5 [] ∈ [.wrcoilReq 5 [], .wrcoilRsp 5 [], .wrregReq 5 [], .wrregRsp 5 []] ∧
      Instr.wrregsRsp 5 [] ∈ [.wrcoilsRsp 5 [], .wrregsRsp 5 []] ∧
      ∃ base, Instr.diagRsp .writeRegs 5 [] = .diagRsp base 5 [] := ⟨by decide, by decide, by decide, _, rfl⟩

theorem witness_WriteMultipleRequestsAreDelivered :
    let p : List Byte := [0x00, 0x13, 0x00, 0x0A, 0x02, 0xCD, 0x01]
    10 = 256 * (p.getD 2 0).toNat + (p.getD 3 0).toNat ∧ 2 = (p.getD 4 0).toNat ∧ 2 = p.length - 5 := by decide

theorem witness_DecodedElementsLieInsideThePayload_bits :
    15 < (pduDecode 0x01 true [0x02, 0xCD, 0x01]).vq.toNat ∧ isBits (pduDecode 0x01 true [0x02, 0xCD, 0x01]).variant = true := by decide

theorem witness_DecodedElementsLieInsideThePayload_regs :
    1 < (pduDecode 0x10 false [0x00, 0x01, 0x00, 0x02, 0x04, 0x00, 0x0A, 0x01, 0x02]).vq.toNat ∧
      isRegs (pduDecode 0x10 false [0x00, 0x01, 0x00, 0x02, 0x04, 0x00, 0x0A, 0x01, 0x02]).variant = true := by decide

theorem witness_DecodeOfEncodeReturnsThePayload :
    (Payload.regsRsp .readHolding [0x000A, 0x0014]).valid = true ∧
      regsRsp.txBuf.slice 1 (pduEncode (.regsRsp .readHolding [0x000A, 0x0014])).length =
        pduEncode (.regsRsp .readHolding [0x000A, 0x0014]) := by decide

theorem witness_DecodeOfEncodeReturnsThePayload_longest :
    (Payload.regsRsp .readInput (List.replicate 127 0)).valid = true ∧ (Payload.diag .writeRegs 0xFF).valid = true := by decide

/-! ### Envelopes -/

theorem witness_CreateCommandsLayDownAZeroPayload :
    9 ≤ slave.params.cap ∧ supported 0x01 = true ∧ supported 0x06 = true ∧ supported 0x0F = true ∧ supported 0x10 = true ∧
      supported (0x90 &&& 0x7F#8) = true := by decide

theorem witness_GetFieldReadsTheSelectedFrame_rx :
    slave.Inv ∧ slave.rxValid = false ∧ (received rdholdReqFrame slave).Inv ∧ (received rdholdReqFrame slave).rxValid = true := ⟨inv_slave, by decide, inv_received_slave, by decide⟩

theorem witness_GetFieldReadsTheSelectedFrame_tx :
    slave.Inv ∧ slave.txVariant = .none ∧ diagRsp.Inv ∧ diagRsp.txVariant ≠ .none := ⟨inv_slave, by decide, inv_diagRsp, by decide⟩

theorem witness_SetFieldWritesOnlyItsField_refused :
    slave.Inv ∧ slave.txVariant = .none ∧ regsRsp.Inv ∧ regsRsp.txVariant ≠ .none ∧
      fieldWriting regsRsp.txVariant (4#4).toNat = .error .badVariant ∧ fieldWriting regsRsp.txVariant (15#4).toNat = .error .badArg := ⟨inv_slave, by decide, inv_regsRsp, by decide, rfl, rfl⟩

theorem witness_SetFieldWritesOnlyItsField_word :
    singleReq.Inv ∧ singleReq.txVariant ≠ .none ∧ fieldWriting singleReq.txVariant (4#4).toNat = .ok (4, 2) := ⟨inv_singleReq, by decide, rfl⟩

theorem witness_SetFieldWritesOnlyItsField_byte :
    diagRsp.Inv ∧ diagRsp.txVariant ≠ .none ∧ fieldWriting diagRsp.txVariant (6#4).toNat = .ok (2, 1) := ⟨inv_diagRsp, by decide, rfl⟩

theorem witness_RefusesOutsideClass :
    slave.Inv ∧ slave.txVariant = .none ∧ diagRsp.Inv ∧ diagRsp.txVariant ≠ .none ∧ isVariable diagRsp.txVariant = false ∧
      regsRsp.Inv ∧ isBits regsRsp.txVariant = false ∧ bitsRsp.Inv ∧ isRegs bitsRsp.txVariant = false := ⟨inv_slave, by decide, inv_diagRsp, by decide, by decide, inv_regsRsp, by decide, inv_bitsRsp, by decide⟩

theorem witness_ResizeLeavesZeroElementsOrNothing_small :
    bitsRsp.Inv ∧ isVariable bitsRsp.txVariant = true ∧ Fits bitsRsp.params.cap bitsRsp.txVariant (152#16).toNat ∧
      ¬ Fits bitsRsp.params.cap bitsRsp.txVariant (153#16).toNat := ⟨inv_bitsRsp, by decide, by unfold Fits; decide, by unfold Fits; decide⟩

theorem witness_ResizeLeavesZeroElementsOrNothing_wide :
    wideBits.Inv ∧ wideRegs.Inv ∧ 264 ≤ wideBits.params.cap ∧ isBits wideBits.txVariant = true ∧ isRegs wideRegs.txVariant = true ∧
      Fits wideBits.params.cap .rsBits (2040#16).toNat ∧ ¬ Fits wideBits.params.cap .rsBits (2041#16).toNat ∧
      Fits wideRegs.params.cap .rsRegs (127#16).toNat ∧ ¬ Fits wideRegs.params.cap .rsRegs (128#16).toNat := ⟨inv_wideBits, inv_wideRegs, by decide, by decide, by decide, by unfold Fits; decide, by unfold Fits; decide,
    by unfold Fits; decide, by unfold Fits; decide⟩

theorem witness_GetBitAndGetRegReturnOneElement_none :
    slave.Inv ∧ select .rx slave = none ∧ select .tx slave = none := ⟨inv_slave, by decide, by decide⟩

theorem witness_GetBitAndGetRegReturnOneElement_bits :
    bitsRsp.Inv ∧ ∃ f, select .tx bitsRsp = some f ∧ isBits f.variant = true ∧ isRegs f.variant = false ∧ (9#16).toNat < f.vq ∧
      f.vq ≤ (10#16).toNat := ⟨inv_bitsRsp, _, rfl, by decide, by decide, by decide, by decide⟩

theorem witness_GetBitAndGetRegReturnOneElement_regs :
    (received rdholdRspFrame master).Inv ∧ ∃ f, select .rx (received rdholdRspFrame master) = some f ∧ isRegs f.variant = true ∧
      isBits f.variant = false ∧ (1#16).toNat < f.vq ∧ f.vq ≤ (2#16).toNat := ⟨inv_received_regs, _, rfl, by decide, by decide, by decide, by decide⟩

theorem witness_SetBitChangesExactlyOneBit :
    bitsRsp.Inv ∧ isBits bitsRsp.txVariant = true ∧ (9#16).toNat < bitsRsp.txVq.toNat ∧ bitsRsp.txVq.toNat ≤ (10#16).toNat := ⟨inv_bitsRsp, by decide, by decide, by decide⟩

theorem witness_SetRegWritesTwoBytes :
    regsReq.Inv ∧ isRegs regsReq.txVariant = true ∧ (1#16).toNat < regsReq.txVq.toNat ∧ regsReq.txVq.toNat ≤ (2#16).toNat := ⟨inv_regsReq, by decide, by decide, by decide⟩

theorem witness_InsertCommandsStoreTheNewElements_bits :
    State.Inv { bitsReq with hdata := entries } ∧ isBits bitsReq.txVariant = true ∧ 0 < (16#16).toNat ∧ (16#16).toNat ≤ entries.length ∧
      Fits bitsReq.params.cap bitsReq.txVariant (bitsReq.txVq.toNat + 16) ∧ entries.length < (17#16).toNat := ⟨inv_bits_entries, by decide, by decide, by decide, by unfold Fits; decide, by decide⟩

theorem witness_InsertCommandsStoreTheNewElements_bits_full :
    State.Inv { fullBits with hdata := [1#16] } ∧ isBits fullBits.txVariant = true ∧ 0 < (1#16).toNat ∧ (1#16).toNat ≤ [1#16].length ∧
      ¬ Fits fullBits.params.cap fullBits.txVariant (fullBits.txVq.toNat + 1) := ⟨inv_full_entries, by decide, by decide, by decide, by unfold Fits; decide⟩

theorem witness_InsertCommandsStoreTheNewElements_regs :
    State.Inv { regsReq with hdata := entries } ∧ isRegs regsReq.txVariant = true ∧ (6#16).toNat ≤ entries.length ∧
      Fits regsReq.params.cap regsReq.txVariant (regsReq.txVq.toNat + 5) ∧
      ¬ Fits regsReq.params.cap regsReq.txVariant (regsReq.txVq.toNat + 6) := ⟨inv_regs_full_entries, by decide, by decide, by unfold Fits; decide, by unfold Fits; decide⟩

theorem witness_InsertCommandsStoreTheNewElements_zero :
    bitsReq.Inv ∧ isBits bitsReq.txVariant = true ∧ regsReq.Inv ∧ isRegs regsReq.txVariant = true ∧ (0#16).toNat = 0 := ⟨inv_bitsReq, by decide, inv_regsReq, by decide, rfl⟩

theorem witness_RemoveCommandsDeliverTheRemovedElements_bits :
    bitsReq.Inv ∧ isBits bitsReq.txVariant = true ∧ 0 < (10#16).toNat ∧ (10#16).toNat ≤ bitsReq.txVq.toNat ∧ bitsReq.txVq.toNat < (11#16).toNat := ⟨inv_bitsReq, by decide, by decide, by decide, by decide⟩

theorem witness_RemoveCommandsDeliverTheRemovedElements_regs :
    regsReq.Inv ∧ isRegs regsReq.txVariant = true ∧ 0 < (2#16).toNat ∧ (2#16).toNat ≤ regsReq.txVq.toNat ∧ regsReq.txVq.toNat < (3#16).toNat := ⟨inv_regsReq, by decide, by decide, by decide, by decide⟩

theorem witness_InsertThenRemoveRestoresTheEnvelope :
    let s : State := { bitsReq with hdata := entries }
    s.Inv ∧ (.plInsbitsT 16, .plRembitsT 16) ∈ insertRemovePairs 16 ∧ s.txBuf.read s.txLen = 0 ∧ s.txBuf.read (s.txLen + 1) = 0 ∧
      (16#16).toNat ≤ s.params.hdataDepth ∧ ∃ t, exec (.plInsbitsT 16) s = .next t ∧ t.result = .ok := ⟨inv_bits_entries, by decide, by decide, by decide, by decide, exists_of_after (by decide)⟩

theorem witness_InsertThenRemoveRestoresTheEnvelope_regs :
    let s : State := { regsReq with hdata := [0xBEEF#16] }
    s.Inv ∧ (.plInsregsH 1, .plRemregsH 1) ∈ insertRemovePairs 1 ∧ s.txBuf.read s.txLen = 0 ∧ s.txBuf.read (s.txLen + 1) = 0 ∧
      (1#16).toNat ≤ s.params.hdataDepth ∧ ∃ t, exec (.plInsregsH 1) s = .next t ∧ t.result = .ok := ⟨inv_regs_entries, by decide, by decide, by decide, by decide, exists_of_after (by decide)⟩

theorem witness_RemoveThenInsertRestoresTheEnvelope :
    bitsReq.Inv ∧ (.plInsbitsH 10, .plRembitsH 10) ∈ insertRemovePairs 10 ∧ bitsReq.txBuf.read bitsReq.txLen = 0 ∧
      bitsReq.txBuf.read (bitsReq.txLen + 1) = 0 ∧ (10#16).toNat ≤ bitsReq.params.hdataDepth ∧
      ∃ t, exec (.plRembitsH 10) bitsReq = .next t ∧ t.result = .ok := ⟨inv_bitsReq, by decide, by decide, by decide, by decide, exists_of_after (by decide)⟩

theorem witness_RemoveThenInsertRestoresTheEnvelope_regs :
    regsReq.Inv ∧ (.plInsregsT 1, .plRemregsT 1) ∈ insertRemovePairs 1 ∧ regsReq.txBuf.read regsReq.txLen = 0 ∧
      regsReq.txBuf.read (regsReq.txLen + 1) = 0 ∧ (1#16).toNat ≤ regsReq.params.hdataDepth ∧
      ∃ t, exec (.plRemregsT 1) regsReq = .next t ∧ t.result = .ok := ⟨inv_regsReq, by decide, by decide, by decide, by decide, exists_of_after (by decide)⟩

theorem witness_EnvelopeDecodesOkInItsOwnDirection :
    bitsReq.Inv ∧ bitsReq.txVariant ≠ .none ∧ variantOf (bitsReq.txBuf.read 1) false = bitsReq.txVariant ∧
      diagRsp.Inv ∧ diagRsp.txVariant ≠ .none ∧ variantOf (diagRsp.txBuf.read 1) true = diagRsp.txVariant := ⟨inv_bitsReq, by decide, by decide, inv_diagRsp, by decide, by decide⟩

/-! ### Framing -/

theorem witness_DrainStoresTheQueueInOrder :
    slave.Inv ∧ min slave.rxq.length (slave.params.cap - 0) = 0 ∧ longFrame.Inv ∧ longFrame.rxState = .waitStation ∧
      min longFrame.rxq.length (longFrame.params.cap - 0) = 24 := ⟨inv_slave, by decide, inv_longFrame, by decide, by decide⟩

theorem witness_EndCheckTestsOverflowThenSilence :
    slave.rxState = .waitStation ∧
      (drain longFrame).rxState ≠ .waitStation ∧ (drain longFrame).params.cap ≤ (drain longFrame).rxLen ∧
      (∀ s ∈ [receiving rdholdReqFrame 4011 slave], s.rxState ≠ .waitStation ∧ s.rxLen < s.params.cap ∧
        since s.now s.lastRxUs ≤ s.silenceUs.toNat) ∧
      (∀ s ∈ [shortFrame, receiving [0x05, 0x03, 0x00, 0x00] 4012 slave], s.rxState ≠ .waitStation ∧ s.rxLen < s.params.cap ∧
        s.silenceUs.toNat < since s.now s.lastRxUs) ∧ shortFrame.rxLen = 3 ∧
      (receiving [0x05, 0x03, 0x00, 0x00] 4012 slave).rxLen = 4 := by decide

theorem witness_CompletionChecksCrcThenFunctionCode :
    4 ≤ (ended [0x05, 0x03, 0x00, 0x00] slave).rxLen ∧ 4 ≤ (receiving rdholdReqFrame 4012 slave).rxLen := by decide

theorem witness_UpdateRunsItsPhasesInOrder :
    (receiving rdholdReqFrame 4012 slave).Inv := inv_receiving

theorem witness_NoFrameEndsWithoutSilence :
    let s := receiving rdholdReqFrame 4011 slave
    s.Inv ∧ (drain s).rxLen < s.params.cap ∧ elapsed s.now (drain s).lastRxUs ≤ s.silenceUs.toNat ∧
      ∃ t, exec .fsmUpdate s = .next t ∧ t.result = .ok := ⟨inv_waits, by decide, by decide, exists_of_after (by decide)⟩

theorem witness_ShortAndOverlongFramesFail_short :
    shortFrame.Inv ∧ shortFrame.awaiting = false ∧ shortFrame.txPending = false ∧ shortFrame.rxState ≠ .waitStation ∧
      shortFrame.rxq = [] ∧ shortFrame.rxLen < 4 ∧ shortFrame.silenceUs.toNat < elapsed shortFrame.now shortFrame.lastRxUs := ⟨inv_shortFrame, by decide⟩

theorem witness_ShortAndOverlongFramesFail_overflow :
    longFrame.Inv ∧ longFrame.awaiting = false ∧ longFrame.txPending = false ∧
      (drain longFrame).rxLen = longFrame.params.cap ∧ (drain longFrame).rxState ≠ .waitStation := ⟨inv_longFrame, by decide⟩

theorem witness_CountersCountFrameEndsAndFailures :
    let s := commanding 0x30 0 (receiving rdholdReqFrame 4012 slave)
    s.Inv ∧ s.failedFrames.toNat ≤ s.totalFrames.toNat ∧ s.totalFrames.toNat + 1 < 2 ^ 32 ∧
      ∃ t, step s = .next t ∧ (t.totalFrames, t.failedFrames) = (1, 0) := ⟨State.inv_of_check (by decide), by decide, by decide, exists_of_after (by decide)⟩

theorem witness_CountersCountFrameEndsAndFailures_failure :
    let s := commanding 0x30 0 shortFrame
    s.Inv ∧ ∃ t, step s = .next t ∧ (t.totalFrames, t.failedFrames) = (1, 1) := ⟨State.inv_of_check (by decide), exists_of_after (by decide)⟩

/-! ### Roles -/

theorem witness_ResponseTimeoutEndsTheWait :
    slave.params.role = .slave ∧ since { waiting with now := 999999 }.now waiting.txStampUs < waiting.respTimeoutUs.toNat ∧
      waiting.params.role = .master ∧ waiting.awaiting = true ∧ waiting.respTimeoutUs.toNat ≤ since waiting.now waiting.txStampUs := by decide

theorem witness_GateAnswersAndRefuses :
    Instr.roleXmitdef 248 ∈ [.roleXmit 248, .roleXmitdef 248] ∧ slave.txVariant = .none ∧ readReq.txVariant ≠ .none ∧
      readReq.params.role = .master ∧ 247 < (248#8).toNat ∧ (247#8).toNat ≤ 247 ∧ waiting.awaiting = true ∧
      waiting.params.role = .master ∧ waiting.txVariant ≠ .none ∧ regsRsp.txVariant ≠ .none ∧ regsRsp.params.role = .slave ∧
      regsRsp.allowed = false := by decide

theorem witness_MasterTransmitSendsAndArms :
    readReq.Inv ∧ readReq.params.role = .master ∧ readReq.txVariant ≠ .none ∧ (247#8).toNat ≤ 247 ∧ readReq.txPending = false ∧
      readReq.awaiting = false := ⟨inv_readReq, by decide⟩

theorem witness_SlaveTransmitSendsAndDisarms :
    let s : State := { regsRsp with allowed := true }
    s.Inv ∧ s.params.role = .slave ∧ s.txVariant ≠ .none ∧ s.txPending = false ∧ s.allowed = true := ⟨inv_allowed, by decide⟩

theorem witness_DeferredTransmitRecordsTheIntent :
    (readReq.txVariant ≠ .none ∧ readReq.txPending = false ∧ readReq.params.role = .master ∧ (247#8).toNat ≤ 247 ∧
        readReq.awaiting = false) ∧
      (∀ s ∈ [({ regsRsp with allowed := true } : State)], s.txVariant ≠ .none ∧ s.txPending = false ∧ s.params.role = .slave ∧
        s.allowed = true) := by decide

/-- Phase 4 in an update that is receiving a frame: nothing deferred, and deferred with the gap reached. -/
theorem witness_DeferredFrameWaitsForTheGap_receiving :
    let s : State := { receiving rdholdReqFrame 320880 regsRsp with allowed := true, txPending := true }
    slave.Inv ∧ slave.txPending = false ∧ s.Inv ∧ s.rxState = .waitData ∧ s.txPending = true ∧
      s.sendbackUs.toNat ≤ since s.now s.lastActUs ∧ s.txVariant ≠ .none :=
  ⟨inv_slave, rfl, State.inv_of_check (by decide), by decide⟩

theorem witness_DeferredFrameWaitsForTheGap_early :
    let s := deferredSlave 320879
    s.Inv ∧ s.rxq = [] ∧ s.rxState = .waitStation ∧ s.txPending = true ∧ since s.now s.lastActUs < s.sendbackUs.toNat := ⟨inv_deferredSlave_early, by decide⟩

theorem witness_DeferredFrameWaitsForTheGap_empty :
    let s : State := { slave with allowed := true, txPending := true, now := 320880 }
    s.Inv ∧ s.rxq = [] ∧ s.rxState = .waitStation ∧ s.txPending = true ∧ s.sendbackUs.toNat ≤ since s.now s.lastActUs ∧
      s.txVariant = .none := ⟨inv_deferred_empty, by decide⟩

theorem witness_DeferredFrameWaitsForTheGap_slave :
    let s := deferredSlave 320880
    s.Inv ∧ s.rxq = [] ∧ s.rxState = .waitStation ∧ s.txPending = true ∧ s.sendbackUs.toNat ≤ since s.now s.lastActUs ∧
      s.txVariant ≠ .none ∧ s.params.role = .slave := ⟨inv_deferredSlave, by decide⟩

theorem witness_DeferredFrameWaitsForTheGap_master :
    let s := deferredMaster 320880
    s.Inv ∧ s.rxq = [] ∧ s.rxState = .waitStation ∧ s.txPending = true ∧ s.sendbackUs.toNat ≤ since s.now s.lastActUs ∧
      s.txVariant ≠ .none ∧ s.params.role = .master := ⟨inv_deferredMaster, by decide⟩

theorem witness_GateFlagsMoveOnlyAsTheRulesSay_opens :
    let s := commanding 0x30 0 (receiving rdholdReqFrame 4012 slave)
    s.Inv ∧ s.allowed = false ∧ ∃ t, step s = .next t ∧ t.allowed = true := ⟨State.inv_of_check (by decide), by decide, exists_of_after (by decide)⟩

theorem witness_GateFlagsMoveOnlyAsTheRulesSay_closes :
    let s := commanding 0x38 0 { regsRsp with allowed := true }
    s.Inv ∧ s.allowed = true ∧ ∃ t, step s = .next t ∧ t.allowed = false := ⟨State.inv_of_check (by decide), by decide, exists_of_after (by decide)⟩

theorem witness_GateFlagsMoveOnlyAsTheRulesSay_soft_reset :
    let s := commanding 0x48 0 { regsRsp with allowed := true }
    s.Inv ∧ s.allowed = true ∧ ∃ t, step s = .next t ∧ t.allowed = false := ⟨State.inv_of_check (by decide), by decide, exists_of_after (by decide)⟩

theorem witness_GateFlagsMoveOnlyAsTheRulesSay_arms :
    let s := commanding 0x38 247 readReq
    s.Inv ∧ s.awaiting = false ∧ ∃ t, step s = .next t ∧ t.awaiting = true := ⟨State.inv_of_check (by decide), by decide, exists_of_after (by decide)⟩

theorem witness_GateFlagsMoveOnlyAsTheRulesSay_ends :
    let s := commanding 0x30 0 answered
    s.Inv ∧ s.awaiting = true ∧ ∃ t, step s = .next t ∧ t.awaiting = false := ⟨State.inv_of_check (by decide), by decide, exists_of_after (by decide)⟩

theorem witness_EveryTransmissionPassesTheGateWithItsCrc :
    ∀ s ∈ [commanding 0x38 0 { regsRsp with allowed := true }, commanding 0x38 247 readReq, commanding 0x30 0 (deferredSlave 320880)],
      s.Inv ∧ ∃ t, step s = .next t ∧ t.txlog.length = s.txLen + 4 := by
  simp only [List.forall_mem_cons, List.not_mem_nil, false_implies, implies_true, and_true]
  exact ⟨⟨State.inv_of_check (by decide), exists_of_after (by decide)⟩, ⟨State.inv_of_check (by decide), exists_of_after (by decide)⟩,
    State.inv_of_check (by decide), exists_of_after (by decide)⟩

/-! ### Configuration and system commands -/

theorem witness_SetBaudDerivesBothIntervals :
    9600#32 ≠ 0 ∧ 4010 < 2 ^ 32 - 1 ∧ 4010 * (9600#32).toNat < 3500000 * slave.params.charBits ∧
      3500000 * slave.params.charBits ≤ 4011 * (9600#32).toNat ∧
      320880 = min (2 ^ 32 - 1) (slave.params.sendbackMult * 4011) := by decide

theorem witness_SetBaudDerivesBothIntervals_least :
    ∀ k, k < 4011 → k < 2 ^ 32 - 1 ∧ k * (9600#32).toNat < 3500000 * slave.params.charBits := by
  have h : slave.params.charBits = 11 := rfl
  intro k hk
  rw [h]
  simp only [BitVec.toNat_ofNat]
  omega

theorem witness_SettersSoftResetAndEventCommands :
    master.params.role = .master ∧ slave.params.role = .slave ∧ (247 < (248#8).toNat) ∧ 1 ≤ (1#8).toNat ∧ (247#8).toNat ≤ 247 := by decide

theorem witness_RawReadReturnsOneBufferByte :
    (received rdholdReqFrame slave).Inv ∧ (received rdholdReqFrame slave).rxLen ≤ (8#16).toNat ∧
      (7#16).toNat < (received rdholdReqFrame slave).rxLen ∧ (received rdholdReqFrame slave).txVariant = .none ∧
      regsRsp.Inv ∧ regsRsp.txVariant ≠ .none ∧ (8#16).toNat < regsRsp.txLen + 2 ∧ regsRsp.txLen + 2 ≤ (9#16).toNat := ⟨inv_received_slave, by decide, by decide, by decide, inv_regsRsp, by decide, by decide, by decide⟩

/-! ### The whole machine -/

theorem witness_HasOnlyItsWriters :
    ∃ t, exec (.plRembitsT 4) bitsReq = .next t ∧ t.hdata = [1, 1, 1, 0] := exists_of_after (by decide)

theorem witness_RefusedCommandsChangeNothing :
    slave.Inv ∧ (Instr.plGetf .rx 0).isWire = false ∧ ∃ t, exec (.plGetf .rx 0) slave = .next t ∧ t.result = .noFrame := ⟨inv_slave, by decide, exists_of_after (by decide)⟩

theorem witness_RefusedCommandsChangeNothing_create :
    regsRsp.Inv ∧ (Instr.envCrsp 0x07).isWire = false ∧ ∃ t, exec (.envCrsp 0x07) regsRsp = .next t ∧ t.result = .unsupported := ⟨inv_regsRsp, by decide, exists_of_after (by decide)⟩

theorem witness_RefusedCommandsChangeNothing_noSpace :
    State.Inv { fullBits with hdata := [1#16] } ∧ (Instr.plInsbitsH 1).isWire = false ∧
      ∃ t, exec (.plInsbitsH 1) { fullBits with hdata := [1#16] } = .next t ∧ t.result = .noSpace := ⟨inv_full_entries, by decide, exists_of_after (by decide)⟩

theorem witness_ResetMeetsTheInvariant :
    (small .slave).wf ∧ (small .master).wf := by decide

theorem witness_EveryStepKeepsTheInvariant :
    let s := commanding 0x30 0 (receiving rdholdReqFrame 4012 slave)
    s.Inv ∧ s.rxValid = false ∧ ∃ t, step s = .next t ∧ t.rxValid = true := ⟨State.inv_of_check (by decide), by decide, exists_of_after (by decide)⟩

theorem witness_CodesHaveTheNumbersOfTheSpec :
    (received rdholdRspFrame master).Inv ∧ (received rdholdRspFrame master).rxValid = true ∧ regsRsp.Inv ∧ regsRsp.txVariant ≠ .none :=
  ⟨inv_received_regs, by decide, inv_regsRsp, by decide⟩

theorem witness_GoodStatesNeverStop :
    slave.Inv ∧ State.portMisused { slave with inputs := [.read 0x6C] } := ⟨inv_slave, 0x6C, rfl, .inl rfl⟩

theorem witness_StaleBytesAreUnobservable :
    let s := commanding 0x30 0 { slave with rxq := [0x05] }
    let t : State := { s with rxBuf := [(3, 7)], txBuf := [(0, 9)] }
    s.Inv ∧ t.Inv ∧ SameButStale s t ∧ ∃ s', step s = .next s' ∧ s'.rxLen = 1 := ⟨State.inv_of_check (by decide), State.inv_of_check (by decide),
    ⟨rfl, fun a h => absurd h (Nat.not_lt_zero a), fun h => absurd rfl h⟩, exists_of_after (by decide)⟩

end Sys2Proof.Tests
end

section
/-! PROOFS. The state after reset is a good state (70_reset_and_hazards.md section 1). -/

namespace Sys2Proof.Machine

/-- The station of R441 is the one its role asks for: `STATION_RESET` of a slave, 0 of a master. -/
theorem State.gatesOk_resetOf {p : Params} (h : p.wf) : (State.resetOf p).gatesOk := by
  obtain ⟨-, -, station_ge, station_le⟩ := h
  cases hrole : p.role with
  | slave => simp [State.gatesOk, State.resetOf, hrole, station_ge, station_le]
  | master => simp [State.gatesOk, State.resetOf, hrole]

/-- Reset leaves no frame, no envelope, an empty FIFO and an empty log, so only the parameters and the gates ask anything
of the instance. -/
theorem State.resetOf_inv {p : Params} (h : p.wf) : (State.resetOf p).Inv where
  params := h
  buffers := ⟨Buf.wf_nil _, Buf.wf_nil _⟩
  receiver := ⟨Nat.zero_le _, nofun, nofun⟩
  frame := nofun
  envelope := fun hn => absurd rfl hn
  gates := State.gatesOk_resetOf h
  fifo := Nat.zero_le _
  log := logOk_nil _

/-- The instance of log 3 is one the model admits. -/
theorem Params.default_wf : Params.default.wf := by decide

/-- Settles O56: reset of an admitted instance is a good state, and the instance the model starts from is admitted. -/
theorem resetMeetsTheInvariant : Obligations.ResetMeetsTheInvariant :=
  ⟨fun _ h => State.resetOf_inv h, State.resetOf_inv Params.default_wf⟩

end Sys2Proof.Machine
end

section
/-! PROOFS. Every command that goes on from a good state leads to a good state, command by command (43_payload_ops.md R261,
60_exceptions.md R421). -/

namespace Sys2Proof.Machine

variable {s t : State}

/-! ### Ending a command -/

theorem OnlyAnswers.inv (ht : OnlyAnswers s t) (h : s.Inv) : t.Inv := by
  unfold OnlyAnswers at ht
  rw [ht]
  exact h.returning _ _

theorem inv_of_done {code : ResultCode} {value : Word} (ht : done s code value = .next t) (h : s.Inv) : t.Inv :=
  (onlyAnswers_of_done ht).inv h

/-- The elements the invariant does not speak of may change. -/
theorem State.Inv.withRegisters (h : s.Inv) (ht : t = { s with
      evPending := t.evPending, evMask := t.evMask, now := t.now, lastRxUs := t.lastRxUs, lastActUs := t.lastActUs
      txStampUs := t.txStampUs, baud := t.baud, silenceUs := t.silenceUs, sendbackUs := t.sendbackUs
      respTimeoutUs := t.respTimeoutUs, failKind := t.failKind, totalFrames := t.totalFrames
      failedFrames := t.failedFrames, crc := t.crc, cmdArg0 := t.cmdArg0, cmdArg1 := t.cmdArg1, result := t.result
      rdata := t.rdata, rxq := t.rxq, inputs := t.inputs, portData := t.portData, freeCount := t.freeCount }) : t.Inv := by
  rw [ht]
  exact ⟨h.params, h.buffers, h.receiver, h.frame, h.envelope, h.gates, h.fifo, h.log⟩

/-- A command on the envelope keeps the invariant when it does so with an envelope. -/
theorem inv_of_withEnvelope {k : Outcome} (h : s.Inv) (hk : s.txVariant ≠ .none → k = .next t → t.Inv)
    (ht : withEnvelope s k = .next t) : t.Inv := by
  rcases withEnvelope_eq_next ht with ⟨-, rfl⟩ | ⟨hn, -, ht⟩
  · exact h.returning _ _
  · exact hk hn ht

/-! ### The create commands -/

@[simp] theorem storageBytes_zero (v : Variant) : storageBytes v 0 = 0 := by
  unfold storageBytes
  split <;> rfl

theorem initLen_of_isVariable {v : Variant} (h : isVariable v = true) : v.initLen = valOff v := by
  revert h; cases v <;> decide

theorem three_le_initLen {v : Variant} (h : v ≠ .none) : 3 ≤ v.initLen := by
  revert h; cases v <;> decide

theorem read_header (a b : Byte) {i : Nat} (h : 2 ≤ i) : ((Buf.write [] 0 a).write 1 b).read i = 0 := by
  rw [Buf.read_write, if_neg (by omega), Buf.read_write, if_neg (by omega), Buf.read_nil]

/-- The header over a zero payload is a good envelope, where the function code has the variant (42_pdu_create_encode.md R214). -/
theorem State.Inv.created (h : s.Inv) {v : Variant} {header fcb : Byte} (hv : v ≠ .none) (hcap : v.initLen + 2 ≤ s.params.cap)
    (hfc : ∃ isResponse, variantOf fcb isResponse = v) :
    ({ s with txBuf := (Buf.write [] 0 header).write 1 fcb, txVariant := v, txLen := v.initLen, txVq := 0 } : State).Inv := by
  have h3 := three_le_initLen hv
  have hwf : ((Buf.write [] 0 header).write 1 fcb).wf s.params.cap :=
    Buf.write_wf (Buf.write_wf (Buf.wf_nil _) (by omega) _) (by omega) _
  refine h.withEnvelope hwf fun _ => ⟨hcap, ?_, fun a ha => read_header _ _ (Nat.le_of_succ_le (Nat.le_of_succ_le ?_)),
    fun _ => ⟨rfl, rfl⟩, fun hvar => ?_⟩
  · simpa using hfc
  · have : v.initLen + 2 ≤ a := ha
    omega
  · have hvar : isVariable v = true := hvar
    have ho := valOff_of_isVariable hvar
    refine ⟨?_, ?_, fun _ => ?_, fun _ i _ hi => absurd hi (by simp [cdiv8])⟩
    · show (((Buf.write [] 0 header).write 1 fcb).read (valOff v - 1)).toNat = storageBytes v (0#16).toNat
      rw [read_header _ _ (by omega)]
      simp
    · show v.initLen = valOff v + storageBytes v (0#16).toNat
      simp [initLen_of_isVariable hvar]
    · show ((Buf.write [] 0 header).write 1 fcb).read16 4 = 0
      rw [Buf.read16, read_header _ _ (by omega), read_header _ _ (by omega)]
      rfl

theorem createEnvelope_inv {v : Variant} {fcb : Byte} (h : s.Inv)
    (hfc : v ≠ .none → ∃ isResponse, variantOf fcb isResponse = v) (ht : createEnvelope v fcb s = .next t) : t.Inv := by
  unfold createEnvelope at ht
  split at ht
  · exact inv_of_done ht h.emptied
  · rename_i hv
    obtain ⟨hcap, ht⟩ := within_eq_next ht
    exact inv_of_done ht (h.created hv hcap (hfc hv))

theorem variantOf_of_createVariant {fc : Byte} {isResponse : Bool} (h : createVariant fc isResponse ≠ .none) :
    variantOf fc isResponse = createVariant fc isResponse := by
  unfold createVariant at h ⊢
  split at h
  · rfl
  · exact absurd rfl h

/-- The diagnose code of a supported base code has the diagnose variant (30_encoding.md R108). -/
theorem variantOf_diagCode (b : BaseFc) : variantOf (b.code ||| 0x80#8) true = .diag := by
  simp [variantOf, wireFormOf, BaseFc.ofByte_diag, BaseFc.ofDiagByte_diag, WireForm.variant]

theorem execEnvCreq_inv {fc : Byte} (h : s.Inv) (ht : execEnvCreq fc s = .next t) : t.Inv :=
  createEnvelope_inv h (fun hv => ⟨_, variantOf_of_createVariant hv⟩) ht

theorem execEnvCrsp_inv {fc : Byte} (h : s.Inv) (ht : execEnvCrsp fc s = .next t) : t.Inv :=
  createEnvelope_inv h (fun hv => ⟨_, variantOf_of_createVariant hv⟩) ht

theorem execEnvCdiag_inv {fc : Byte} (h : s.Inv) (ht : execEnvCdiag fc s = .next t) : t.Inv := by
  refine createEnvelope_inv h (fun hv => ⟨true, ?_⟩) ht
  split at hv
  · rename_i b hb
    rw [← BaseFc.code_of_ofByte hb]
    exact variantOf_diagCode b
  · exact absurd rfl hv

/-! ### The commands that edit bytes of the envelope -/

theorem execEnvApplycrc_inv (h : s.Inv) (ht : execEnvApplycrc s = .next t) : t.Inv := by
  refine inv_of_withEnvelope h (fun hn ht => inv_of_done ht ?_) ht
  exact h.edited_outside (applyCrc_wf h.buffers.2 (h.txLen_le hn)) hn fun a _ h1 h2 => by
    rw [applyCrc_read, if_neg h1, if_neg h2]

/-- Where PL.SETF may write: the station byte, or bytes after the function code, inside the PDU and before the byteCount; never the
quantity of a write-multiple request (43_payload_ops.md R242). -/
theorem settable_place {v : Variant} {fld : Field} {o w : Nat} (hset : settable fld = true)
    (hq : ¬(fld = .quantity ∧ isWriteMultiple v = true)) (hp : fieldPlace v fld = some (o, w)) :
    (w = 1 ∨ w = 2) ∧ (o = 0 ∧ w = 1 ∨ 2 ≤ o) ∧ (isVariable v = true → o + w < valOff v) ∧
      (isWriteMultiple v = true → o + w ≤ 4) ∧ (isVariable v = false → v ≠ .none → o + w ≤ v.initLen) := by
  cases fld with
  | fc | byteCount | vq | status | variant | len | crcField => cases hset
  | station | address | quantity | value | diagCode =>
    cases v <;> revert hq hp <;>
      simp +contextual [fieldPlace, isWriteMultiple, isVariable, isBits, isRegs, valOff, Variant.initLen] <;> omega

theorem writeField_read {m : Buf} {o w a : Nat} {value : Half} (hw : w = 1 ∨ w = 2) (ha : a < o ∨ o + w ≤ a) :
    (writeField m o w value).read a = m.read a := by
  rcases hw with rfl | rfl
  · simp only [writeField, if_true, Buf.read_write]
    rw [if_neg (by omega)]
  · simp only [writeField]
    rw [if_neg (by decide), Buf.read_write16, if_neg (by omega), if_neg (by omega)]

theorem writeField_wf {cap : Nat} {m : Buf} (h : m.wf cap) {o w : Nat} (hw : w = 1 ∨ w = 2) (ho : o + w ≤ cap) (value : Half) :
    (writeField m o w value).wf cap := by
  rcases hw with rfl | rfl
  · exact Buf.write_wf h (by omega) _
  · exact Buf.write16_wf h ho _

/-- The PDU of a good envelope ends after every field PL.SETF may write. -/
theorem State.Inv.settable_le_txLen (h : s.Inv) (hn : s.txVariant ≠ .none) {o w : Nat}
    (hvar : isVariable s.txVariant = true → o + w < valOff s.txVariant)
    (hfix : isVariable s.txVariant = false → s.txVariant ≠ .none → o + w ≤ s.txVariant.initLen) : o + w ≤ s.txLen := by
  cases hv : isVariable s.txVariant with
  | true =>
    have := hvar hv
    have := (h.region hv).2.1
    omega
  | false =>
    rw [(h.fixed hn hv).1]
    exact hfix hv hn

theorem State.Inv.fieldSet (h : s.Inv) (hn : s.txVariant ≠ .none) {fld : Field} {o w : Nat} (hset : settable fld = true)
    (hq : ¬(fld = .quantity ∧ isWriteMultiple s.txVariant = true)) (hp : fieldPlace s.txVariant fld = some (o, w)) (value : Half) :
    ({ s with txBuf := writeField s.txBuf o w value } : State).Inv := by
  obtain ⟨hw, ho, hvar, hmul, hfix⟩ := settable_place hset hq hp
  have hend := h.settable_le_txLen hn hvar hfix
  have hcap := h.txLen_le hn
  have hr : ∀ a, a < o ∨ o + w ≤ a → (writeField s.txBuf o w value).read a = s.txBuf.read a := fun a => writeField_read hw
  refine h.edited (writeField_wf h.buffers.2 hw (by omega) value) hn (hr 1 (by omega)) (fun a ha => hr a (by omega))
    (fun hv => hr _ (by have := hvar hv; omega)) (fun hm => ?_) fun hb i _ _ => ?_
  · have := hmul hm
    rw [Buf.read16, Buf.read16, hr 4 (by omega), hr 5 (by omega)]
  · have := hvar (isVariable_of_isBits hb)
    rw [hr _ (by omega)]

theorem execPlSetf_inv {value : Half} {field : BitVec 4} (h : s.Inv) (ht : execPlSetf value field s = .next t) : t.Inv := by
  refine inv_of_withEnvelope h (fun hn ht => ?_) ht
  split at ht
  · exact inv_of_done ht h
  · split at ht
    · exact inv_of_done ht h
    · rename_i hset
      split at ht
      · exact inv_of_done ht h
      · rename_i hq
        split at ht
        · exact inv_of_done ht h
        · rename_i hp
          exact inv_of_done (within_eq_next ht).2 (h.fieldSet hn (by simpa using hset) hq hp value)

/-- Setting an element's bit leaves the padding bits as they are. -/
theorem bitOf_setBit_ne {b : Byte} {v : Bool} {i j : Nat} (h : j % 8 ≠ i % 8) : bitOf (setBit b i v) j = bitOf b j := by
  rw [bitOf, getLsbD_setBit _ _ _ _ (Nat.mod_lt _ (by decide)), if_neg h, bitOf]

theorem State.Inv.bitSet (h : s.Inv) (hb : isBits s.txVariant = true) {i : Nat} (hi : i < s.txVq.toNat) (b : Bool) :
    ({ s with
      txBuf := s.txBuf.write (valOff s.txVariant + i / 8) (setBit (s.txBuf.read (valOff s.txVariant + i / 8)) i b) } :
      State).Inv := by
  have hv := isVariable_of_isBits hb
  have hn := ne_none_of_isVariable hv
  have hcap := h.txLen_le hn
  have ho := valOff_of_isVariable hv
  have hl := (h.region hv).2.1
  simp only [storageBytes, hb, if_true, cdiv8] at hl
  refine h.edited (Buf.write_wf h.buffers.2 (by omega) _) hn ?_ (fun a ha => ?_) (fun _ => ?_) (fun hm => ?_) fun _ j hj _ => ?_
  · rw [Buf.read_write, if_neg (by omega)]
  · rw [Buf.read_write, if_neg (by omega)]
  · rw [Buf.read_write, if_neg (by omega)]
  · have := valOff_of_isWriteMultiple hm
    rw [Buf.read16, Buf.read16, Buf.read_write, if_neg (by omega), Buf.read_write, if_neg (by omega)]
  · rw [Buf.read_write]
    split
    · rename_i heq
      rw [← heq]
      exact bitOf_setBit_ne (by omega)
    · rfl

theorem execPlSetbit_inv {b : Bool} {i : Half} (h : s.Inv) (ht : execPlSetbit b i s = .next t) : t.Inv := by
  refine inv_of_withEnvelope h (fun _ ht => ?_) ht
  split at ht
  · exact inv_of_done ht h
  · rename_i hb
    split at ht
    · exact inv_of_done ht h
    · exact inv_of_done (within_eq_next ht).2 (h.bitSet (by simpa using hb) (by omega) b)

theorem State.Inv.regSet (h : s.Inv) (hr : isRegs s.txVariant = true) {i : Nat} (hi : i < s.txVq.toNat) (w : Half) :
    ({ s with txBuf := s.txBuf.write16 (valOff s.txVariant + 2 * i) w } : State).Inv := by
  have hv := isVariable_of_isRegs hr
  have hb := isBits_eq_false_of_isRegs hr
  have hn := ne_none_of_isVariable hv
  have hcap := h.txLen_le hn
  have ho := valOff_of_isVariable hv
  have hl := (h.region hv).2.1
  simp only [storageBytes, hb, Bool.false_eq_true, if_false] at hl
  have hread : ∀ a, a < valOff s.txVariant ∨ s.txLen ≤ a →
      (s.txBuf.write16 (valOff s.txVariant + 2 * i) w).read a = s.txBuf.read a := fun a ha => by
    rw [Buf.read_write16, if_neg (by omega), if_neg (by omega)]
  refine h.edited (Buf.write16_wf h.buffers.2 (by omega) _) hn (hread 1 (by omega)) (fun a ha => hread a (by omega))
    (fun _ => hread _ (by omega)) (fun hm => ?_) fun hbits => ?_
  · have := valOff_of_isWriteMultiple hm
    rw [Buf.read16, Buf.read16, hread 4 (by omega), hread 5 (by omega)]
  · rw [hb] at hbits
    cases hbits

theorem execPlSetreg_inv {w i : Half} (h : s.Inv) (ht : execPlSetreg w i s = .next t) : t.Inv := by
  refine inv_of_withEnvelope h (fun _ ht => ?_) ht
  split at ht
  · exact inv_of_done ht h
  · rename_i hr
    split at ht
    · exact inv_of_done ht h
    · exact inv_of_done (within_eq_next ht).2 (h.regSet (by simpa using hr) (by omega) w)

/-! ### The commands that change the element list -/

theorem elementList_entryElements (v : Variant) (es : List Half) : ElementList v (entryElements v es) := by
  intro hb e he
  simp only [entryElements, hb, if_true, List.mem_map] at he
  obtain ⟨d, -, rfl⟩ := he
  rw [BitVec.and_one_eq_setWidth_ofBool_getLsbD]
  cases d.getLsbD 0 <;> decide

@[simp] theorem length_entryElements (v : Variant) (es : List Half) : (entryElements v es).length = es.length := by
  unfold entryElements
  split <;> simp

theorem packElems_entryElements (v : Variant) (es : List Half) : packElems v (entryElements v es) = packElems v es := by
  unfold entryElements
  split
  · exact packElems_map_and v es ‹_›
  · rfl

/-- Storing any entries that fit keeps the invariant: of a bit entry only bit 0 is stored (10_state.md R44). -/
theorem State.Inv.storedEntries (h : s.Inv) (hv : isVariable s.txVariant = true) {es : List Half}
    (hf : Fits s.params.cap s.txVariant es.length) :
    ({ s with
      txBuf := storedBuf s.txVariant es s.txBuf
      txVq := BitVec.ofNat 16 es.length
      txLen := valOff s.txVariant + storageBytes s.txVariant es.length } : State).Inv := by
  have he := h.stored hv (elementList_entryElements s.txVariant es) (by rwa [length_entryElements])
  rwa [storedBuf_congr _ (packElems_entryElements _ _) (length_entryElements _ _), length_entryElements] at he

theorem storeValues_inv {es : List Half} (h : s.Inv) (hv : isVariable s.txVariant = true) (ht : storeValues es s = .next t) :
    t.Inv := by
  rcases storeValues_eq_next ht with ⟨-, rfl⟩ | ⟨hf, rfl⟩
  · exact h.returning _ _
  · exact (h.storedEntries hv hf).returning _ _

theorem execPlResize_inv {q : Half} (h : s.Inv) (ht : execPlResize q s = .next t) : t.Inv := by
  refine inv_of_withEnvelope h (fun _ ht => ?_) ht
  split at ht
  · exact storeValues_inv h ‹_› ht
  · exact inv_of_done ht h

theorem inv_of_withElements {cls : Variant → Bool} {k : Outcome} (h : s.Inv) (hk : cls s.txVariant = true → k = .next t → t.Inv)
    (ht : withElements cls s k = .next t) : t.Inv := by
  rcases withElements_eq_next ht with ⟨-, rfl⟩ | ⟨-, -, rfl⟩ | ⟨-, hc, -, -, ht⟩
  · exact h.returning _ _
  · exact h.returning _ _
  · exact hk hc ht

theorem insertElems_inv {cls : Variant → Bool} {place : List Half → List Half → List Half} {n : Nat} (h : s.Inv)
    (hcls : ∀ v, cls v = true → isVariable v = true) (ht : insertElems cls place n s = .next t) : t.Inv := by
  refine inv_of_withElements h (fun hc ht => ?_) ht
  split at ht
  · exact inv_of_done ht h
  · have hq : (s.hdata.drop n).length ≤ s.params.hdataDepth := by
      have := h.fifo
      rw [List.length_drop]
      omega
    exact storeValues_inv (h.withHdata hq) (hcls _ hc) ht

/-- A push to a FIFO within its depth leaves it within its depth (93_implementation_defined.md U18). -/
theorem length_pushHdata_le {p : Params} {q : List Half} (h : q.length ≤ p.hdataDepth) (es : List Half) :
    (pushHdata p q es).length ≤ p.hdataDepth := by
  rw [pushHdata, List.length_take]
  omega

theorem removeElems_inv {cls : Variant → Bool} {cut : List Half → List Half × List Half} {n : Nat} (h : s.Inv)
    (hcls : ∀ v, cls v = true → isVariable v = true) (ht : removeElems cls cut n s = .next t) : t.Inv := by
  refine inv_of_withElements h (fun hc ht => ?_) ht
  split at ht
  · exact inv_of_done ht h
  · exact storeValues_inv (h.withHdata (length_pushHdata_le (Nat.zero_le _) _)) (hcls _ hc) ht

/-! ### The transmit and configuration commands -/

theorem execFsmUpdate_inv (h : s.Inv) (ht : execFsmUpdate s = .next t) : t.Inv := by
  obtain ⟨-, sent, -, -, -, -, -, hi, he⟩ := h.update
  rw [he] at ht
  injection ht with ht
  exact ht ▸ hi.returning _ _

theorem availTx_eq_true (h : availTx s = true) :
    s.txPending = false ∧ (s.params.role = .master → s.awaiting = false) ∧ (s.params.role = .slave → s.allowed = true) := by
  unfold availTx at h
  cases hr : s.params.role <;> simpa [hr] using h

theorem execRoleXmit_inv {target : Byte} (h : s.Inv) (ht : execRoleXmit target s = .next t) : t.Inv := by
  rcases execRoleXmit_eq_next ht with ⟨-, rfl⟩ | ⟨hg, rfl⟩
  · exact h.returning _ _
  · obtain ⟨hn, -, hav⟩ := gate_ok hg
    exact (h.sent hn (availTx_eq_true hav).1 target).returning _ _

/-- What the gates are, role by role. -/
theorem State.gatesOk_iff : s.gatesOk ↔
    (s.params.role = .master →
      s.allowed = false ∧ s.station = 0 ∧ s.pendingTarget.toNat ≤ 247 ∧ (s.txPending = true → s.awaiting = false)) ∧
    (s.params.role = .slave →
      s.awaiting = false ∧ 1 ≤ s.station.toNat ∧ s.station.toNat ≤ 247 ∧ (s.txPending = true → s.allowed = true)) := by
  unfold State.gatesOk
  cases s.params.role <;> simp

/-- The intent that the gate admits is a good one: its target is legal, and the gate is open (45_role_gate.md R338, R344). -/
theorem State.Inv.deferring {target : Byte} (h : s.Inv) (hg : gate target s = .ok) :
    ({ s with txPending := true, pendingTarget := if s.params.role = .master then target else 0 } : State).Inv := by
  obtain ⟨-, htarget, hav⟩ := gate_ok hg
  obtain ⟨-, hmaster, hslave⟩ := availTx_eq_true hav
  obtain ⟨master, slave⟩ := State.gatesOk_iff.1 h.gates
  refine ⟨h.params, h.buffers, h.receiver, h.frame, h.envelope, State.gatesOk_iff.2 ⟨fun hr => ?_, fun hr => ?_⟩, h.fifo, h.log⟩
  · obtain ⟨hallowed, hstation, -, -⟩ := master hr
    refine ⟨hallowed, hstation, ?_, fun _ => hmaster hr⟩
    dsimp only at hr ⊢
    rw [if_pos hr]
    exact Nat.le_of_not_lt fun hlt => htarget ⟨hr, hlt⟩
  · obtain ⟨hawaiting, hpos, hle, -⟩ := slave hr
    exact ⟨hawaiting, hpos, hle, fun _ => hslave hr⟩

theorem execRoleXmitdef_inv {target : Byte} (h : s.Inv) (ht : execRoleXmitdef target s = .next t) : t.Inv := by
  rcases execRoleXmitdef_eq_next ht with ⟨-, rfl⟩ | ⟨hg, rfl⟩
  · exact h.returning _ _
  · exact (h.deferring hg).returning _ _

theorem execCfgSetbaud_inv {baud : Word} (h : s.Inv) (ht : execCfgSetbaud baud s = .next t) : t.Inv := by
  unfold execCfgSetbaud at ht
  split at ht
  · exact inv_of_done ht h
  · dsimp only at ht
    exact inv_of_done ht (h.withRegisters rfl)

/-- A slave's station set to 1 to 247 is a legal one (10_state.md R40). -/
theorem execCfgSetstation_inv {station : Byte} (h : s.Inv) (ht : execCfgSetstation station s = .next t) : t.Inv := by
  unfold execCfgSetstation at ht
  split at ht
  · exact inv_of_done ht h
  · rename_i hrole
    split at ht
    · exact inv_of_done ht h
    · rename_i hlegal
      obtain ⟨-, slave⟩ := State.gatesOk_iff.1 h.gates
      refine inv_of_done ht ⟨h.params, h.buffers, h.receiver, h.frame, h.envelope,
        State.gatesOk_iff.2 ⟨fun hr => absurd hr hrole, fun hr => ?_⟩, h.fifo, h.log⟩
      obtain ⟨hawaiting, -, -, hpending⟩ := slave hr
      have h0 : station.toNat ≠ 0 := fun h0 => hlegal (.inl (BitVec.eq_of_toNat_eq h0))
      exact ⟨hawaiting, Nat.pos_of_ne_zero h0, Nat.le_of_not_lt fun hlt => hlegal (.inr hlt), hpending⟩

theorem execSysSoftreset_inv (h : s.Inv) (ht : execSysSoftreset s = .next t) : t.Inv := by
  obtain ⟨master, slave⟩ := State.gatesOk_iff.1 h.gates
  refine inv_of_done ht ⟨h.params, h.buffers, ⟨Nat.zero_le _, nofun, nofun⟩, nofun, h.envelope,
    State.gatesOk_iff.2 ⟨fun hr => ?_, fun hr => ?_⟩, h.fifo, h.log⟩
  · obtain ⟨-, hstation, htarget, -⟩ := master hr
    exact ⟨rfl, hstation, htarget, nofun⟩
  · obtain ⟨-, hpos, hle, -⟩ := slave hr
    exact ⟨rfl, hpos, hle, nofun⟩

/-! ### Every command, and every step -/

/-- A command that goes on from a good state leads to a good state. -/
theorem exec_inv {i : Instr} (hw : i.isWire = false) (h : s.Inv) (ht : exec i s = .next t) : t.Inv := by
  cases i with
  | crcReset => exact inv_of_done ht (h.withRegisters rfl)
  | crcUpdate => exact inv_of_done ht (h.withRegisters rfl)
  | crcValue => exact inv_of_done ht h
  | envApplycrc => exact execEnvApplycrc_inv h ht
  | envVerifycrc => exact (execEnvVerifycrc_frame ht).inv h
  | envCreq => exact execEnvCreq_inv h ht
  | envCrsp => exact execEnvCrsp_inv h ht
  | envCdiag => exact execEnvCdiag_inv h ht
  | plGetf => exact (execPlGetf_frame ht).inv h
  | plSetf => exact execPlSetf_inv h ht
  | plResize => exact execPlResize_inv h ht
  | plGetbit => exact (execPlGetbit_frame ht).inv h
  | plSetbit => exact execPlSetbit_inv h ht
  | plGetreg => exact (execPlGetreg_frame ht).inv h
  | plSetreg => exact execPlSetreg_inv h ht
  | plInsbitsH | plInsbitsT => exact insertElems_inv h (fun _ => isVariable_of_isBits) ht
  | plInsregsH | plInsregsT => exact insertElems_inv h (fun _ => isVariable_of_isRegs) ht
  | plRembitsH | plRembitsT => exact removeElems_inv h (fun _ => isVariable_of_isBits) ht
  | plRemregsH | plRemregsT => exact removeElems_inv h (fun _ => isVariable_of_isRegs) ht
  | fsmUpdate => exact execFsmUpdate_inv h ht
  | roleXmit => exact execRoleXmit_inv h ht
  | roleXmitdef => exact execRoleXmitdef_inv h ht
  | roleAvail => exact inv_of_done ht h
  | cfgSetbaud => exact execCfgSetbaud_inv h ht
  | cfgSetstation => exact execCfgSetstation_inv h ht
  | cfgSetsilence | cfgSetsendback | cfgSettimeout | evAck | evSetmask =>
    exact inv_of_done ht (h.withRegisters rfl)
  | sysSoftreset => exact execSysSoftreset_inv h ht
  | sysRdbuf => exact (execSysRdbuf_frame ht).inv h
  | _ => cases hw

/-- A command triple decodes to a command, never to a wire form. -/
theorem isWire_of_decodeCommand {op : Byte} {arg0 arg1 : Word} {i : Instr} (h : decodeCommand op arg0 arg1 = .ok i) :
    i.isWire = false := by
  obtain ⟨r, hr, -, rfl, -⟩ := decodeCommand_eq_ok h
  have hall : ∀ r ∈ commandTable, (r.build arg0 arg1).isWire = false := by
    simp [commandTable, Instr.isWire, Instr.payload?]
  exact hall r hr

theorem runCommand_inv {op : Byte} (h : s.Inv) (ht : runCommand op s = .next t) : t.Inv := by
  unfold runCommand at ht
  split at ht
  · exact exec_inv (isWire_of_decodeCommand ‹_›) h ht
  · exact inv_of_done ht h

theorem State.Inv.wroteRegister (h : s.Inv) (r : Register) (value : Word) : (writeRegister r value s).Inv := by
  cases r with
  | cmdArg0 | cmdArg1 => exact ⟨h.params, h.buffers, h.receiver, h.frame, h.envelope, h.gates, h.fifo, h.log⟩
  | hdata => exact h.withHdata (length_pushHdata_le h.fifo _)
  | _ => exact h

theorem writePort_inv {offset : Nat} {value : Word} (h : s.Inv) (ht : writePort offset value s = .next t) : t.Inv := by
  unfold writePort at ht
  split at ht
  · exact runCommand_inv h ht
  · injection ht with ht
    exact ht ▸ h.wroteRegister _ _
  · cases ht

theorem readPort_inv {offset : Nat} (h : s.Inv) (ht : readPort offset s = .next t) : t.Inv := by
  unfold readPort at ht
  split at ht
  · rename_i r _
    injection ht with ht
    refine ht ▸ ⟨h.params, h.buffers, h.receiver, h.frame, h.envelope, h.gates, ?_, h.log⟩
    have := h.fifo
    rw [readRegister_hdata, readRegister_params]
    split
    · rw [List.length_tail]
      omega
    · exact this
  · cases ht

theorem State.Inv.hardReset (h : s.Inv) : (hardReset s).Inv :=
  have hr := State.resetOf_inv h.params
  ⟨hr.params, hr.buffers, hr.receiver, hr.frame, hr.envelope, hr.gates, hr.fifo, hr.log⟩

/-- A step of any agent from a good state leads to a good state. -/
theorem perform_inv {i : Input} (h : s.Inv) (ht : perform i s = .next t) : t.Inv := by
  cases i with
  | tick n =>
    injection ht with ht
    exact h.withRegisters (ht ▸ rfl)
  | arrive b =>
    injection ht with ht
    exact h.withRegisters (ht ▸ rfl)
  | write offset value => exact writePort_inv h ht
  | read offset => exact readPort_inv h ht
  | reset =>
    injection ht with ht
    exact ht ▸ h.hardReset

theorem State.Inv.tookInput (h : s.Inv) (i : Input) (rest : List Input) : (takeInput i rest s).Inv :=
  h.withRegisters rfl

theorem step_inv (h : s.Inv) (ht : step s = .next t) : t.Inv := by
  unfold step at ht
  split at ht
  · injection ht with ht
    exact ht ▸ h
  · exact perform_inv (h.tookInput _ _) ht

/-- Settles O57: every agent's step, and every command a write of CMD_OP can run, keeps the invariant. -/
theorem everyStepKeepsTheInvariant : Obligations.EveryStepKeepsTheInvariant := fun _ _ h ht => step_inv h ht

end Sys2Proof.Machine
end

section
/-! PROOFS. Bytes that no frame holds influence no step (93_implementation_defined.md U11): each command, run in two states that
differ only in such bytes, goes on in the second where it does in the first, to states that differ only there. -/

namespace Sys2Proof.Machine

variable {s t : State}

/-- Where the first outcome goes on, so does the second, to a state that differs from the first one's only in stale bytes. -/
def SameOutcome (o p : Outcome) : Prop := ∀ s', o = .next s' → ∃ t', p = .next t' ∧ SameButStale s' t'

/-! ### The relation through the shared operations -/

theorem SameButStale.exists_buffers (h : SameButStale s t) : ∃ rx tx, t = { s with rxBuf := rx, txBuf := tx } ∧
    (∀ a, a < s.rxLen → rx.read a = s.rxBuf.read a) ∧ (s.txVariant ≠ .none → tx = s.txBuf) :=
  ⟨_, _, h⟩

theorem SameButStale.next (h : SameButStale s t) : SameOutcome (.next s) (.next t) := by
  intro s' hs
  injection hs with hs
  exact ⟨t, rfl, hs ▸ h⟩

theorem sameOutcome_fault (f : Fault) (p : Outcome) : SameOutcome (.fault f) p := by
  intro s' hs
  cases hs

theorem SameButStale.done (h : SameButStale s t) (code : ResultCode) (value : Word) :
    SameOutcome (done s code value) (done t code value) := by
  obtain ⟨rx, tx, rfl, hrx, htx⟩ := h.exists_buffers
  exact SameButStale.next ⟨rfl, hrx, htx⟩

theorem SameOutcome.within {o p : Outcome} {n limit : Nat} (h : SameOutcome o p) :
    SameOutcome (within n limit o) (within n limit p) := by
  intro s' hs
  obtain ⟨hle, hs⟩ := within_eq_next hs
  rw [within_of_le hle]
  exact h s' hs

theorem SameOutcome.chain {o p : Outcome} {k : State → Outcome} (h : SameOutcome o p)
    (hk : ∀ s t, SameButStale s t → SameOutcome (k s) (k t)) : SameOutcome (chain o k) (chain p k) := by
  intro s' hs
  obtain ⟨u, hu, hs⟩ := chain_eq_next hs
  obtain ⟨v, rfl, huv⟩ := h u hu
  exact hk u v huv s' hs

theorem SameOutcome.ite {c : Prop} [Decidable c] {o p o' p' : Outcome} (h : c → SameOutcome o p)
    (h' : ¬c → SameOutcome o' p') : SameOutcome (if c then o else o') (if c then p else p') := by
  by_cases hc : c
  · rw [if_pos hc, if_pos hc]
    exact h hc
  · rw [if_neg hc, if_neg hc]
    exact h' hc

/-- A command on the envelope, which is the same in both states where there is one. -/
theorem SameButStale.withEnvelope (h : SameButStale s t) {k k' : Outcome} (hk : s.txVariant ≠ .none → SameOutcome k k') :
    SameOutcome (withEnvelope s k) (withEnvelope t k') := by
  obtain ⟨rx, tx, rfl, hrx, htx⟩ := h.exists_buffers
  exact .ite (fun _ => h.done _ _) fun hn => (hk hn).within

/-- The selected frame is the same in both states, but for bytes after its CRC. -/
theorem SameButStale.select (h : SameButStale s t) (hs : s.Inv) (sel : Sel) :
    (select sel s = none ∧ select sel t = none) ∨
    ∃ f buf, select sel s = some f ∧ select sel t = some { f with buf := buf } ∧
      ∀ a, a < f.len + 2 → buf.read a = f.buf.read a := by
  obtain ⟨rx, tx, rfl, hrx, htx⟩ := h.exists_buffers
  cases sel with
  | rx =>
    rw [select_rx, select_rx]
    by_cases hv : s.rxValid = true
    · obtain ⟨-, h4, -⟩ := hs.frame hv
      rw [if_pos hv, if_pos hv]
      refine .inr ⟨_, rx, rfl, rfl, fun a ha => hrx a ?_⟩
      dsimp only at ha
      omega
    · rw [if_neg hv, if_neg hv]
      exact .inl ⟨rfl, rfl⟩
  | tx =>
    rw [select_tx, select_tx]
    by_cases hn : s.txVariant = .none
    · rw [if_pos hn, if_pos hn]
      exact .inl ⟨rfl, rfl⟩
    · rw [if_neg hn, if_neg hn]
      exact .inr ⟨_, tx, rfl, rfl, fun a _ => by rw [htx hn]⟩

/-- A get command on the selected frame, which reads no byte after its CRC. -/
theorem SameButStale.withSelected (h : SameButStale s t) (hs : s.Inv) {sel : Sel} {k k' : Selected → Outcome}
    (hk : ∀ f buf, (∀ a, a < f.len + 2 → buf.read a = f.buf.read a) → SameOutcome (k f) (k' { f with buf := buf })) :
    SameOutcome (withSelected sel s k) (withSelected sel t k') := by
  have hp : t.params = s.params := by rw [h.1]
  rcases h.select hs sel with ⟨hnone, hnone'⟩ | ⟨f, buf, hf, hf', hread⟩
  · rw [withSelected_none hnone, withSelected_none hnone']
    exact h.done _ _
  · unfold Machine.withSelected
    rw [hf, hf', hp]
    exact (hk f buf hread).within

/-! ### The get commands -/

theorem fieldPlace_width {v : Variant} {fld : Field} {o w : Nat} (h : fieldPlace v fld = some (o, w)) : w = 1 ∨ w = 2 := by
  cases fld <;> cases v <;> revert h <;> simp +contextual [fieldPlace, isVariable, isBits, isRegs, eq_comm]

theorem readField_congr {m m' : Buf} {o w : Nat} (hw : w = 1 ∨ w = 2) (h : ∀ a, a < o + w → m'.read a = m.read a) :
    readField m' o w = readField m o w := by
  unfold readField Buf.read16
  rcases hw with rfl | rfl
  · simp only [if_true, h o (by omega)]
  · rw [h o (by omega), h (o + 1) (by omega)]

/-- A field's value depends on no byte after the CRC. -/
theorem fieldValue_congr {f : Selected} {buf : Buf} (h : ∀ a, a < f.len + 2 → buf.read a = f.buf.read a) (fld : Field) :
    fieldValue { f with buf := buf } fld = fieldValue f fld := by
  have hplaced : ∀ o w, fieldPlace f.variant fld = some (o, w) → ¬ f.len < o + w → readField buf o w = readField f.buf o w :=
    fun o w hp hle => readField_congr (fieldPlace_width hp) fun a ha => h a (by omega)
  cases fld with
  | vq | status | variant | len => rfl
  | crcField =>
    simp only [fieldValue]
    rw [h f.len (by omega), h (f.len + 1) (by omega)]
  | _ =>
    simp only [fieldValue]
    split
    · rfl
    · rename_i o w hp
      split
      · rfl
      · rw [hplaced o w hp ‹_›]

theorem SameButStale.execPlGetf (h : SameButStale s t) (hs : s.Inv) (sel : Sel) (field : BitVec 4) :
    SameOutcome (execPlGetf sel field s) (execPlGetf sel field t) := by
  refine h.withSelected hs fun f buf hread => ?_
  cases fieldOf field with
  | none => exact h.done _ _
  | some fld =>
    dsimp only
    rw [fieldValue_congr hread]
    exact h.done _ _

theorem SameButStale.execPlGetbit (h : SameButStale s t) (hs : s.Inv) (sel : Sel) (i : Half) :
    SameOutcome (execPlGetbit sel i s) (execPlGetbit sel i t) := by
  refine h.withSelected hs fun f buf hread => .ite (fun _ => h.done _ _) fun _ => .ite (fun _ => h.done _ _) fun _ => ?_
  intro s' hs'
  have hle := (within_eq_next hs').1
  revert s'
  dsimp only
  rw [hread _ (by omega)]
  exact (h.done _ _).within

theorem SameButStale.execPlGetreg (h : SameButStale s t) (hs : s.Inv) (sel : Sel) (i : Half) :
    SameOutcome (execPlGetreg sel i s) (execPlGetreg sel i t) := by
  refine h.withSelected hs fun f buf hread => .ite (fun _ => h.done _ _) fun _ => .ite (fun _ => h.done _ _) fun _ => ?_
  intro s' hs'
  have hle := (within_eq_next hs').1
  revert s'
  dsimp only
  unfold Buf.read16
  rw [hread _ (by omega), hread _ (by omega)]
  exact (h.done _ _).within

theorem SameButStale.execEnvVerifycrc (h : SameButStale s t) (sel : Sel) :
    SameOutcome (execEnvVerifycrc sel s) (execEnvVerifycrc sel t) := by
  obtain ⟨rx, tx, rfl, hrx, htx⟩ := h.exists_buffers
  cases sel with
  | rx =>
    refine .ite (fun _ => h.done _ _) fun hframe => ?_
    have hmatch : crcMatches rx (s.rxLen - 2) = crcMatches s.rxBuf (s.rxLen - 2) :=
      crcMatches_congr fun a ha => hrx a (by omega)
    dsimp only
    rw [hmatch]
    exact (h.done _ _).within
  | tx =>
    refine h.withEnvelope fun hn => ?_
    obtain rfl := htx hn
    exact h.done _ _

theorem SameButStale.execSysRdbuf (h : SameButStale s t) (sel : Sel) (off : Half) :
    SameOutcome (execSysRdbuf sel off s) (execSysRdbuf sel off t) := by
  obtain ⟨rx, tx, rfl, hrx, htx⟩ := h.exists_buffers
  cases sel with
  | rx =>
    refine .ite (fun _ => h.done _ _) fun hlen => ?_
    dsimp only
    rw [hrx off.toNat (by omega)]
    exact (h.done _ _).within
  | tx =>
    refine .ite (fun _ => h.done _ _) fun hlen => ?_
    obtain rfl := htx fun hn => hlen (.inl hn)
    exact (h.done _ _).within

/-! ### The commands on the envelope -/

theorem SameButStale.createEnvelope (h : SameButStale s t) (v : Variant) (fcb : Byte) :
    SameOutcome (createEnvelope v fcb s) (createEnvelope v fcb t) := by
  obtain ⟨rx, tx, rfl, hrx, htx⟩ := h.exists_buffers
  refine .ite (fun _ => SameButStale.done ?_ _ _) fun _ => SameOutcome.within (SameButStale.done ?_ _ _)
  all_goals exact ⟨rfl, hrx, fun _ => rfl⟩

theorem SameButStale.execEnvApplycrc (h : SameButStale s t) : SameOutcome (execEnvApplycrc s) (execEnvApplycrc t) := by
  obtain ⟨rx, tx, rfl, hrx, htx⟩ := h.exists_buffers
  refine h.withEnvelope fun hn => ?_
  obtain rfl := htx hn
  refine SameButStale.done ?_ _ _
  exact ⟨rfl, hrx, fun _ => rfl⟩

theorem SameButStale.execPlSetf (h : SameButStale s t) (value : Half) (field : BitVec 4) :
    SameOutcome (execPlSetf value field s) (execPlSetf value field t) := by
  obtain ⟨rx, tx, rfl, hrx, htx⟩ := h.exists_buffers
  refine h.withEnvelope fun hn => ?_
  obtain rfl := htx hn
  cases fieldOf field with
  | none => exact h.done _ _
  | some fld =>
    refine .ite (fun _ => h.done _ _) fun _ => .ite (fun _ => h.done _ _) fun _ => ?_
    dsimp only
    cases fieldPlace s.txVariant fld with
    | none => exact h.done _ _
    | some place =>
      refine SameOutcome.within (SameButStale.done ?_ _ _)
      exact ⟨rfl, hrx, fun _ => rfl⟩

theorem SameButStale.execPlSetbit (h : SameButStale s t) (b : Bool) (i : Half) :
    SameOutcome (execPlSetbit b i s) (execPlSetbit b i t) := by
  obtain ⟨rx, tx, rfl, hrx, htx⟩ := h.exists_buffers
  refine h.withEnvelope fun hn => ?_
  obtain rfl := htx hn
  refine .ite (fun _ => h.done _ _) fun _ => .ite (fun _ => h.done _ _) fun _ => SameOutcome.within (SameButStale.done ?_ _ _)
  exact ⟨rfl, hrx, fun _ => rfl⟩

theorem SameButStale.execPlSetreg (h : SameButStale s t) (w i : Half) :
    SameOutcome (execPlSetreg w i s) (execPlSetreg w i t) := by
  obtain ⟨rx, tx, rfl, hrx, htx⟩ := h.exists_buffers
  refine h.withEnvelope fun hn => ?_
  obtain rfl := htx hn
  refine .ite (fun _ => h.done _ _) fun _ => .ite (fun _ => h.done _ _) fun _ => SameOutcome.within (SameButStale.done ?_ _ _)
  exact ⟨rfl, hrx, fun _ => rfl⟩

theorem SameButStale.storeValues (h : SameButStale s t) (hn : s.txVariant ≠ .none) (es : List Half) :
    SameOutcome (storeValues es s) (storeValues es t) := by
  obtain ⟨rx, tx, rfl, hrx, htx⟩ := h.exists_buffers
  obtain rfl := htx hn
  refine .ite (fun _ => h.done _ _) fun _ => SameOutcome.within (SameButStale.done ?_ _ _)
  exact ⟨rfl, hrx, fun _ => rfl⟩

theorem SameButStale.execPlResize (h : SameButStale s t) (q : Half) : SameOutcome (execPlResize q s) (execPlResize q t) := by
  obtain ⟨rx, tx, rfl, hrx, htx⟩ := h.exists_buffers
  exact h.withEnvelope fun hn => .ite (fun _ => h.storeValues hn _) fun _ => h.done _ _

theorem SameButStale.withElements (h : SameButStale s t) {cls : Variant → Bool} {k k' : Outcome}
    (hk : s.txVariant ≠ .none → SameOutcome k k') : SameOutcome (withElements cls s k) (withElements cls t k') := by
  obtain ⟨rx, tx, rfl, hrx, htx⟩ := h.exists_buffers
  exact h.withEnvelope fun hn => .ite (fun _ => (hk hn).within) fun _ => h.done _ _

theorem SameButStale.insertElems (h : SameButStale s t) (cls : Variant → Bool) (place : List Half → List Half → List Half)
    (n : Nat) : SameOutcome (insertElems cls place n s) (insertElems cls place n t) := by
  obtain ⟨rx, tx, rfl, hrx, htx⟩ := h.exists_buffers
  refine h.withElements fun hn => ?_
  obtain rfl := htx hn
  refine .ite (fun _ => h.done _ _) fun _ => SameButStale.storeValues ?_ ?_ _
  · exact ⟨rfl, hrx, htx⟩
  · exact hn

theorem SameButStale.removeElems (h : SameButStale s t) (cls : Variant → Bool) (cut : List Half → List Half × List Half)
    (n : Nat) : SameOutcome (removeElems cls cut n s) (removeElems cls cut n t) := by
  obtain ⟨rx, tx, rfl, hrx, htx⟩ := h.exists_buffers
  refine h.withElements fun hn => ?_
  obtain rfl := htx hn
  refine .ite (fun _ => h.done _ _) fun _ => SameButStale.storeValues ?_ ?_ _
  · exact ⟨rfl, hrx, htx⟩
  · exact hn

/-! ### The role commands and the update -/

theorem SameButStale.doXmit (h : SameButStale s t) (hn : s.txVariant ≠ .none) (target : Byte) :
    SameOutcome (doXmit target s) (doXmit target t) := by
  obtain ⟨rx, tx, rfl, hrx, htx⟩ := h.exists_buffers
  obtain rfl := htx hn
  refine SameOutcome.within (SameButStale.next ?_)
  dsimp only
  split <;> exact ⟨rfl, hrx, fun _ => rfl⟩

theorem SameButStale.gate (h : SameButStale s t) (target : Byte) : gate target t = gate target s := by
  obtain ⟨rx, tx, rfl, -⟩ := h.exists_buffers
  rfl

theorem SameButStale.execRoleXmit (h : SameButStale s t) (target : Byte) :
    SameOutcome (execRoleXmit target s) (execRoleXmit target t) := by
  unfold Machine.execRoleXmit
  rw [h.gate]
  cases hg : Machine.gate target s with
  | ok => exact (h.doXmit (gate_ok hg).1 target).chain fun _ _ h => h.done _ _
  | _ => exact h.done _ _

theorem SameButStale.execRoleXmitdef (h : SameButStale s t) (target : Byte) :
    SameOutcome (execRoleXmitdef target s) (execRoleXmitdef target t) := by
  unfold Machine.execRoleXmitdef
  rw [h.gate]
  cases Machine.gate target s with
  | ok =>
    obtain ⟨rx, tx, rfl, hrx, htx⟩ := h.exists_buffers
    exact SameButStale.done ⟨rfl, hrx, htx⟩ _ _
  | _ => exact h.done _ _

/-- A byte received goes to the same place, and the bytes before it are the frame's. -/
theorem SameButStale.rxByte (h : SameButStale s t) (b : Byte) : SameButStale (rxByte b s) (rxByte b t) := by
  obtain ⟨rx, tx, rfl, hrx, htx⟩ := h.exists_buffers
  unfold Machine.rxByte
  dsimp only
  split
  · refine ⟨rfl, fun a ha => ?_, htx⟩
    have : a < 1 := ha
    simp only [Buf.read_write]
    rw [if_pos (by omega), if_pos (by omega)]
  all_goals
    refine ⟨rfl, fun a ha => ?_, htx⟩
    have : a < s.rxLen + 1 := ha
    simp only [Buf.read_write]
    split
    · rfl
    · exact hrx a (by omega)

theorem SameButStale.drainFrom (h : SameButStale s t) (q : List Byte) : SameButStale (drainFrom q s) (drainFrom q t) := by
  induction q generalizing s t with
  | nil =>
    obtain ⟨rx, tx, rfl, hrx, htx⟩ := h.exists_buffers
    exact ⟨rfl, hrx, htx⟩
  | cons b q ih =>
    have hb := ih (h.rxByte b)
    obtain ⟨rx, tx, rfl, hrx, htx⟩ := h.exists_buffers
    unfold Machine.drainFrom
    dsimp only
    split
    · exact hb
    · exact ⟨rfl, hrx, htx⟩

theorem SameButStale.drain (h : SameButStale s t) : SameButStale (drain s) (drain t) := by
  have hq : t.rxq = s.rxq := by rw [h.1]
  unfold Machine.drain
  rw [hq]
  exact h.drainFrom _

theorem SameButStale.raiseFailure (h : SameButStale s t) (kind : FailKind) :
    SameButStale (raiseFailure kind s) (raiseFailure kind t) := by
  obtain ⟨rx, tx, rfl, hrx, htx⟩ := h.exists_buffers
  exact ⟨rfl, hrx, htx⟩

/-- A completion reads the frame's own bytes only. -/
theorem SameButStale.complete (h : SameButStale s t) : SameOutcome (complete s) (complete t) := by
  obtain ⟨rx, tx, rfl, hrx, htx⟩ := h.exists_buffers
  have hbytes : rx.slice 0 s.rxLen = s.rxBuf.slice 0 s.rxLen := Buf.slice_congr fun a _ ha => hrx a (by omega)
  unfold Machine.complete
  dsimp only
  rw [hbytes]
  cases decodeFrame (decide (s.params.role = .master)) (s.rxBuf.slice 0 s.rxLen) with
  | ok f =>
    dsimp only
    rw [runFrame_eq, runFrame_eq]
    exact SameButStale.next ⟨rfl, hrx, htx⟩
  | error r => cases r <;> exact SameButStale.next ⟨rfl, hrx, htx⟩

theorem SameButStale.endCheck (h : SameButStale s t) : SameOutcome (endCheck s) (endCheck t) := by
  have hoverflow := (h.raiseFailure .overflow).next
  have htimedout := (h.raiseFailure .timedout).next
  have hcomplete := h.complete
  obtain ⟨rx, tx, rfl, hrx, htx⟩ := h.exists_buffers
  exact .ite (fun _ => h.next) fun _ => .ite (fun _ => hoverflow) fun _ =>
    .ite (fun _ => .ite (fun _ => htimedout) fun _ => hcomplete) fun _ => h.next

theorem SameButStale.responseTimeout (h : SameButStale s t) : SameButStale (responseTimeout s) (responseTimeout t) := by
  obtain ⟨rx, tx, rfl, hrx, htx⟩ := h.exists_buffers
  unfold Machine.responseTimeout
  dsimp only
  split <;> exact ⟨rfl, hrx, htx⟩

theorem SameButStale.deferredTransmit (h : SameButStale s t) : SameOutcome (deferredTransmit s) (deferredTransmit t) := by
  obtain ⟨rx, tx, rfl, hrx, htx⟩ := h.exists_buffers
  refine .ite (fun _ => .ite (fun _ => SameButStale.next ?_) fun hn => SameButStale.doXmit ?_ ?_ _) fun _ => h.next
  · exact ⟨rfl, hrx, htx⟩
  · exact ⟨rfl, hrx, htx⟩
  · exact hn

theorem SameButStale.execFsmUpdate (h : SameButStale s t) : SameOutcome (execFsmUpdate s) (execFsmUpdate t) := by
  have hp : t.params = s.params := by rw [h.1]
  unfold Machine.execFsmUpdate
  rw [hp]
  exact (h.drain.endCheck.chain fun _ _ h => h.responseTimeout.deferredTransmit.chain fun _ _ h => h.done _ _).within

/-! ### Every command, and every step -/

theorem SameButStale.exec (h : SameButStale s t) (hs : s.Inv) {i : Instr} (hw : i.isWire = false) :
    SameOutcome (exec i s) (exec i t) := by
  cases i with
  | envApplycrc => exact h.execEnvApplycrc
  | envVerifycrc sel => exact h.execEnvVerifycrc sel
  | envCreq | envCrsp | envCdiag => exact h.createEnvelope _ _
  | plGetf sel field => exact h.execPlGetf hs sel field
  | plSetf value field => exact h.execPlSetf value field
  | plResize q => exact h.execPlResize q
  | plGetbit sel i => exact h.execPlGetbit hs sel i
  | plSetbit b i => exact h.execPlSetbit b i
  | plGetreg sel i => exact h.execPlGetreg hs sel i
  | plSetreg w i => exact h.execPlSetreg w i
  | plInsbitsH | plInsbitsT | plInsregsH | plInsregsT => exact h.insertElems _ _ _
  | plRembitsH | plRembitsT | plRemregsH | plRemregsT => exact h.removeElems _ _ _
  | fsmUpdate => exact h.execFsmUpdate
  | roleXmit target => exact h.execRoleXmit target
  | roleXmitdef target => exact h.execRoleXmitdef target
  | sysRdbuf sel off => exact h.execSysRdbuf sel off
  | cfgSetbaud baud =>
    obtain ⟨rx, tx, rfl, hrx, htx⟩ := h.exists_buffers
    refine .ite (fun _ => h.done _ _) fun _ => SameButStale.done ?_ _ _
    exact ⟨rfl, hrx, htx⟩
  | cfgSetstation station =>
    obtain ⟨rx, tx, rfl, hrx, htx⟩ := h.exists_buffers
    refine .ite (fun _ => h.done _ _) fun _ => .ite (fun _ => h.done _ _) fun _ => SameButStale.done ?_ _ _
    exact ⟨rfl, hrx, htx⟩
  | sysSoftreset =>
    obtain ⟨rx, tx, rfl, hrx, htx⟩ := h.exists_buffers
    refine SameButStale.done ?_ _ _
    exact ⟨rfl, fun a ha => absurd ha (Nat.not_lt_zero a), htx⟩
  | crcReset | crcUpdate | crcValue | roleAvail | cfgSetsilence | cfgSetsendback | cfgSettimeout | evAck | evSetmask =>
    obtain ⟨rx, tx, rfl, hrx, htx⟩ := h.exists_buffers
    refine SameButStale.done ?_ _ _
    exact ⟨rfl, hrx, htx⟩
  | _ => cases hw

theorem SameButStale.runCommand (h : SameButStale s t) (hs : s.Inv) (op : Byte) :
    SameOutcome (runCommand op s) (runCommand op t) := by
  have h0 : t.cmdArg0 = s.cmdArg0 := by rw [h.1]
  have h1 : t.cmdArg1 = s.cmdArg1 := by rw [h.1]
  unfold Machine.runCommand
  rw [h0, h1]
  cases hd : decodeCommand op s.cmdArg0 s.cmdArg1 with
  | ok i => exact h.exec hs (isWire_of_decodeCommand hd)
  | error r => exact h.done _ _

theorem SameButStale.writeRegister (h : SameButStale s t) (r : Register) (value : Word) :
    SameButStale (writeRegister r value s) (writeRegister r value t) := by
  obtain ⟨rx, tx, rfl, hrx, htx⟩ := h.exists_buffers
  cases r <;> exact ⟨rfl, hrx, htx⟩

theorem SameButStale.writePort (h : SameButStale s t) (hs : s.Inv) (offset : Nat) (value : Word) :
    SameOutcome (writePort offset value s) (writePort offset value t) := by
  unfold Machine.writePort
  split
  · exact h.runCommand hs _
  · exact (h.writeRegister _ _).next
  · exact sameOutcome_fault _ _

/-- No register shows a stale byte: TX_VIEW reads the byteCount of an envelope only. -/
theorem SameButStale.registerValue (h : SameButStale s t) (r : Register) : registerValue r t = registerValue r s := by
  obtain ⟨rx, tx, rfl, hrx, htx⟩ := h.exists_buffers
  cases r with
  | txView =>
    simp only [Machine.registerValue, txViewWord]
    split
    · rw [htx (ne_none_of_isVariable ‹_›)]
    · rfl
  | _ => rfl

theorem SameButStale.readPort (h : SameButStale s t) (offset : Nat) : SameOutcome (readPort offset s) (readPort offset t) := by
  unfold Machine.readPort
  split
  · rename_i r _
    refine SameButStale.next ?_
    unfold Machine.readRegister
    rw [h.registerValue]
    obtain ⟨rx, tx, rfl, hrx, htx⟩ := h.exists_buffers
    exact ⟨rfl, hrx, htx⟩
  · exact sameOutcome_fault _ _

theorem SameButStale.perform (h : SameButStale s t) (hs : s.Inv) (i : Input) : SameOutcome (perform i s) (perform i t) := by
  cases i with
  | write offset value => exact h.writePort hs offset value
  | read offset => exact h.readPort offset
  | tick | arrive =>
    obtain ⟨rx, tx, rfl, hrx, htx⟩ := h.exists_buffers
    exact SameButStale.next ⟨rfl, hrx, htx⟩
  | reset =>
    obtain ⟨rx, tx, rfl, -⟩ := h.exists_buffers
    exact SameButStale.next ⟨rfl, fun _ _ => rfl, fun _ => rfl⟩

theorem SameButStale.takeInput (h : SameButStale s t) (i : Input) (rest : List Input) :
    SameButStale (takeInput i rest s) (takeInput i rest t) := by
  obtain ⟨rx, tx, rfl, hrx, htx⟩ := h.exists_buffers
  exact ⟨rfl, hrx, htx⟩

theorem SameButStale.step (h : SameButStale s t) (hs : s.Inv) : SameOutcome (step s) (step t) := by
  have hi : t.inputs = s.inputs := by rw [h.1]
  unfold Machine.step
  rw [hi]
  cases s.inputs with
  | nil => exact h.next
  | cons i rest => exact (h.takeInput i rest).perform (hs.tookInput i rest) i

/-- Settles O59: every operation of the block reads `rx_buf` below `rx_len` and `tx_buf` under an envelope only. -/
theorem staleBytesAreUnobservable : Obligations.StaleBytesAreUnobservable :=
  fun _ _ s' hs _ h hstep => h.step hs s' hstep

end Sys2Proof.Machine
end

section
/-! PROOFS. What a step fetches and runs (10_state.md R45): a command through CMD_OP, a frame through FSM.UPDATE. -/

namespace Sys2Proof.Machine

variable {s : State}

theorem step_cons {i : Input} {rest : List Input} (h : s.inputs = i :: rest) : step s = perform i (takeInput i rest s) := by
  unfold step
  rw [h]

theorem perform_write_cmdOp (value : Word) (s : State) : perform (.write 0x00 value) s = runCommand (value.setWidth 8) s := rfl

theorem takeInput_write (offset : Nat) (value : Word) (rest : List Input) (s : State) :
    takeInput (.write offset value) rest s = { s with inputs := rest, freeCount := s.freeCount + 1 } := rfl

theorem runCommand_ok {op : Byte} {i : Instr} (h : decodeCommand op s.cmdArg0 s.cmdArg1 = .ok i) : runCommand op s = exec i s := by
  unfold runCommand
  rw [h]

theorem runCommand_error {op : Byte} {r : Reject} (h : decodeCommand op s.cmdArg0 s.cmdArg1 = .error r) :
    runCommand op s = badCommand s := by
  unfold runCommand
  rw [h]

/-! ### Reserved opcodes -/

/-- The opcodes 46_config_and_system.md R381 lists are those without a row in the table of 30_encoding.md R112. -/
theorem reservedOpcode_eq_isNone :
    ∀ op : Byte, reservedOpcode op = (commandTable.find? fun r => r.op == op).isNone := by decide

theorem decodeCommand_of_reserved {op : Byte} (h : reservedOpcode op = true) (arg0 arg1 : Word) :
    decodeCommand op arg0 arg1 = .error (.reservedOpcode op) := by
  rw [reservedOpcode_eq_isNone, Option.isNone_iff_eq_none] at h
  unfold decodeCommand
  rw [h]

theorem exists_decodeCommand_of_not_reserved {op : Byte} (h : reservedOpcode op = false) (arg0 arg1 : Word) :
    ∃ i, decodeCommand op arg0 arg1 = .ok i := by
  rw [reservedOpcode_eq_isNone, Option.isNone_eq_false_iff, Option.isSome_iff_exists] at h
  obtain ⟨r, hr⟩ := h
  unfold decodeCommand
  rw [hr]
  exact ⟨_, rfl⟩

/-- Settles O5: an opcode is reserved exactly where the command table has no row for it. -/
theorem reservedOpcodesReturnBadCmd : Obligations.ReservedOpcodesReturnBadCmd := by
  intro value s
  rw [perform_write_cmdOp]
  refine ⟨fun h => ?_, fun h => ?_⟩
  · rw [runCommand_error (decodeCommand_of_reserved h _ _)]
    rfl
  · obtain ⟨i, hi⟩ := exists_decodeCommand_of_not_reserved h s.cmdArg0 s.cmdArg1
    exact ⟨i, hi, runCommand_ok hi⟩

/-- Settles O7: the write reaches CMD_OP, whose command is the one decoded from the argument registers. -/
theorem stepRunsTheDecodedCommand : Obligations.StepRunsTheDecodedCommand := by
  intro s value rest i hin hdec
  rw [step_cons hin, perform_write_cmdOp, takeInput_write]
  exact runCommand_ok hdec

/-! ### Frames -/

theorem decode_adu_eq_ok {isResponse : Bool} {bytes : List Byte} {i : Instr} (h : decode (.adu isResponse bytes) = .ok i) :
    ∃ f, decodeFrame isResponse bytes = .ok f ∧ i = f.toInstr := by
  cases hf : decodeFrame isResponse bytes with
  | ok f =>
    rw [decode_adu hf] at h
    injection h with h
    exact ⟨f, rfl, h.symm⟩
  | error r =>
    simp only [decode, hf] at h
    cases h

/-- The completion of a frame that decodes executes its instruction, with the frame counted. -/
theorem complete_of_decode {i : Instr}
    (h : decode (.adu (decide (s.params.role = .master)) (s.rxBuf.slice 0 s.rxLen)) = .ok i) :
    complete s = exec i (frameCounted s) := by
  obtain ⟨f, hf, rfl⟩ := decode_adu_eq_ok h
  rw [← runFrame_eq_exec]
  unfold complete
  rw [hf]
  rfl

/-- An end check after the silence of a frame of 4 to CAP - 1 bytes completes it (44_framing_fsm.md R302). -/
theorem endCheck_of_silence (hst : s.rxState ≠ .waitStation) (h4 : 4 ≤ s.rxLen) (hcap : s.rxLen < s.params.cap)
    (hsil : s.silenceUs.toNat < elapsed s.now s.lastRxUs) : endCheck s = complete s := by
  rcases endCheck_cases s with ⟨hst' | ⟨-, hle⟩, -⟩ | ⟨-, hle, -⟩ | ⟨-, -, -, hlt, -⟩ | ⟨-, -, -, -, he⟩
  · exact absurd hst' hst
  · omega
  · omega
  · omega
  · exact he

/-- An update with nothing to drain, after the silence of a frame that decodes to an instruction. -/
theorem execFsmUpdate_of_decode {i : Instr} (hq : s.rxq = []) (hst : s.rxState ≠ .waitStation) (h4 : 4 ≤ s.rxLen)
    (hcap : s.rxLen < s.params.cap) (hsil : s.silenceUs.toNat < elapsed s.now s.lastRxUs)
    (h : decode (.adu (decide (s.params.role = .master)) (s.rxBuf.slice 0 s.rxLen)) = .ok i) :
    execFsmUpdate s = chain (exec i (frameCounted s)) fun framed =>
      chain (deferredTransmit (responseTimeout framed)) fun sent => .next (sent.returning .ok 0) := by
  unfold execFsmUpdate
  rw [within_of_le (by omega), drain_of_empty hq, endCheck_of_silence hst h4 hcap hsil, complete_of_decode h]
  rfl

/-- Settles O8: CMD_OP runs FSM.UPDATE, whose end check completes the frame. -/
theorem stepRunsTheDecodedFrame : Obligations.StepRunsTheDecodedFrame := by
  intro s value rest i hin hop hq hst h4 hcap hsil hdec
  have hrun : ∀ t : State, runCommand 0x30#8 t = execFsmUpdate t := fun t => runCommand_ok (i := .fsmUpdate) rfl
  rw [step_cons hin, perform_write_cmdOp, hop, hrun, takeInput_write]
  exact execFsmUpdate_of_decode hq hst h4 hcap hsil hdec

end Sys2Proof.Machine
end

section
/-! PROOFS. The host port (10_state.md R45): the packed registers, the register map, and the numbers the host sees. -/

namespace Sys2Proof.Machine

variable {s : State}

/-! ### Numbers packed into a word -/

theorem flag_le_one (b : Bool) : flag b ≤ 1 := by cases b <;> decide

theorem variantCode_lt (v : Variant) : variantCode v < 16 := by cases v <;> decide

theorem statusCode_lt (st : DecodeStatus) : statusCode st < 8 := by cases st <;> decide

theorem rxStateCode_lt (st : RxState) : rxStateCode st < 4 := by cases st <;> decide

/-- A bit of a word, from the word as a number. -/
theorem getLsbD_of_div_mod {w : Word} {i : Nat} {b : Bool} (h : w.toNat / 2 ^ i % 2 = flag b) : w.getLsbD i = b := by
  rw [← BitVec.testBit_toNat, Nat.testBit_eq_decide_div_mod_eq, h]
  cases b <;> decide

/-- A field of a word, from the word as a number. -/
theorem extractLsb'_of_div_mod {w : Word} {start len : Nat} {v : BitVec len} (h : w.toNat / 2 ^ start % 2 ^ len = v.toNat) :
    w.extractLsb' start len = v := by
  apply BitVec.eq_of_toNat_eq
  rw [BitVec.extractLsb'_toNat, Nat.shiftRight_eq_div_pow, h]

theorem toNat_ofNat_32 {n : Nat} (h : n < 2 ^ 32) : (BitVec.ofNat 32 n).toNat = n := by
  rw [BitVec.toNat_ofNat]
  exact Nat.mod_eq_of_lt h

/-- Each field of STATUS stays below the weight of the next. -/
theorem statusWord_bounds (s : State) :
    rxStateCode s.rxState < 4 ∧ flag s.rxValid ≤ 1 ∧ flag s.awaiting ≤ 1 ∧ flag s.allowed ≤ 1 ∧ flag s.txPending ≤ 1 ∧
      flag (availTx s) ≤ 1 ∧ flag (decide (s.params.role = .master)) ≤ 1 ∧ flag (irq s) ≤ 1 :=
  ⟨rxStateCode_lt _, flag_le_one _, flag_le_one _, flag_le_one _, flag_le_one _, flag_le_one _, flag_le_one _, flag_le_one _⟩

theorem toNat_statusWord (s : State) : (statusWord s).toNat =
    rxStateCode s.rxState + 4 * flag s.rxValid + 8 * flag s.awaiting + 16 * flag s.allowed + 32 * flag s.txPending +
      64 * flag (availTx s) + 128 * flag (decide (s.params.role = .master)) + 256 * flag (irq s) := by
  have := statusWord_bounds s
  exact toNat_ofNat_32 (by omega)

theorem toNat_viewWord (v : View) :
    (viewWord v).toNat = variantCode v.variant + 16 * statusCode v.status + 256 * v.bc.toNat + 65536 * v.vq.toNat := by
  have := variantCode_lt v.variant
  have := statusCode_lt v.status
  have := v.bc.isLt
  have := v.vq.isLt
  exact toNat_ofNat_32 (by omega)

/-- The fields of a packed view. -/
theorem viewWord_fields (v : View) :
    (viewWord v).extractLsb' 0 4 = BitVec.ofNat 4 (variantCode v.variant) ∧
    (viewWord v).extractLsb' 4 3 = BitVec.ofNat 3 (statusCode v.status) ∧
    (viewWord v).getLsbD 7 = false ∧
    (viewWord v).extractLsb' 8 8 = v.bc ∧
    (viewWord v).extractLsb' 16 16 = v.vq := by
  have := variantCode_lt v.variant
  have := statusCode_lt v.status
  have := v.bc.isLt
  have := v.vq.isLt
  have hn := toNat_viewWord v
  refine ⟨extractLsb'_of_div_mod ?_, extractLsb'_of_div_mod ?_, getLsbD_of_div_mod ?_, extractLsb'_of_div_mod ?_,
    extractLsb'_of_div_mod ?_⟩
  · rw [BitVec.toNat_ofNat]; omega
  · rw [BitVec.toNat_ofNat]; omega
  · show _ = 0; omega
  · omega
  · omega

/-- With status OK the four bits above the variant are 0. -/
theorem viewWord_status_ok {v : View} (h : v.status = .ok) : (viewWord v).extractLsb' 4 4 = 0 := by
  have := variantCode_lt v.variant
  have hn := toNat_viewWord v
  rw [h, show statusCode .ok = 0 from rfl] at hn
  refine extractLsb'_of_div_mod ?_
  show _ = 0
  omega

/-- The byteCount byte lies before the values region: at 2 of a read response, at 6 of a write-multiple request. -/
theorem byteCount_read (v : Variant) (m : Buf) : (if isVariable v then m.read (valOff v - 1) else 0) =
    if v = .rsBits ∨ v = .rsRegs then m.read 2 else if v = .rqWbits ∨ v = .rqWregs then m.read 6 else 0 := by
  cases v <;> rfl

/-- Settles O11: each register is a sum of its fields, each below the weight of the next. -/
theorem statusAndViewRegistersPackTheirFields : Obligations.StatusAndViewRegistersPackTheirFields := by
  intro s
  have := statusWord_bounds s
  have hn := toNat_statusWord s
  have hirq : irq s = decide (s.evPending &&& s.evMask ≠ 0) := by
    by_cases h0 : s.evPending &&& s.evMask = 0#2 <;> simp [irq, h0]
  simp only [registerValue, rxViewWord]
  rw [← hirq]
  refine ⟨extractLsb'_of_div_mod ?_, getLsbD_of_div_mod ?_, getLsbD_of_div_mod ?_, getLsbD_of_div_mod ?_, getLsbD_of_div_mod ?_,
    getLsbD_of_div_mod ?_, getLsbD_of_div_mod ?_, getLsbD_of_div_mod ?_, ?_, fun hv => ?_, fun hv => ?_, ?_⟩
  · rw [BitVec.toNat_ofNat]; omega
  iterate 8 omega
  · simp [hv]
  · rw [if_pos hv]
    exact viewWord_fields s.rxView
  · obtain ⟨hvariant, -, -, hbc, hvq⟩ := viewWord_fields
      ⟨s.txVariant, .ok, if isVariable s.txVariant then s.txBuf.read (valOff s.txVariant - 1) else 0, s.txVq⟩
    exact ⟨hvariant, viewWord_status_ok rfl, hbc.trans (byteCount_read _ _), hvq⟩

/-! ### The register map -/

/-- The offsets of the map are the multiples of 4 up to 0x68. -/
theorem registerAt_eq_none {offset : Nat} (h : 26 * 4 < offset ∨ offset % 4 ≠ 0) : registerAt offset = none := by
  have hall : ∀ p ∈ registerTable, p.1 ≤ 26 * 4 ∧ p.1 % 4 = 0 := by decide
  refine List.lookup_eq_none_iff.2 fun p hp => ?_
  have := hall p hp
  simp only [bne_iff_ne, ne_eq]
  omega

theorem readPort_none {offset : Nat} (h : registerAt offset = none) (s : State) :
    readPort offset s = .fault (.noRegister offset) := by
  unfold readPort
  rw [h]

theorem writePort_none {offset : Nat} (h : registerAt offset = none) (value : Word) (s : State) :
    writePort offset value s = .fault (.noRegister offset) := by
  unfold writePort
  rw [h]

/-- A push of one entry, dropped where the FIFO is full (93_implementation_defined.md U18). -/
theorem pushHdata_singleton (p : Params) (q : List Half) (e : Half) :
    pushHdata p q [e] = if q.length < p.hdataDepth then q ++ [e] else q := by
  unfold pushHdata
  split
  · exact List.take_of_length_le (by simp; omega)
  · rw [Nat.max_eq_right (by omega), List.take_left' rfl]

/-- Settles O10: the map, register by register. -/
theorem hostReadsAndWritesFollowTheRegisterMap : Obligations.HostReadsAndWritesFollowTheRegisterMap := by
  intro s
  refine ⟨?_, ?_, ⟨Config.cmdOpRead s.freeCount, rfl, rfl⟩, fun v => ⟨rfl, rfl, ?_, fun k h3 h26 h5 => ?_⟩, fun offset h => ?_⟩
  · simp only [List.forall_mem_cons, BitVec.ofNat_toNat, List.not_mem_nil, false_implies, implies_true, and_true]
    and_intros <;> rfl
  · rw [BitVec.ofNat_toNat]
    rfl
  · rw [← pushHdata_singleton]
    rfl
  · obtain rfl | rfl | h6 : k = 3 ∨ k = 4 ∨ 6 ≤ k := by omega
    · rfl
    · rfl
    · interval_cases k <;> rfl
  · exact ⟨readPort_none (registerAt_eq_none h) s, fun v => writePort_none (registerAt_eq_none h) v s⟩

/-! ### The numbers the host sees -/

theorem specRxState_eq (st : RxState) : specRxState st = rxStateCode st := by cases st <;> rfl

theorem specVariant_eq (v : Variant) : specVariant v = variantCode v := by cases v <;> rfl

theorem specStatus_eq (st : DecodeStatus) : specStatus st = statusCode st := by cases st <;> rfl

theorem toNat_viewWord_variant (v : View) : (viewWord v).toNat % 16 = specVariant v.variant := by
  have := variantCode_lt v.variant
  rw [toNat_viewWord, specVariant_eq]
  omega

theorem toNat_viewWord_status (v : View) : (viewWord v).toNat / 16 % 8 = specStatus v.status := by
  have := variantCode_lt v.variant
  have := statusCode_lt v.status
  rw [toNat_viewWord, specStatus_eq]
  omega

/-- PL.GETF in a good state with a selected frame answers the field's value. -/
theorem State.Inv.exec_plGetf (h : s.Inv) {sel : Sel} {f : Selected} (hf : select sel s = some f) {field : BitVec 4} {fld : Field}
    (hfld : fieldOf field = some fld) :
    exec (.plGetf sel field) s = .next (s.returning (fieldValue f fld).1 (fieldValue f fld).2) := by
  show execPlGetf sel field s = _
  unfold execPlGetf
  rw [withSelected_some hf (h.select_len hf), hfld]
  rfl

/-- Settles O60: the model's codes are the spec's, and each register and field shows them. -/
theorem codesHaveTheNumbersOfTheSpec : Obligations.CodesHaveTheNumbersOfTheSpec := by
  intro s h
  refine ⟨?_, ?_, ?_, toNat_viewWord_variant _, fun hv => ?_, fun hn => ?_⟩
  · simp only [registerValue]
    cases s.result <;> rfl
  · simp only [registerValue]
    cases s.failKind <;> rfl
  · have := rxStateCode_lt s.rxState
    simp only [registerValue]
    rw [toNat_statusWord, specRxState_eq]
    omega
  · have hsel := select_rx s
    rw [if_pos hv] at hsel
    simp only [registerValue, rxViewWord, if_pos hv]
    refine ⟨toNat_viewWord_variant _, toNat_viewWord_status _, ?_, ?_⟩
    · rw [specStatus_eq]
      exact h.exec_plGetf hsel (fld := .status) rfl
    · rw [specVariant_eq]
      exact h.exec_plGetf hsel (fld := .variant) rfl
  · have hsel := select_tx s
    rw [if_neg hn] at hsel
    refine ⟨h.exec_plGetf hsel (fld := .status) rfl, ?_⟩
    rw [specVariant_eq]
    exact h.exec_plGetf hsel (fld := .variant) rfl

end Sys2Proof.Machine
end

section
/-! PROOFS. The remove commands (43_payload_ops.md section 5). -/

namespace Sys2Proof.Machine

variable {s : State}

/-- A command on the elements refuses where there is no envelope, and where its elements are of another class. -/
theorem State.Inv.refusesOutsideClass (h : s.Inv) {i : Instr} {cls : Variant → Bool} {k : Outcome}
    (hi : exec i s = Machine.withElements cls s k) : RefusesOutsideClass i cls s := by
  unfold RefusesOutsideClass
  rw [hi]
  refine ⟨fun hn => withEnvelope_none hn _, fun hn hc => ?_⟩
  unfold Machine.withElements
  rw [withEnvelope_some hn (h.txLen_le hn), if_neg (by simp [hc])]
  rfl

/-- A remove command that cuts the list in two parts, `n` elements out and the rest kept. -/
theorem State.Inv.removes (h : s.Inv) {i : Instr} {cls : Variant → Bool} {cut : List Half → List Half × List Half}
    {out keep : List Half → List Half} {n : Nat} (hi : exec i s = removeElems cls cut n s)
    (hcls : ∀ v, cls v = true → isVariable v = true)
    (hcut : ∀ es, es.length = s.txVq.toNat → cut es = (out es, keep es))
    (hlen : ∀ es, es.length = s.txVq.toNat → (keep es).length = s.txVq.toNat - n)
    (hkeep : ∀ es e, e ∈ keep es → e ∈ es) : Removes i cls out keep n s := by
  refine ⟨h.refusesOutsideClass hi, fun hc hn => ?_, fun hc hn => ?_⟩
  · rw [hi, removeElems_range h hcls hc hn]
    rfl
  · have hv := hcls _ hc
    have hes : (envelopeElems s).length = s.txVq.toNat := length_elems ..
    have hk := hlen _ hes
    have hlist : ElementList s.txVariant (keep (envelopeElems s)) := fun hb e he =>
      elementList_elems _ _ _ hb e (hkeep _ e he)
    have hfits : Fits s.params.cap s.txVariant (keep (envelopeElems s)).length := h.fits hv (by omega)
    rw [hi, removeElems_stored h hcls hc hn (hcut _ hes) (by omega), hk]
    exact ⟨_, rfl, rfl, storedBuf_stores hv hlist hfits.1 (h.byteCount_tail hv)⟩

/-- Settles O30: each command is a cut at one end, whose kept part is no longer than the list and so always fits. -/
theorem removeCommandsDeliverTheRemovedElements : Obligations.RemoveCommandsDeliverTheRemovedElements := by
  intro s n h
  have hhead : ∀ es : List Half, es.length = s.txVq.toNat → (es.drop n.toNat).length = s.txVq.toNat - n.toNat :=
    fun es hes => by rw [List.length_drop, hes]
  have htail : ∀ es : List Half, es.length = s.txVq.toNat →
      (es.take (s.txVq.toNat - n.toNat)).length = s.txVq.toNat - n.toNat :=
    fun es hes => by rw [List.length_take]; omega
  have hcut : ∀ es : List Half, es.length = s.txVq.toNat →
      cutTail n.toNat es = (es.drop (s.txVq.toNat - n.toNat), es.take (s.txVq.toNat - n.toNat)) :=
    fun es hes => by rw [cutTail, hes]
  exact ⟨h.removes rfl (fun _ => isVariable_of_isBits) (fun _ _ => rfl) hhead fun _ _ => List.mem_of_mem_drop,
    h.removes rfl (fun _ => isVariable_of_isBits) hcut htail fun _ _ => List.mem_of_mem_take,
    h.removes rfl (fun _ => isVariable_of_isRegs) (fun _ _ => rfl) hhead fun _ _ => List.mem_of_mem_drop,
    h.removes rfl (fun _ => isVariable_of_isRegs) hcut htail fun _ _ => List.mem_of_mem_take⟩

end Sys2Proof.Machine
end

section
/-! PROOFS. Who writes what (10_state.md): the elements each command can have written, said once, and the writers of every
element read off from it. -/

namespace Sys2Proof.Machine

variable {s t : State}

/-- The elements an update can write. -/
def OnlyUpdates (s t : State) : Prop :=
  t = { s with
    rxBuf := t.rxBuf, rxq := t.rxq, rxLen := t.rxLen, rxState := t.rxState, rxValid := t.rxValid, rxView := t.rxView
    lastRxUs := t.lastRxUs, lastActUs := t.lastActUs, totalFrames := t.totalFrames, failedFrames := t.failedFrames
    failKind := t.failKind, evPending := t.evPending, awaiting := t.awaiting, allowed := t.allowed
    txPending := t.txPending, txBuf := t.txBuf, txlog := t.txlog, txStampUs := t.txStampUs, result := t.result
    rdata := t.rdata }

/-- The elements a transmission can write. -/
def OnlyTransmits (s t : State) : Prop :=
  t = { s with
    txBuf := t.txBuf, txlog := t.txlog, lastActUs := t.lastActUs, awaiting := t.awaiting, txStampUs := t.txStampUs
    allowed := t.allowed, result := t.result, rdata := t.rdata }

theorem OnlyUpdates.trans {u : State} (h : OnlyUpdates s u) (h' : OnlyUpdates u t) : OnlyUpdates s t := by
  unfold OnlyUpdates at h
  exact Eq.trans h' (by rw [h])

/-- Each phase of an update writes only elements an update can write. -/
theorem execFsmUpdate_frame (h : execFsmUpdate s = .next t) : OnlyUpdates s t := by
  obtain ⟨h1, framed, sent, hframed, hsent, rfl⟩ := execFsmUpdate_eq_next h
  have drained : OnlyUpdates s (drain s) := by
    unfold OnlyUpdates
    rw [drain_keeps s h1]
  have checked : OnlyUpdates (drain s) framed := by
    unfold OnlyUpdates
    rw [endCheck_frame hframed]
  have timed : OnlyUpdates framed (responseTimeout framed) := by
    unfold OnlyUpdates
    rw [responseTimeout_frame framed]
  have deferred : OnlyUpdates (responseTimeout framed) sent := by
    unfold OnlyUpdates
    rw [deferredTransmit_frame hsent]
  exact (drained.trans checked).trans ((timed.trans deferred).trans rfl)

theorem execRoleXmit_frame {target : Byte} (h : execRoleXmit target s = .next t) : OnlyTransmits s t := by
  rcases execRoleXmit_eq_next h with ⟨-, rfl⟩ | ⟨-, rfl⟩ <;> rfl

/-- What a command can have written, by the kind of command. -/
inductive Effect (i : Instr) (s t : State) : Prop
  | answers (h : OnlyAnswers s t)
  | edits (hi : i.editsEnvelope = true) (h : OnlyEdits s t)
  | creates (hi : i.isCreate = true) (h : OnlyReplaces s t)
  | stores (hi : i.changesLength = true) (hh : i.usesHdata = true ∨ t.hdata = s.hdata) (h : OnlyStores s t)
  | updates (hi : i = .fsmUpdate) (h : OnlyUpdates s t)
  | transmits (hi : i.isXmit = true) (h : OnlyTransmits s t)
  | defers (hi : ∃ target, i = .roleXmitdef target)
      (h : t = { s with txPending := t.txPending, pendingTarget := t.pendingTarget, result := t.result, rdata := t.rdata })
  | accumulates (hi : i = .crcReset ∨ ∃ b, i = .crcUpdate b)
      (h : t = { s with crc := t.crc, result := t.result, rdata := t.rdata })
  | setsBaud (hi : ∃ baud, i = .cfgSetbaud baud)
      (h : t = { s with
        baud := t.baud, silenceUs := t.silenceUs, sendbackUs := t.sendbackUs, result := t.result, rdata := t.rdata })
  | setsSilence (hi : ∃ us, i = .cfgSetsilence us)
      (h : t = { s with silenceUs := t.silenceUs, result := t.result, rdata := t.rdata })
  | setsSendback (hi : ∃ us, i = .cfgSetsendback us)
      (h : t = { s with sendbackUs := t.sendbackUs, result := t.result, rdata := t.rdata })
  | setsTimeout (hi : ∃ us, i = .cfgSettimeout us)
      (h : t = { s with respTimeoutUs := t.respTimeoutUs, result := t.result, rdata := t.rdata })
  | setsStation (hi : ∃ station, i = .cfgSetstation station)
      (h : t = { s with station := t.station, result := t.result, rdata := t.rdata })
  | resets (hi : i = .sysSoftreset)
      (h : t = { s with
        rxState := t.rxState, rxLen := t.rxLen, rxValid := t.rxValid, awaiting := t.awaiting, allowed := t.allowed
        txPending := t.txPending, result := t.result, rdata := t.rdata })
  | acknowledges (hi : ∃ m, i = .evAck m) (h : t = { s with evPending := t.evPending, result := t.result, rdata := t.rdata })
  | masks (hi : ∃ m, i = .evSetmask m) (h : t = { s with evMask := t.evMask, result := t.result, rdata := t.rdata })

/-- Every command that goes on has the effect of its kind. -/
theorem exec_effect {i : Instr} (hw : i.isWire = false) (h : exec i s = .next t) : Effect i s t := by
  cases i with
  | crcValue | roleAvail => exact .answers (onlyAnswers_of_done h)
  | envVerifycrc => exact .answers (execEnvVerifycrc_frame h)
  | plGetf => exact .answers (execPlGetf_frame h)
  | plGetbit => exact .answers (execPlGetbit_frame h)
  | plGetreg => exact .answers (execPlGetreg_frame h)
  | sysRdbuf => exact .answers (execSysRdbuf_frame h)
  | envApplycrc => exact .edits rfl (execEnvApplycrc_frame h)
  | plSetf => exact .edits rfl (execPlSetf_frame h)
  | plSetbit => exact .edits rfl (execPlSetbit_frame h)
  | plSetreg => exact .edits rfl (execPlSetreg_frame h)
  | envCreq | envCrsp | envCdiag => exact .creates rfl (createEnvelope_frame h)
  | plResize => exact .stores rfl (.inr (execPlResize_hdata h)) (execPlResize_frame h)
  | plInsbitsH | plInsbitsT | plInsregsH | plInsregsT => exact .stores rfl (.inl rfl) (insertElems_frame h)
  | plRembitsH | plRembitsT | plRemregsH | plRemregsT => exact .stores rfl (.inl rfl) (removeElems_frame h)
  | fsmUpdate => exact .updates rfl (execFsmUpdate_frame h)
  | roleXmit => exact .transmits rfl (execRoleXmit_frame h)
  | roleXmitdef target =>
    refine .defers ⟨target, rfl⟩ ?_
    rcases execRoleXmitdef_eq_next h with ⟨-, rfl⟩ | ⟨-, rfl⟩ <;> rfl
  | crcReset =>
    injection h with h
    exact .accumulates (.inl rfl) (h ▸ rfl)
  | crcUpdate b =>
    injection h with h
    exact .accumulates (.inr ⟨b, rfl⟩) (h ▸ rfl)
  | cfgSetbaud baud =>
    refine .setsBaud ⟨baud, rfl⟩ ?_
    change execCfgSetbaud baud s = .next t at h
    unfold execCfgSetbaud at h
    split at h <;> (injection h with h; subst h; rfl)
  | cfgSetsilence us =>
    injection h with h
    exact .setsSilence ⟨us, rfl⟩ (h ▸ rfl)
  | cfgSetsendback us =>
    injection h with h
    exact .setsSendback ⟨us, rfl⟩ (h ▸ rfl)
  | cfgSettimeout us =>
    injection h with h
    exact .setsTimeout ⟨us, rfl⟩ (h ▸ rfl)
  | cfgSetstation station =>
    refine .setsStation ⟨station, rfl⟩ ?_
    change execCfgSetstation station s = .next t at h
    unfold execCfgSetstation at h
    split at h
    · injection h with h; subst h; rfl
    · split at h <;> (injection h with h; subst h; rfl)
  | sysSoftreset =>
    injection h with h
    exact .resets rfl (h ▸ rfl)
  | evAck m =>
    injection h with h
    exact .acknowledges ⟨m, rfl⟩ (h ▸ rfl)
  | evSetmask m =>
    injection h with h
    exact .masks ⟨m, rfl⟩ (h ▸ rfl)
  | _ => cases hw

/-- Settles O53: the writers of each element are read off from the effect of each kind of instruction. -/
theorem receiverStateHasOnlyItsWriters : Obligations.ReceiverStateHasOnlyItsWriters := by
  intro i s t h
  cases hw : i.isWire with
  | true =>
    obtain ⟨station, view, he⟩ := exec_isWire hw s
    rw [he] at h
    injection h with h
    subst h
    simp
  | false =>
    cases exec_effect hw h with
    | answers h => rw [h]; simp
    | edits hi h => rw [h]; simp
    | creates hi h => rw [h]; simp
    | stores hi hh h => rw [h] at hh ⊢; simpa using hh
    | updates hi h => rw [h]; simp [hi]
    | transmits hi h => rw [h]; simp
    | defers hi h => rw [h]; simp
    | accumulates hi h => rw [h]; rcases hi with hi | hi <;> simp [hi]
    | setsBaud hi h => rw [h]; simp
    | setsSilence hi h => rw [h]; simp
    | setsSendback hi h => rw [h]; simp
    | setsTimeout hi h => rw [h]; simp
    | setsStation hi h => rw [h]; simp
    | resets hi h => rw [h]; simp [hi]
    | acknowledges hi h => rw [h]; simp [hi]
    | masks hi h => rw [h]; simp [hi]

/-- Settles O54: the writers of each element are read off from the effect of each kind of instruction. -/
theorem transmitStateHasOnlyItsWriters : Obligations.TransmitStateHasOnlyItsWriters := by
  intro i s t h
  cases hw : i.isWire with
  | true =>
    obtain ⟨station, view, he⟩ := exec_isWire hw s
    rw [he] at h
    injection h with h
    subst h
    simp
  | false =>
    cases exec_effect hw h with
    | answers h => rw [h]; simp
    | edits hi h => rw [h]; simp [hi]
    | creates hi h => rw [h]; simp [hi]
    | stores hi hh h => rw [h]; simp [hi]
    | updates hi h => rw [h]; simp [hi]
    | transmits hi h => rw [h]; simp [hi]
    | defers hi h => rw [h]; simp [hi]
    | accumulates hi h => rw [h]; simp
    | setsBaud hi h => rw [h]; simp [hi]
    | setsSilence hi h => rw [h]; simp [hi]
    | setsSendback hi h => rw [h]; simp [hi]
    | setsTimeout hi h => rw [h]; simp [hi]
    | setsStation hi h => rw [h]; simp [hi]
    | resets hi h => rw [h]; simp [hi]
    | acknowledges hi h => rw [h]; simp
    | masks hi h => rw [h]; simp

end Sys2Proof.Machine
end

section
/-! PROOFS. From a good state every instruction goes on (20_memory.md R78): each access lies inside its buffer and inside the frame
the buffer holds, command by command; and a step stops only at an offset without a register (log 7). -/

namespace Sys2Proof.Machine

variable {s : State}

/-! ### Ending and guarding a command -/

theorem continues_next (s : State) : Continues (.next s) := ⟨s, rfl⟩

theorem continues_done (s : State) (code : ResultCode) (value : Word) : Continues (done s code value) := ⟨_, rfl⟩

theorem Continues.within {k : Outcome} {n limit : Nat} (hk : Continues k) (h : n ≤ limit) : Continues (within n limit k) := by
  rwa [within_of_le h]

theorem Continues.ite {c : Prop} [Decidable c] {o p : Outcome} (ho : c → Continues o) (hp : ¬c → Continues p) :
    Continues (if c then o else p) := by
  split
  · exact ho ‹_›
  · exact hp ‹_›

/-- The envelope of a good state lies inside CAP with its CRC. -/
theorem State.Inv.withEnvelope_continues (h : s.Inv) {k : Outcome} (hk : s.txVariant ≠ .none → Continues k) :
    Continues (Machine.withEnvelope s k) :=
  .ite (fun _ => continues_done ..) fun hn => (hk hn).within (h.txLen_le hn)

/-- The selected frame of a good state lies inside CAP with its CRC. -/
theorem State.Inv.withSelected_continues (h : s.Inv) {sel : Sel} {k : Selected → Outcome}
    (hk : ∀ f, select sel s = some f → Continues (k f)) : Continues (withSelected sel s k) := by
  cases hf : select sel s with
  | none => rw [withSelected_none hf]; exact continues_done ..
  | some f => rw [withSelected_some hf (h.select_len hf)]; exact hk f hf

/-- The PDU of a variable-length envelope ends with its values region. -/
theorem State.Inv.txLen_eq (h : s.Inv) (hv : isVariable s.txVariant = true) :
    s.txLen = valOff s.txVariant + storageBytes s.txVariant s.txVq.toNat := by
  obtain ⟨-, hlen, -⟩ := h.region hv
  exact hlen

/-- The values region of a good state lies inside the PDU. -/
theorem State.Inv.withElements_continues (h : s.Inv) {cls : Variant → Bool} {k : Outcome}
    (hcls : ∀ v, cls v = true → isVariable v = true) (hk : cls s.txVariant = true → Continues k) :
    Continues (Machine.withElements cls s k) :=
  h.withEnvelope_continues fun _ => .ite (fun hc => (hk hc).within (h.txLen_eq (hcls _ hc)).ge) fun _ => continues_done ..

/-! ### Reading one element of a region -/

/-- The byte of bit `i` of a region of `q` bits lies inside it. -/
theorem bit_end_le_storageBytes {v : Variant} (hb : isBits v = true) {i q : Nat} (hi : i < q) : i / 8 + 1 ≤ storageBytes v q := by
  simp only [storageBytes, hb, if_true, cdiv8]
  omega

/-- The two bytes of register `i` of a region of `q` registers lie inside it. -/
theorem reg_end_le_storageBytes {v : Variant} (hr : isRegs v = true) {i q : Nat} (hi : i < q) : 2 * i + 2 ≤ storageBytes v q := by
  simp only [storageBytes, isBits_eq_false_of_isRegs hr, Bool.false_eq_true, if_false]
  omega

theorem State.Inv.execPlGetbit_continues (h : s.Inv) (sel : Sel) (i : Half) : Continues (execPlGetbit sel i s) :=
  h.withSelected_continues fun f hf => .ite (fun _ => continues_done ..) fun hb => .ite (fun _ => continues_done ..) fun hi => by
    have hi : i.toNat < f.vq := Nat.lt_of_not_le hi
    have hlast := bit_end_le_storageBytes (by simpa using hb) hi
    obtain ⟨-, hend⟩ := h.select_region hf hi
    exact (continues_done ..).within (by omega)

theorem State.Inv.execPlGetreg_continues (h : s.Inv) (sel : Sel) (i : Half) : Continues (execPlGetreg sel i s) :=
  h.withSelected_continues fun f hf => .ite (fun _ => continues_done ..) fun hr => .ite (fun _ => continues_done ..) fun hi => by
    have hi : i.toNat < f.vq := Nat.lt_of_not_le hi
    have hlast := reg_end_le_storageBytes (by simpa using hr) hi
    obtain ⟨-, hend⟩ := h.select_region hf hi
    exact (continues_done ..).within (by omega)

theorem State.Inv.execPlSetbit_continues (h : s.Inv) (b : Bool) (i : Half) : Continues (execPlSetbit b i s) :=
  h.withEnvelope_continues fun _ => .ite (fun _ => continues_done ..) fun hb => .ite (fun _ => continues_done ..) fun hi => by
    have hb : isBits s.txVariant = true := by simpa using hb
    have hlast := bit_end_le_storageBytes hb (Nat.lt_of_not_le hi)
    have hend := h.txLen_eq (isVariable_of_isBits hb)
    exact (continues_done ..).within (by omega)

theorem State.Inv.execPlSetreg_continues (h : s.Inv) (w i : Half) : Continues (execPlSetreg w i s) :=
  h.withEnvelope_continues fun _ => .ite (fun _ => continues_done ..) fun hr => .ite (fun _ => continues_done ..) fun hi => by
    have hr : isRegs s.txVariant = true := by simpa using hr
    have hlast := reg_end_le_storageBytes hr (Nat.lt_of_not_le hi)
    have hend := h.txLen_eq (isVariable_of_isRegs hr)
    exact (continues_done ..).within (by omega)

/-! ### The fields and the bytes of a frame -/

theorem State.Inv.execPlGetf_continues (h : s.Inv) (sel : Sel) (field : BitVec 4) : Continues (execPlGetf sel field s) :=
  h.withSelected_continues fun f _ => by
    cases fieldOf field with
    | none => exact continues_done ..
    | some fld => exact continues_done ..

/-- A field that PL.SETF may write lies inside the PDU. -/
theorem State.Inv.execPlSetf_continues (h : s.Inv) (value : Half) (field : BitVec 4) : Continues (execPlSetf value field s) := by
  refine h.withEnvelope_continues fun hn => ?_
  cases fieldOf field with
  | none => exact continues_done ..
  | some fld =>
    refine .ite (fun _ => continues_done ..) fun hset => .ite (fun _ => continues_done ..) fun hq => ?_
    cases hp : fieldPlace s.txVariant fld with
    | none => exact continues_done ..
    | some place =>
      obtain ⟨-, -, hvar, -, hfix⟩ := settable_place (by simpa using hset) hq hp
      have hend := h.settable_le_txLen hn hvar hfix
      have hcap := h.txLen_le hn
      exact (continues_done ..).within (by omega)

theorem State.Inv.execEnvVerifycrc_continues (h : s.Inv) (sel : Sel) : Continues (execEnvVerifycrc sel s) := by
  cases sel with
  | rx => exact .ite (fun _ => continues_done ..) fun _ => (continues_done ..).within h.receiver.1
  | tx => exact h.withEnvelope_continues fun _ => continues_done ..

theorem State.Inv.execSysRdbuf_continues (h : s.Inv) (sel : Sel) (off : Half) : Continues (execSysRdbuf sel off s) := by
  cases sel with
  | rx =>
    refine .ite (fun _ => continues_done ..) fun hoff => ?_
    have hcap := h.receiver.1
    exact (continues_done ..).within (by omega)
  | tx =>
    refine .ite (fun _ => continues_done ..) fun hoff => ?_
    obtain ⟨hn, hoff⟩ := not_or.1 hoff
    have hcap := h.txLen_le hn
    exact (continues_done ..).within (by omega)

/-! ### Creating, storing and transmitting an envelope -/

theorem initLen_le_seven (v : Variant) : v.initLen ≤ 7 := by cases v <;> decide

/-- Every empty envelope fits in the least CAP of 00_scope.md R6. -/
theorem State.Inv.createEnvelope_continues (h : s.Inv) (v : Variant) (fcb : Byte) : Continues (createEnvelope v fcb s) := by
  have hcap := h.cap_ge
  have hlen := initLen_le_seven v
  exact .ite (fun _ => continues_done ..) fun _ => (continues_done ..).within (by omega)

/-- Whether the elements fit or not, the bytes cleared lie inside CAP, whatever `hdata` holds. -/
theorem State.Inv.storeValues_continues (h : s.Inv) (hv : isVariable s.txVariant = true) (es q : List Half) :
    Continues (storeValues es { s with hdata := q }) := by
  by_cases hf : Fits s.params.cap s.txVariant es.length
  · exact ⟨_, storeValues_fits (s := { s with hdata := q }) hf (h.byteCount_le hv)⟩
  · rw [storeValues_noSpace (s := { s with hdata := q }) hf]
    exact continues_done ..

theorem State.Inv.execPlResize_continues (h : s.Inv) (q : Half) : Continues (execPlResize q s) :=
  h.withEnvelope_continues fun _ => .ite (fun hv => h.storeValues_continues hv _ s.hdata) fun _ => continues_done ..

theorem State.Inv.insertElems_continues (h : s.Inv) {cls : Variant → Bool} (hcls : ∀ v, cls v = true → isVariable v = true)
    (place : List Half → List Half → List Half) (n : Nat) : Continues (insertElems cls place n s) :=
  h.withElements_continues hcls fun hc => .ite (fun _ => continues_done ..) fun _ => h.storeValues_continues (hcls _ hc) ..

theorem State.Inv.removeElems_continues (h : s.Inv) {cls : Variant → Bool} (hcls : ∀ v, cls v = true → isVariable v = true)
    (cut : List Half → List Half × List Half) (n : Nat) : Continues (removeElems cls cut n s) :=
  h.withElements_continues hcls fun hc => .ite (fun _ => continues_done ..) fun _ => h.storeValues_continues (hcls _ hc) ..

theorem State.Inv.execRoleXmit_continues (h : s.Inv) (target : Byte) : Continues (execRoleXmit target s) := by
  unfold execRoleXmit
  cases hg : gate target s with
  | ok =>
    obtain ⟨hn, -, -⟩ := gate_ok hg
    rw [doXmit_eq (h.txLen_le hn), chain_next]
    exact continues_done ..
  | _ => exact continues_done ..

theorem execRoleXmitdef_continues (target : Byte) (s : State) : Continues (execRoleXmitdef target s) := by
  unfold execRoleXmitdef
  cases gate target s <;> exact continues_done ..

theorem State.Inv.execFsmUpdate_continues (h : s.Inv) : Continues (execFsmUpdate s) := by
  obtain ⟨-, sent, -, -, -, -, -, -, hupdate⟩ := h.update
  exact ⟨_, hupdate⟩

/-! ### Every instruction, and every step -/

/-- From a good state every instruction goes on. -/
theorem State.Inv.exec_continues (h : s.Inv) (i : Instr) : Continues (exec i s) := by
  cases hw : i.isWire with
  | true =>
    obtain ⟨station, view, hdelivered⟩ := exec_isWire hw s
    exact ⟨_, hdelivered⟩
  | false =>
    cases i with
    | crcReset | crcUpdate | crcValue | roleAvail | cfgSetsilence | cfgSetsendback | cfgSettimeout | sysSoftreset | evAck
    | evSetmask => exact continues_done ..
    | cfgSetbaud => exact .ite (fun _ => continues_done ..) fun _ => continues_done ..
    | cfgSetstation =>
      exact .ite (fun _ => continues_done ..) fun _ => .ite (fun _ => continues_done ..) fun _ => continues_done ..
    | envApplycrc => exact h.withEnvelope_continues fun _ => continues_done ..
    | envVerifycrc => exact h.execEnvVerifycrc_continues _
    | envCreq | envCrsp | envCdiag => exact h.createEnvelope_continues _ _
    | plGetf => exact h.execPlGetf_continues _ _
    | plSetf => exact h.execPlSetf_continues _ _
    | plResize => exact h.execPlResize_continues _
    | plGetbit => exact h.execPlGetbit_continues _ _
    | plSetbit => exact h.execPlSetbit_continues _ _
    | plGetreg => exact h.execPlGetreg_continues _ _
    | plSetreg => exact h.execPlSetreg_continues _ _
    | plInsbitsH | plInsbitsT => exact h.insertElems_continues (fun _ => isVariable_of_isBits) _ _
    | plInsregsH | plInsregsT => exact h.insertElems_continues (fun _ => isVariable_of_isRegs) _ _
    | plRembitsH | plRembitsT => exact h.removeElems_continues (fun _ => isVariable_of_isBits) _ _
    | plRemregsH | plRemregsT => exact h.removeElems_continues (fun _ => isVariable_of_isRegs) _ _
    | fsmUpdate => exact h.execFsmUpdate_continues
    | roleXmit => exact h.execRoleXmit_continues _
    | roleXmitdef => exact execRoleXmitdef_continues _ _
    | sysRdbuf => exact h.execSysRdbuf_continues _ _
    | _ => cases hw

theorem State.Inv.runCommand_continues (h : s.Inv) (op : Byte) : Continues (runCommand op s) := by
  unfold runCommand
  split
  · exact h.exec_continues _
  · exact continues_done ..

theorem State.Inv.writePort_continues (h : s.Inv) {offset : Nat} (hr : registerAt offset ≠ none) (value : Word) :
    Continues (writePort offset value s) := by
  unfold writePort
  split
  · exact h.runCommand_continues _
  · exact continues_next _
  · exact absurd ‹_› hr

theorem readPort_continues {offset : Nat} (hr : registerAt offset ≠ none) (s : State) : Continues (readPort offset s) := by
  unfold readPort
  split
  · exact continues_next _
  · exact absurd ‹_› hr

/-- A step of an agent from a good state goes on, or is a host access at an offset without a register. -/
theorem State.Inv.perform_continues_or (h : s.Inv) (i : Input) : Continues (perform i s) ∨
    ∃ offset, registerAt offset = none ∧ (i = .read offset ∨ ∃ value, i = .write offset value) ∧
      perform i s = .fault (.noRegister offset) := by
  cases i with
  | tick n => exact .inl (continues_next _)
  | arrive b => exact .inl (continues_next _)
  | reset => exact .inl (continues_next _)
  | write offset value =>
    by_cases hr : registerAt offset = none
    · exact .inr ⟨offset, hr, .inr ⟨value, rfl⟩, writePort_none hr value s⟩
    · exact .inl (h.writePort_continues hr value)
  | read offset =>
    by_cases hr : registerAt offset = none
    · exact .inr ⟨offset, hr, .inl rfl, readPort_none hr s⟩
    · exact .inl (readPort_continues hr s)

/-- Settles O58: every guard of every command holds in a good state, and the host port alone can name no register. -/
theorem goodStatesNeverStop : Obligations.GoodStatesNeverStop := by
  intro s h
  refine ⟨h.exec_continues, ?_⟩
  cases hin : s.inputs with
  | nil => exact .inl ⟨s, by unfold step; rw [hin]⟩
  | cons i rest =>
    rw [step_cons hin]
    refine ((h.tookInput i rest).perform_continues_or i).imp_right fun ⟨offset, hr, hi, hfault⟩ => ⟨⟨offset, hr, ?_⟩, offset, hfault⟩
    simpa [hin] using hi

end Sys2Proof.Machine
end

section
/-! PROOFS. Phase 4 of an update (45_role_gate.md R341, R342): what it does in each case, and that in an idle state it is all that
an update does. -/

namespace Sys2Proof.Machine

variable {s : State}

/-! ### The three things the phase can do -/

theorem deferredTransmit_waits (h : ¬(s.txPending = true ∧ s.sendbackUs.toNat ≤ elapsed s.now s.lastActUs)) :
    deferredTransmit s = .next s := if_neg h

theorem deferredTransmit_drops (hp : s.txPending = true) (hq : s.sendbackUs.toNat ≤ elapsed s.now s.lastActUs)
    (hn : s.txVariant = .none) : deferredTransmit s = .next { s with txPending := false } := by
  unfold deferredTransmit
  rw [if_pos ⟨hp, hq⟩, if_pos hn]

theorem State.Inv.deferredTransmit_sends (h : s.Inv) (hp : s.txPending = true)
    (hq : s.sendbackUs.toNat ≤ elapsed s.now s.lastActUs) (hn : s.txVariant ≠ .none) :
    deferredTransmit s = .next (sentState s.pendingTarget { s with txPending := false }) := by
  unfold deferredTransmit
  rw [if_pos ⟨hp, hq⟩, if_neg hn]
  exact doXmit_eq (h.dropped.txLen_le hn) _

/-- A transmission leaves the station, the bytes of the PDU and their CRC. -/
theorem sentBuffer_sentBuf (station : Byte) {len : Nat} (h : 1 ≤ len) (m : Buf) :
    SentBuffer station len m (sentBuf station len m) := sentBuf_read m station h

/-- What the phase sends is the frame the envelope holds then, under the station of the role. -/
theorem State.Inv.deferredSent (h : s.Inv) (hn : s.txVariant ≠ .none) :
    DeferredSent s (sentState s.pendingTarget { s with txPending := false }) := by
  have hlen := h.three_le_txLen hn
  refine ⟨?_, fun hr => ?_, fun hr => ?_, sentBuffer_sentBuf _ (by omega) _⟩
  · simp [sentState, txGroup, aduBytes]
  · simp [sentState, hr]
  · simp [sentState, hr]

/-! ### An idle update -/

/-- While a transmission is pending no response is awaited, so none can time out (45_role_gate.md R341). -/
theorem State.Inv.responseTimeout_of_pending (h : s.Inv) (hp : s.txPending = true) : responseTimeout s = s := by
  rcases responseTimeout_cases s with ⟨hkeeps, -⟩ | ⟨hr, hawaiting, -, -⟩
  · exact hkeeps
  · obtain ⟨master, -⟩ := State.gatesOk_iff.1 h.gates
    obtain ⟨-, -, -, hfree⟩ := master hr
    rw [hfree hp] at hawaiting
    cases hawaiting

/-- With nothing to drain, no frame begun and a transmission pending, an update is its phase 4. -/
theorem State.Inv.execFsmUpdate_idle (h : s.Inv) (hq : s.rxq = []) (hst : s.rxState = .waitStation) (hp : s.txPending = true)
    {t : State} (ht : deferredTransmit s = .next t) : exec .fsmUpdate s = .next (t.returning .ok 0) := by
  have hcap := h.cap_ge
  have hend : endCheck s = .next s := if_pos hst
  show execFsmUpdate s = _
  unfold execFsmUpdate
  rw [within_of_le (by omega), drain_of_empty hq, hend, chain_next, h.responseTimeout_of_pending hp, ht]
  rfl

/-- Settles O46: the quiet time decides between waiting and the rest, and the envelope between dropping and sending. -/
theorem deferredFrameWaitsForTheGap : Obligations.DeferredFrameWaitsForTheGap := by
  intro s quiet h hquiet
  rw [← elapsed_eq_mod] at hquiet
  subst hquiet
  have hearly : elapsed s.now s.lastActUs < s.sendbackUs.toNat → deferredTransmit s = .next s :=
    fun hlt => deferredTransmit_waits fun hc => Nat.not_le_of_lt hlt hc.2
  refine ⟨fun hp => deferredTransmit_waits (by simp [hp]), fun _ => hearly, deferredTransmit_drops,
    fun hp hle hn => ⟨_, h.deferredTransmit_sends hp hle hn, h.deferredSent hn⟩, fun hq hst hp => ?_⟩
  have hidle {t : State} := h.execFsmUpdate_idle hq hst hp (t := t)
  exact ⟨fun hlt => hidle (hearly hlt), fun hle hn => hidle (deferredTransmit_drops hp hle hn),
    fun hle hn => ⟨_, hidle (h.deferredTransmit_sends hp hle hn), h.deferredSent hn⟩⟩

end Sys2Proof.Machine
end

section
/-! PROOFS. The two encodings (30_encoding.md): decoding and encoding invert each other, a command is read from its listed
operand bits, and the unsupported function codes are the listed ones. -/

namespace Sys2Proof.Machine

/-! ### Decoding an encoding -/

@[simp] theorem selOfBit0_of_word (sel : Sel) : selOfBit0 sel.word = sel := by cases sel <;> rfl

/-- The bit operand of PL.SETBIT as a word has the bit in its bit 0. -/
@[simp] theorem getElem_zero_ite (b : Bool) : (if b then 1#32 else 0#32)[0] = b := by cases b <;> rfl

/-- The words a command encodes its operands to hold them where its row of the command table reads them. -/
theorem decode_encode_of_command {i : Instr} (h : i.isWire = false) : decode (encode i) = .ok i := by
  cases i with
  | rdcoilsReq | rddiscReq | rdholdReq | rdinputReq | rdcoilsRsp | rddiscRsp | rdholdRsp | rdinputRsp
  | wrcoilReq | wrcoilRsp | wrregReq | wrregRsp | wrcoilsReq | wrcoilsRsp | wrregsReq | wrregsRsp
  | diagRsp => cases h
  | _ => simp [encode, decode, decodeCommand, commandTable, BitVec.setWidth_setWidth_of_le]

/-- Settles O2: a wire form is a frame's instruction, and a command's operands stand where its row reads them. -/
theorem decodeInvertsEncode : Obligations.DecodeInvertsEncode := by
  intro i
  cases h : i.isWire with
  | true =>
    obtain ⟨f, rfl⟩ := exists_frame_of_isWire h
    exact decode_frame f
  | false => exact decode_encode_of_command h

theorem encode_injective : Function.Injective encode := fun i j h => by
  have hdec := congrArg decode h
  rw [decodeInvertsEncode i, decodeInvertsEncode j] at hdec
  exact Except.ok.inj hdec

/-- Settles O3: the decoder checks every byte of the frame, and the instruction keeps them all. -/
theorem acceptedFrameIsItsOwnEncoding : Obligations.AcceptedFrameIsItsOwnEncoding := by
  intro isResponse bytes i h
  obtain ⟨f, hf, rfl⟩ := decode_adu_eq_ok h
  obtain ⟨hbytes, hdir⟩ := bytes_of_decodeFrame hf
  rw [encode_toInstr, hbytes, hdir]

/-- A code is decoded to the instruction that encodes to it. -/
theorem decode_of_encode_eq {i : Instr} {c : Code} (h : encode i = c) : decode c = .ok i := h ▸ decodeInvertsEncode i

/-- Settles O1: the four frames are what their instructions encode to, CRC included; the three triples are looked up. -/
theorem decodesTheSpecsExampleWords : Obligations.DecodesTheSpecsExampleWords := by
  refine ⟨decode_of_encode_eq ?_, decode_of_encode_eq ?_, decode_of_encode_eq ?_, decode_of_encode_eq ?_,
    by decide, by decide, by decide⟩ <;>
    simp [encode, wireCode, WireForm.isResponse, WireForm.code, BaseFc.code, Frame.bytes, crcBytes, crc16, crcStep, crcShifts,
      crcShift, lo, hi]

/-! ### The operand bits of a command -/

/-- Each field of a row keeps exactly the bits its mask lists (30_encoding.md R112). -/
theorem encode_build : ∀ r ∈ commandTable, ∀ arg0 arg1 : Word, encode (r.build arg0 arg1) =
    .command r.op (arg0 &&& (operandBits r.op).1) (arg1 &&& (operandBits r.op).2) := by
  have field2 := setWidth_setWidth_eq_and (n := 2) (m := 0x3#32) (by decide)
  have field4 := setWidth_setWidth_eq_and (n := 4) (m := 0xF#32) (by decide)
  have field8 := setWidth_setWidth_eq_and (n := 8) (m := 0xFF#32) (by decide)
  have field16 := setWidth_setWidth_eq_and (n := 16) (m := 0xFFFF#32) (by decide)
  have bit (w : Word) : (if w[0] then 1#32 else 0#32) = w &&& 1#32 := bit0_eq_and w
  have field32 (w : Word) : w &&& 0xFFFFFFFF#32 = w := BitVec.and_allOnes
  simp only [commandTable, List.forall_mem_append, List.forall_mem_cons]
  simp [encode, operandBits, field2, field4, field8, field16, field32, selOfBit0_word, bit]

/-- Settles O4: the encoding keeps the listed bits alone, and encodings name their instructions. -/
theorem commandDecodeReadsExactlyTheListedBits : Obligations.CommandDecodeReadsExactlyTheListedBits := by
  intro op arg0 arg1 i h
  obtain ⟨r, hr, rfl, rfl, hrow⟩ := decodeCommand_eq_ok h
  refine ⟨encode_build r hr arg0 arg1, fun b0 b1 h0 h1 => ?_⟩
  have hsame : r.build b0 b1 = r.build arg0 arg1 :=
    encode_injective (by rw [encode_build r hr, encode_build r hr, h0, h1])
  rw [hrow, hsame]

/-! ### Unsupported function codes -/

theorem variantOf_eq_none_iff (fc : Byte) (isResponse : Bool) :
    variantOf fc isResponse = .none ↔ wireFormOf fc isResponse = none := by
  unfold variantOf
  cases wireFormOf fc isResponse with
  | none => simp
  | some f => cases f <;> simp [WireForm.variant]

/-- The codes 30_encoding.md R109 lists are those that select no wire form (R103). -/
theorem unsupportedCode_eq_isNone :
    ∀ (fc : Byte) (isResponse : Bool), unsupportedCode fc isResponse = (wireFormOf fc isResponse).isNone := by decide

theorem wireFormOf_eq_none_iff (fc : Byte) (isResponse : Bool) :
    wireFormOf fc isResponse = none ↔ unsupportedCode fc isResponse = true := by
  rw [unsupportedCode_eq_isNone, Option.isNone_iff_eq_none]

theorem ofByte_of_wireFormOf_none {fc : Byte} {isResponse : Bool} (h : wireFormOf fc isResponse = none) :
    BaseFc.ofByte fc = none := by
  unfold wireFormOf at h
  split at h
  · cases h
  · assumption

/-- No member of `SUPPORTED` has bit 7 set (30_encoding.md R108). -/
theorem ofByte_of_ge {fc : Byte} (h : 0x80 ≤ fc.toNat) : BaseFc.ofByte fc = none := by
  cases hb : BaseFc.ofByte fc with
  | none => rfl
  | some b =>
    have hlt : b.code.toNat < 0x80 := by cases b <;> decide
    rw [BaseFc.code_of_ofByte hb] at hlt
    omega

theorem createVariant_of_ofByte_none {fc : Byte} (h : BaseFc.ofByte fc = none) (isResponse : Bool) :
    createVariant fc isResponse = .none := by
  simp [createVariant, h]

/-- The refusal of a create command (42_pdu_create_encode.md R213). -/
theorem createEnvelope_none (fcb : Byte) (s : State) : createEnvelope .none fcb s = .next
    { s with txBuf := [], txVariant := .none, txLen := 0, txVq := 0, result := .unsupported, rdata := 0 } := rfl

/-- Settles O6: a listed code selects no wire form, so decode finds none and every create command refuses it. -/
theorem unsupportedCodesAreExactlyTheListedOnes : Obligations.UnsupportedCodesAreExactlyTheListedOnes := by
  have hbase {fc : Byte} {isResponse : Bool} (h : unsupportedCode fc isResponse = true) : BaseFc.ofByte fc = none :=
    ofByte_of_wireFormOf_none ((wireFormOf_eq_none_iff fc isResponse).2 h)
  refine ⟨fun fc dir => (variantOf_eq_none_iff fc dir).trans (wireFormOf_eq_none_iff fc dir),
    fun fc dir p => (pduDecode_unsupported_iff fc dir p).trans (wireFormOf_eq_none_iff fc dir),
    fun fc dir p h => pduDecode_none ((wireFormOf_eq_none_iff fc dir).2 h) p,
    fun fc s h => ?creq, fun fc s h => ?crsp, fun fc s h => ?cdiag⟩
  case creq =>
    show createEnvelope (createVariant fc false) fc s = _
    rw [createVariant_of_ofByte_none (hbase h), createEnvelope_none]
  case crsp =>
    show createEnvelope (createVariant fc true) fc s = _
    rw [createVariant_of_ofByte_none (h.elim hbase ofByte_of_ge), createEnvelope_none]
  case cdiag =>
    show execEnvCdiag fc s = _
    simp only [execEnvCdiag, hbase h, createEnvelope_none]

end Sys2Proof.Machine
end

section
/-! PROOFS. The accumulator, and the CRC of the envelope and of the received frame (40_crc_and_envelope.md). -/

namespace Sys2Proof

/-- The CRC of bytes followed by their own CRC bytes is 0. -/
theorem crc16_append_crcBytes (bytes : List Byte) : crc16 (bytes ++ crcBytes bytes) = 0 := by
  rw [crc16, List.foldl_append]
  exact foldl_own_crc (crc16 bytes)

/-- An injective map of the finite set of accumulators reaches all of them. -/
theorem crcStep_bijective (b : Byte) : Function.Bijective fun c : Half => crcStep c b :=
  Finite.injective_iff_bijective.1 (crcStep_injective b)

end Sys2Proof

namespace Sys2Proof.Machine

variable {s : State}

/-- Settles O13: folding a byte is linear with kernel 0, and a frame's own CRC cancels it. -/
theorem crcStepIsBijectiveAndACheckedFrameHasCrcZero : Obligations.CrcStepIsBijectiveAndACheckedFrameHasCrcZero :=
  ⟨crcStep_bijective, fun c _ _ => crcStep_byte_injective c, crc16_append_crcBytes⟩

/-! ### ENV.APPLYCRC -/

/-- ENV.APPLYCRC on an envelope inside CAP. -/
theorem execEnvApplycrc_eq (hv : s.txVariant ≠ .none) (hl : s.txLen + 2 ≤ s.params.cap) :
    execEnvApplycrc s =
      .next { s with txBuf := applyCrc s.txBuf s.txLen, result := .ok, rdata := (envelopeCrc s).setWidth 32 } :=
  withEnvelope_some hv hl _

/-- ENV.APPLYCRC under an envelope completes only inside CAP. -/
theorem txLen_le_of_execEnvApplycrc {t : State} (hv : s.txVariant ≠ .none) (h : execEnvApplycrc s = .next t) :
    s.txLen + 2 ≤ s.params.cap := by
  rcases withEnvelope_eq_next h with ⟨hn, -⟩ | ⟨-, hl, -⟩
  · exact absurd hn hv
  · exact hl

/-- Settles O14: the two bytes are those `applyCrc` writes. -/
theorem applyCrcWritesTheCrcAfterThePdu : Obligations.ApplyCrcWritesTheCrcAfterThePdu := by
  refine fun s => ⟨fun hn => withEnvelope_none hn _, fun hv hl => ⟨_, execEnvApplycrc_eq hv hl, ?_, applyCrc_read _ _⟩⟩
  rw [BitVec.ofNat_toNat]
  rfl

/-! ### ENV.VERIFYCRC -/

/-- ENV.VERIFYCRC RX on an ended frame inside CAP. -/
theorem execEnvVerifycrc_rx (hst : s.rxState = .waitStation) (h4 : 4 ≤ s.rxLen) (hl : s.rxLen ≤ s.params.cap) :
    execEnvVerifycrc .rx s =
      .next (s.returning .ok (if crcMatches s.rxBuf (s.rxLen - 2) then 1 else 0)) := by
  unfold execEnvVerifycrc
  rw [if_neg (by simp [hst]; omega), within_of_le hl]
  rfl

/-- Settles O15: the comparison of `crcMatches`, byte by byte. -/
theorem verifyCrcComparesTheTrailingBytes : Obligations.VerifyCrcComparesTheTrailingBytes := by
  refine fun s => ⟨fun hn => if_pos hn, fun hst h4 hl => ?rx, fun hn => withEnvelope_none hn _, fun hv hl => ?tx⟩
  case rx =>
    show execEnvVerifycrc .rx s = _
    simp only [execEnvVerifycrc_rx hst h4 hl, crcMatches_iff, show s.rxLen - 2 + 1 = s.rxLen - 1 by omega]
  case tx =>
    show execEnvVerifycrc .tx s = _
    simp only [execEnvVerifycrc_tx hv hl, crcMatches_iff]
    rfl

/-! ### An inverted bit -/

/-- A slice around one of its bytes. -/
theorem Buf.slice_split (m : Buf) {a n : Nat} (h : a < n) :
    m.slice 0 n = m.slice 0 a ++ m.read a :: m.slice (a + 1) (n - a - 1) := by
  obtain ⟨k, rfl⟩ : ∃ k, n = a + (k + 1) := ⟨n - a - 1, by omega⟩
  rw [Buf.slice_add, Nat.zero_add, Buf.slice_succ]
  congr 3
  omega

/-- Writing another byte inside a span changes its CRC. -/
theorem crc16_slice_write_ne (m : Buf) {a n : Nat} {b : Byte} (h : a < n) (hb : b ≠ m.read a) :
    crc16 ((m.write a b).slice 0 n) ≠ crc16 (m.slice 0 n) := by
  have hpre : (m.write a b).slice 0 a = m.slice 0 a :=
    Buf.slice_congr fun c _ hc => by rw [Buf.read_write, if_neg (by omega)]
  have hpost : (m.write a b).slice (a + 1) (n - a - 1) = m.slice (a + 1) (n - a - 1) :=
    Buf.slice_congr fun c hc _ => by rw [Buf.read_write, if_neg (by omega)]
  rw [Buf.slice_split _ h, Buf.slice_split m h, hpre, hpost, Buf.read_write, if_pos rfl]
  exact crc16_ne_of_byte_ne _ _ hb

/-- The CRC of a whole ADU that verifies is 0. -/
theorem crc16_slice_of_crcMatches {m : Buf} {len : Nat} (h : crcMatches m len = true) : crc16 (m.slice 0 (len + 2)) = 0 := by
  have htail : m.slice len 2 = crcBytes (m.slice 0 len) := by simpa [crcMatches] using h
  rw [Buf.slice_add, Nat.zero_add, htail, crc16_append_crcBytes]

/-- An ADU that verifies no longer does once one of its bytes, CRC included, is another: both would have the CRC 0. -/
theorem crcMatches_write_of_ne {m : Buf} {len a : Nat} {b : Byte} (h : crcMatches m len = true) (ha : a < len + 2)
    (hb : b ≠ m.read a) : crcMatches (m.write a b) len = false :=
  Bool.eq_false_iff.2 fun hm =>
    crc16_slice_write_ne m ha hb ((crc16_slice_of_crcMatches hm).trans (crc16_slice_of_crcMatches h).symm)

theorem xor_bit_ne (v : Byte) {j : Nat} (h : j < 8) : v ^^^ (1#8 <<< j) ≠ v := by
  intro he
  have hbit := congrArg (fun w : Byte => w.getLsbD j) he
  simp [h] at hbit

/-- Settles O16: the applied CRC makes the CRC of the whole ADU 0, and no change of one byte keeps it. -/
theorem verifyDetectsEveryInvertedBit : Obligations.VerifyDetectsEveryInvertedBit := by
  intro s t hv (ht : execEnvApplycrc s = .next t)
  have hl := txLen_le_of_execEnvApplycrc hv ht
  rw [execEnvApplycrc_eq hv hl] at ht
  obtain rfl := Host.Outcome.next.inj ht
  have hm := crcMatches_applyCrc s.txBuf s.txLen
  refine ⟨⟨_, execEnvVerifycrc_tx hv hl, rfl, if_pos hm⟩, fun a j ha hj => ⟨_, execEnvVerifycrc_tx hv hl, rfl, ?_⟩⟩
  exact if_neg (Bool.eq_false_iff.1 (crcMatches_write_of_ne hm ha (xor_bit_ne _ hj)))

/-! ### The accumulator -/

/-- Settles O12: each command is one assignment, and `arg0`'s low byte is the operand of CRC.UPDATE. -/
theorem accumulatorCommands : Obligations.AccumulatorCommands := by
  refine fun s b => ⟨rfl, rfl, fun arg0 arg1 => ?update, ?value⟩
  case update =>
    rw [← BitVec.setWidth_eq_extractLsb' (by decide)]
    rfl
  case value =>
    rw [BitVec.ofNat_toNat]
    rfl

end Sys2Proof.Machine
end

section
/-! PROOFS. `PDU.DECODE` (41_pdu_decode.md): what each wire form delivers, that every element of a view lies inside the payload,
and that an encoding decodes to what was encoded. -/

namespace Sys2Proof.Machine

/-! ### The decode of a layout -/

/-- Wire forms that share a variant decode identically (41_pdu_decode.md R171). -/
def viewOf (v : Variant) (p : List Byte) : View :=
  match v with
  | .rsBits => viewRsBits p
  | .rsRegs => viewRsRegs p
  | .rqWbits => viewRqWbits p
  | .rqWregs => viewRqWregs p
  | .none | .rqRead | .rwSingle | .rsWmulti | .diag => viewFixed v (v.initLen - 2) p

theorem formView_eq_viewOf (f : WireForm) (p : List Byte) : formView f p = viewOf f.variant p := by cases f <;> rfl

theorem pduDecode_eq_viewOf {fc : Byte} {isResponse : Bool} (h : variantOf fc isResponse ≠ .none) (p : List Byte) :
    pduDecode fc isResponse p = viewOf (variantOf fc isResponse) p := by
  cases hw : wireFormOf fc isResponse with
  | none => exact absurd ((variantOf_eq_none_iff _ _).2 hw) h
  | some f => rw [pduDecode_some hw, formView_eq_viewOf, variantOf, hw]

theorem viewOf_of_isVariable_false {v : Variant} (hv : isVariable v = false) (p : List Byte) :
    viewOf v p = viewFixed v (v.initLen - 2) p := by
  cases v with
  | rsBits | rsRegs | rqWbits | rqWregs => cases hv
  | _ => rfl

/-! ### What each wire form delivers -/

theorem exec_toInstr (f : Frame) (s : State) :
    exec f.toInstr s = .next (s.delivering f.station (viewOf f.form.variant f.payload)) := by
  rw [← runFrame_eq_exec, runFrame_eq, deliver_eq_delivering, formView_eq_viewOf]

theorem viewRsBits_eq (p : List Byte) : viewRsBits p =
    if p.length < 1 then viewShort .rsBits
    else
      { variant := .rsBits
        status := countedStatus (p.length - 1) (p.getD 0 0).toNat false
        bc := p.getD 0 0
        vq := BitVec.ofNat 16 (8 * min (p.getD 0 0).toNat (p.length - 1)) } := by
  cases p <;> rfl

theorem viewRsRegs_eq (p : List Byte) : viewRsRegs p =
    if p.length < 1 then viewShort .rsRegs
    else
      { variant := .rsRegs
        status := countedStatus (p.length - 1) (p.getD 0 0).toNat ((p.getD 0 0).toNat % 2 == 1)
        bc := p.getD 0 0
        vq := BitVec.ofNat 16 (min (p.getD 0 0).toNat (p.length - 1) / 2) } := by
  cases p <;> rfl

/-- Settles O17: both forms of each kind have the view of its variant. -/
theorem readResponsesAreDelivered : Obligations.ReadResponsesAreDelivered := by
  rintro station p s i bc avail rfl rfl
  refine ⟨fun hi => ?bits, fun hi => ?regs⟩
  case bits =>
    have hexec : exec i s = .next (s.delivering station (viewRsBits p)) := by
      simp only [List.mem_cons, List.not_mem_nil, or_false] at hi
      rcases hi with rfl | rfl
      · exact exec_toInstr ⟨.rdcoilsRsp, station, p⟩ s
      · exact exec_toInstr ⟨.rddiscRsp, station, p⟩ s
    rw [hexec, viewRsBits_eq]
    rfl
  case regs =>
    have hexec : exec i s = .next (s.delivering station (viewRsRegs p)) := by
      simp only [List.mem_cons, List.not_mem_nil, or_false] at hi
      rcases hi with rfl | rfl
      · exact exec_toInstr ⟨.rdholdRsp, station, p⟩ s
      · exact exec_toInstr ⟨.rdinputRsp, station, p⟩ s
    rw [hexec, viewRsRegs_eq]
    simp [countedStatus, viewShort]

/-- Settles O18: every form without a values region has the view of a fixed length. -/
theorem fixedLengthFormsAreDelivered : Obligations.FixedLengthFormsAreDelivered := by
  intro station p s i variant want h
  simp only [List.mem_cons, List.not_mem_nil, or_false] at h
  rcases h with ⟨hi, rfl, rfl⟩ | ⟨hi, rfl, rfl⟩ | ⟨hi, rfl, rfl⟩ | ⟨⟨base, rfl⟩, rfl, rfl⟩
  · rcases hi with rfl | rfl | rfl | rfl
    · exact exec_toInstr ⟨.rdcoilsReq, station, p⟩ s
    · exact exec_toInstr ⟨.rddiscReq, station, p⟩ s
    · exact exec_toInstr ⟨.rdholdReq, station, p⟩ s
    · exact exec_toInstr ⟨.rdinputReq, station, p⟩ s
  · rcases hi with rfl | rfl | rfl | rfl
    · exact exec_toInstr ⟨.wrcoilReq, station, p⟩ s
    · exact exec_toInstr ⟨.wrcoilRsp, station, p⟩ s
    · exact exec_toInstr ⟨.wrregReq, station, p⟩ s
    · exact exec_toInstr ⟨.wrregRsp, station, p⟩ s
  · rcases hi with rfl | rfl
    · exact exec_toInstr ⟨.wrcoilsRsp, station, p⟩ s
    · exact exec_toInstr ⟨.wrregsRsp, station, p⟩ s
  · exact exec_toInstr ⟨.diagRsp base, station, p⟩ s

/-- Settles O19: the two views, with the quantity read high byte first. -/
theorem writeMultipleRequestsAreDelivered : Obligations.WriteMultipleRequestsAreDelivered := by
  rintro station p s qty bc avail rfl rfl rfl
  refine ⟨(exec_toInstr ⟨.wrcoilsReq, station, p⟩ s).trans (congrArg _ (congrArg _ ?bits)),
    (exec_toInstr ⟨.wrregsReq, station, p⟩ s).trans (congrArg _ (congrArg _ ?regs))⟩
  case bits =>
    show viewRqWbits p = _
    unfold viewRqWbits
    split <;> simp [countedStatus, viewShort, toNat_ofHiLo, cdiv8]
  case regs =>
    show viewRqWregs p = _
    unfold viewRqWregs
    split <;> simp [countedStatus, viewShort, toNat_ofHiLo]

/-! ### The elements of a view -/

/-- `hdr` of 41_pdu_decode.md R191: a values region starts at ADU offset 3 in a response, at 7 in a request. -/
theorem valOff_of_form {f : WireForm} (h : isVariable f.variant = true) :
    valOff f.variant - 2 = if f.isResponse then 1 else 5 := by
  cases f with
  | diagRsp base => cases h
  | _ => revert h; decide

/-- Settles O20: the region of a view lies inside the payload, and the element inside the region. -/
theorem decodedElementsLieInsideThePayload : Obligations.DecodedElementsLieInsideThePayload := by
  intro fc isResponse p i hi
  cases hw : wireFormOf fc isResponse with
  | none => simp [pduDecode_none hw] at hi
  | some f =>
    rw [pduDecode_some hw] at hi ⊢
    rw [formView_variant]
    obtain ⟨-, rfl⟩ := code_of_wireFormOf hw
    rcases formView_region f p with h0 | ⟨hv, hregion⟩
    · omega
    · rw [valOff_of_form hv] at hregion
      refine ⟨hv, fun hb => ?_, fun hr => ?_⟩
      · have := bit_end_le_storageBytes hb hi
        omega
      · have := reg_end_le_storageBytes hr hi
        omega

/-! ### Payloads whose lengths and counts agree -/

/-- A layout without a values region, at its length. -/
theorem pduDecode_fixed {fc : Byte} {isResponse : Bool} {v : Variant} (h : variantOf fc isResponse = v) (hn : v ≠ .none)
    (hv : isVariable v = false) {p : List Byte} (hp : p.length = v.initLen - 2) :
    pduDecode fc isResponse p = { variant := v, status := .ok, bc := 0, vq := 0 } := by
  rw [pduDecode_eq_viewOf (h ▸ hn), h, viewOf_of_isVariable_false hv]
  simp [viewFixed, lengthStatus, hp]

/-- A values region of `q` elements, at the length its byteCount says, with the byteCount and the quantity its elements imply. -/
theorem pduDecode_counted {fc : Byte} {isResponse : Bool} {v : Variant} (h : variantOf fc isResponse = v)
    (hv : isVariable v = true) {m : Buf} {q n : Nat} (hbc : (m.read (valOff v - 1)).toNat = storageBytes v q)
    (hqty : isWriteMultiple v = true → m.read16 4 = BitVec.ofNat 16 q) (hn : n + 2 = valOff v + storageBytes v q) :
    pduDecode fc isResponse (m.slice 2 n) =
      { variant := v
        status := .ok
        bc := m.read (valOff v - 1)
        vq := if v = .rsBits then BitVec.ofNat 16 (8 * cdiv8 q) else BitVec.ofNat 16 q } := by
  have hlt := (m.read (valOff v - 1)).isLt
  rw [pduDecode_eq_viewOf (h ▸ ne_none_of_isVariable hv), h]
  clear h
  cases v with
  | none | rqRead | rwSingle | rsWmulti | diag => cases hv
  | rsBits =>
    obtain rfl : n = cdiv8 q + 1 := by change n + 2 = 3 + cdiv8 q at hn; omega
    change (m.read 2).toNat = cdiv8 q at hbc
    simp [Buf.slice_succ, viewOf, viewRsBits, valOff, countedStatus, hbc]
  | rsRegs =>
    obtain rfl : n = 2 * q + 1 := by change n + 2 = 3 + 2 * q at hn; omega
    change (m.read 2).toNat = 2 * q at hbc
    simp [Buf.slice_succ, viewOf, viewRsRegs, valOff, countedStatus, hbc]
  | rqWbits =>
    obtain rfl : n = cdiv8 q + 5 := by change n + 2 = 7 + cdiv8 q at hn; omega
    change (m.read 6).toNat = cdiv8 q at hbc
    change (m.read 6).toNat < 256 at hlt
    have hq : q ≤ 8 * cdiv8 q := by unfold cdiv8; omega
    have hqty : (ofHiLo (m.read 4) (m.read 5)).toNat = q := by
      rw [show ofHiLo (m.read 4) (m.read 5) = _ from hqty rfl, toNat_ofNat_16 (by omega)]
    simp [Buf.slice_succ, viewOf, viewRqWbits, valOff, countedStatus, hbc, hqty, hq]
  | rqWregs =>
    obtain rfl : n = 2 * q + 5 := by change n + 2 = 7 + 2 * q at hn; omega
    change (m.read 6).toNat = 2 * q at hbc
    change (m.read 6).toNat < 256 at hlt
    have hqty : (ofHiLo (m.read 4) (m.read 5)).toNat = q := by
      rw [show ofHiLo (m.read 4) (m.read 5) = _ from hqty rfl, toNat_ofNat_16 (by omega)]
    simp [Buf.slice_succ, viewOf, viewRqWregs, valOff, countedStatus, hbc, hqty]

/-- Settles O33: the counts of a good envelope agree. -/
theorem envelopeDecodesOkInItsOwnDirection : Obligations.EnvelopeDecodesOkInItsOwnDirection := by
  intro s isResponse h hn hdir
  cases hv : isVariable s.txVariant with
  | false =>
    obtain ⟨hlen, hvq⟩ := h.fixed hn hv
    have hbits : s.txVariant ≠ .rsBits := fun e => by rw [e] at hv; cases hv
    rw [pduDecode_fixed hdir hn hv (by rw [Buf.length_slice, hlen])]
    simp [hbits, hvq]
  | true =>
    obtain ⟨hbc, hlen, hqty, -⟩ := h.region hv
    have h3 := h.three_le_txLen hn
    rw [pduDecode_counted hdir hv hbc (fun hw => by rw [hqty hw, BitVec.ofNat_toNat, BitVec.setWidth_eq]) (by omega)]
    simp

/-! ### The bytes of an encoding in a buffer -/

/-- The bytes `bs` stand in the buffer from offset `a`. -/
def Holds (m : Buf) (a : Nat) (bs : List Byte) : Prop := m.slice a bs.length = bs

theorem holds_cons {m : Buf} {a : Nat} {b : Byte} {bs : List Byte} :
    Holds m a (b :: bs) ↔ m.read a = b ∧ Holds m (a + 1) bs := by
  simp [Holds, Buf.slice_succ]

/-- A 16-bit field, then the bytes after it. -/
theorem holds_field {m : Buf} {a : Nat} {v : Half} {bs : List Byte} :
    Holds m a (fieldBytes v ++ bs) ↔ m.read16 a = v ∧ Holds m (a + 2) bs := by
  rw [fieldBytes, List.cons_append, List.cons_append, List.nil_append, holds_cons, holds_cons, ← and_assoc]
  refine and_congr_left fun _ => ⟨fun ⟨h, h'⟩ => by rw [Buf.read16, h, h', ofHiLo_hi_lo], ?_⟩
  rintro rfl
  rw [Buf.read16, hi_ofHiLo, lo_ofHiLo]
  exact ⟨rfl, rfl⟩

/-- Two 16-bit fields after the function code. -/
theorem holds_fields {m : Buf} {c : Byte} {v w : Half} (h : Holds m 1 (c :: (fieldBytes v ++ fieldBytes w))) :
    m.read 1 = c ∧ m.read16 2 = v ∧ m.read16 4 = w := by
  rw [← List.append_nil (fieldBytes w), holds_cons, holds_field, holds_field] at h
  exact ⟨h.1, h.2.1, h.2.2.1⟩

/-- The elements of packed bits, read back from the values region. -/
theorem elems_of_holds_packBits {m : Buf} {v : Variant} (hb : isBits v = true) {bits : List Bool}
    (h : Holds m (valOff v) (packBits bits)) : elems m v bits.length = bitElems bits := by
  have hlen := length_packElems v (bitElems bits)
  rw [packElems_bitElems hb] at hlen
  rw [← length_bitElems bits]
  refine elems_of_slice (elementList_bitElems v bits) ?_
  rw [packElems_bitElems hb, ← hlen]
  exact h

/-- The elements of packed registers, read back from the values region. -/
theorem elems_of_holds_packRegs {m : Buf} {v : Variant} (hr : isRegs v = true) {regs : List Half}
    (h : Holds m (valOff v) (packRegs regs)) : elems m v regs.length = regs := by
  have hb := isBits_eq_false_of_isRegs hr
  have hp : packElems v regs = packRegs regs := by simp [packElems, hb]
  refine elems_of_slice (fun hb' => absurd hb' (by simp [hb])) ?_
  rw [← length_packElems, hp]
  exact h

/-! ### Encode, then decode -/

theorem variantOf_of_contains {fcs : List BaseFc} {isResponse : Bool} {v : Variant}
    (hall : ∀ fc ∈ fcs, variantOf fc.code isResponse = v) {fc : BaseFc} (h : fcs.contains fc = true) :
    variantOf fc.code isResponse = v := hall fc (List.contains_iff_mem.1 h)

theorem variantOf_diag (base : BaseFc) : variantOf (base.code ||| 0x80#8) true = .diag := by cases base <;> decide

/-- An encoding of two 16-bit fields is read back. -/
theorem readsBack_fields {m : Buf} {c : Byte} {a b : Half} {isResponse : Bool} {v : Variant} (hvar : variantOf c isResponse = v)
    (hn : v ≠ .none) (hv : isVariable v = false) (hlen : v.initLen = 6) (h : Holds m 1 (c :: (fieldBytes a ++ fieldBytes b))) :
    pduDecode (m.read 1) isResponse (m.slice 2 4) = { variant := v, status := .ok, bc := 0, vq := 0 } ∧
      m.read16 2 = a ∧ m.read16 4 = b := by
  obtain ⟨hcode, hfields⟩ := holds_fields h
  exact ⟨pduDecode_fixed (hcode ▸ hvar) hn hv (by simp [hlen]), hfields⟩

/-- An encoding of a values region decodes to its counts, where its byteCount is a byte. -/
theorem pduDecode_encoded {m : Buf} {c : Byte} {isResponse : Bool} {v : Variant} {q n : Nat} (hvar : variantOf c isResponse = v)
    (hv : isVariable v = true) (hlt : storageBytes v q < 256) (hcode : m.read 1 = c)
    (hbc : m.read (valOff v - 1) = BitVec.ofNat 8 (storageBytes v q))
    (hqty : isWriteMultiple v = true → m.read16 4 = BitVec.ofNat 16 q) (hn : n + 2 = valOff v + storageBytes v q) :
    pduDecode (m.read 1) isResponse (m.slice 2 n) =
      { variant := v
        status := .ok
        bc := BitVec.ofNat 8 (storageBytes v q)
        vq := if v = .rsBits then BitVec.ofNat 16 (8 * cdiv8 q) else BitVec.ofNat 16 q } := by
  rw [pduDecode_counted (hcode ▸ hvar) hv (by rw [hbc, toNat_ofNat_8 hlt]) hqty hn, hbc]

/-- The longest bit list 42_pdu_create_encode.md R215 admits packs into as many bytes as a byteCount can say. -/
theorem cdiv8_lt {q : Nat} (h : q ≤ 2040) : cdiv8 q < 256 := by unfold cdiv8; omega

/-- Settles O21: layout by layout, the fields stand where the encoding put them and its counts agree. -/
theorem decodeOfEncodeReturnsThePayload : Obligations.DecodeOfEncodeReturnsThePayload := by
  intro pl m hvalid (h : Holds m 1 (pduEncode pl))
  cases pl with
  | readReq fc addr qty =>
    exact ⟨false, rfl, readsBack_fields (variantOf_of_contains (by decide) hvalid) (by decide) rfl rfl h⟩
  | single fc addr value =>
    exact ⟨false, readsBack_fields (variantOf_of_contains (by decide) hvalid) (by decide) rfl rfl h⟩
  | wMultiRsp fc addr qty =>
    exact ⟨true, rfl, readsBack_fields (variantOf_of_contains (by decide) hvalid) (by decide) rfl rfl h⟩
  | diag base code =>
    simp only [pduEncode, holds_cons] at h
    obtain ⟨hcode, hdiag, -⟩ := h
    exact ⟨true, rfl, pduDecode_fixed (hcode ▸ variantOf_diag base) (by decide) rfl rfl, hdiag⟩
  | bitsRsp fc bits =>
    obtain ⟨hfc, hmax⟩ := (Bool.and_eq_true ..).mp hvalid
    simp only [pduEncode, holds_cons] at h
    obtain ⟨hcode, hbc, hvals⟩ := h
    exact ⟨true, rfl,
      pduDecode_encoded (v := .rsBits) (variantOf_of_contains (by decide) hfc) rfl (cdiv8_lt (of_decide_eq_true hmax)) hcode hbc
        (fun hw => nomatch hw) (by simp +arith [pduEncode, storageBytes, valOff, isBits]),
      elems_of_holds_packBits rfl hvals⟩
  | regsRsp fc regs =>
    obtain ⟨hfc, hmax⟩ := (Bool.and_eq_true ..).mp hvalid
    have hmax := of_decide_eq_true hmax
    simp only [pduEncode, holds_cons] at h
    obtain ⟨hcode, hbc, hvals⟩ := h
    exact ⟨true, rfl,
      pduDecode_encoded (v := .rsRegs) (variantOf_of_contains (by decide) hfc) rfl (show 2 * regs.length < 256 by omega) hcode hbc
        (fun hw => nomatch hw) (by simp +arith [pduEncode, storageBytes, valOff, isBits]),
      elems_of_holds_packRegs rfl hvals⟩
  | wBitsReq addr bits =>
    simp only [pduEncode, List.append_assoc, holds_cons, holds_field] at h
    obtain ⟨hcode, haddr, hqty, hbc, hvals⟩ := h
    exact ⟨false, rfl,
      pduDecode_encoded (v := .rqWbits) (by decide) rfl (cdiv8_lt (of_decide_eq_true hvalid)) hcode hbc
        (fun _ => hqty) (by simp +arith [pduEncode, fieldBytes, storageBytes, valOff, isBits]),
      haddr, hqty, elems_of_holds_packBits rfl hvals⟩
  | wRegsReq addr regs =>
    have hmax : regs.length ≤ 127 := of_decide_eq_true hvalid
    simp only [pduEncode, List.append_assoc, holds_cons, holds_field] at h
    obtain ⟨hcode, haddr, hqty, hbc, hvals⟩ := h
    exact ⟨false, rfl,
      pduDecode_encoded (v := .rqWregs) (by decide) rfl (show 2 * regs.length < 256 by omega) hcode hbc
        (fun _ => hqty) (by simp +arith [pduEncode, fieldBytes, storageBytes, valOff, isBits]),
      haddr, hqty, elems_of_holds_packRegs rfl hvals⟩

end Sys2Proof.Machine
end

section
/-! PROOFS. Creating an envelope (42_pdu_create_encode.md section 1): what the common steps leave, and the variant each create
command takes for a supported code. -/

namespace Sys2Proof.Machine

/-- The bytes of a fresh envelope (42_pdu_create_encode.md R213, R214): its header, then zeros. -/
theorem read_created (header fcb : Byte) (a : Nat) :
    ((Buf.write [] 0 header).write 1 fcb).read a = if a = 0 then header else if a = 1 then fcb else 0 := by
  by_cases h : a = 0 <;> simp [h]

/-- The common steps of the create commands (42_pdu_create_encode.md R213), given a variant. -/
theorem createEnvelope_created {v : Variant} {s : State} (hv : v ≠ .none) (hcap : 9 ≤ s.params.cap) (fcb : Byte) :
    ∃ t, createEnvelope v fcb s = .next t ∧ Created s t fcb v v.initLen := by
  have hlen := initLen_le_seven v
  unfold createEnvelope
  rw [if_neg hv, within_of_le (by omega)]
  exact ⟨_, rfl, rfl, read_created _ fcb⟩

theorem exists_code_of_supported {fc : Byte} (h : supported fc = true) : ∃ b : BaseFc, b.code = fc := by
  have hmem : fc ∈ BaseFc.all.map BaseFc.code := List.contains_iff_mem.1 h
  obtain ⟨b, -, hb⟩ := List.mem_map.1 hmem
  exact ⟨b, hb⟩

/-- The layout of each function code's request (42_pdu_create_encode.md R210, R214). -/
theorem createVariant_request (b : BaseFc) :
    createVariant b.code false =
        (if b.code.toNat ≤ 4 then .rqRead else if b.code.toNat ≤ 6 then .rwSingle
          else if b.code = 0x0F#8 then .rqWbits else .rqWregs) ∧
      (createVariant b.code false).initLen = (if b.code.toNat ≤ 6 then 6 else 7) := by
  cases b <;> decide

/-- The layout of each function code's response (42_pdu_create_encode.md R211, R214). -/
theorem createVariant_response (b : BaseFc) :
    createVariant b.code true =
        (if b.code.toNat ≤ 2 then .rsBits else if b.code.toNat ≤ 4 then .rsRegs
          else if b.code.toNat ≤ 6 then .rwSingle else .rsWmulti) ∧
      (createVariant b.code true).initLen = (if b.code.toNat ≤ 4 then 3 else 6) := by
  cases b <;> decide

theorem createVariant_code_ne_none (b : BaseFc) (isResponse : Bool) : createVariant b.code isResponse ≠ .none := by
  cases b <;> cases isResponse <;> decide

/-- A diagnose code may be given with bit 7 set or not (42_pdu_create_encode.md R212). -/
theorem diagCode_of_base (fc : Byte) : (fc &&& 0x7F#8) ||| 0x80#8 = fc ||| 0x80#8 := by
  revert fc; decide

theorem execEnvCdiag_of_base {fc : Byte} {b : BaseFc} (h : b.code = fc &&& 0x7F#8) (s : State) :
    execEnvCdiag fc s = createEnvelope .diag (fc ||| 0x80#8) s := by
  simp only [execEnvCdiag, ← h, BaseFc.ofByte_code]
  rw [h, diagCode_of_base]

/-- Settles O22: a supported code is a base code, its variant is the layout listed, and the common steps lay the envelope down. -/
theorem createCommandsLayDownAZeroPayload : Obligations.CreateCommandsLayDownAZeroPayload := by
  refine fun fc s hcap => ⟨fun hfc => ?creq, fun hfc => ?crsp, fun hfc => ?cdiag⟩
  case creq =>
    obtain ⟨b, rfl⟩ := exists_code_of_supported hfc
    obtain ⟨hvariant, hlen⟩ := createVariant_request b
    rw [← hvariant, ← hlen]
    exact createEnvelope_created (createVariant_code_ne_none b false) hcap b.code
  case crsp =>
    obtain ⟨b, rfl⟩ := exists_code_of_supported hfc
    obtain ⟨hvariant, hlen⟩ := createVariant_response b
    rw [← hvariant, ← hlen]
    exact createEnvelope_created (createVariant_code_ne_none b true) hcap b.code
  case cdiag =>
    obtain ⟨b, hb⟩ := exists_code_of_supported hfc
    show ∃ t, execEnvCdiag fc s = .next t ∧ _
    rw [execEnvCdiag_of_base hb]
    exact createEnvelope_created (by decide) hcap _

end Sys2Proof.Machine
end

section
/-! PROOFS. The commands on one field or one element of a frame (43_payload_ops.md sections 2 to 4). -/

namespace Sys2Proof.Machine

variable {s : State}

/-! ### Bytes, words and bits as numbers -/

/-- A byte field, zero-extended (30_encoding.md R105). -/
theorem readField_one (m : Buf) (o : Nat) : readField m o 1 = BitVec.ofNat 32 (m.read o).toNat := by
  rw [BitVec.ofNat_toNat]
  rfl

/-- A 16-bit word, high byte first (20_memory.md R71), zero-extended. -/
theorem setWidth_ofHiLo (h l : Byte) : (ofHiLo h l).setWidth 32 = BitVec.ofNat 32 (256 * h.toNat + l.toNat) := by
  rw [← toNat_ofHiLo, BitVec.ofNat_toNat]

theorem readField_two (m : Buf) (o : Nat) :
    readField m o 2 = BitVec.ofNat 32 (256 * (m.read o).toNat + (m.read (o + 1)).toNat) :=
  setWidth_ofHiLo _ _

theorem bitOf_eq_decide (b : Byte) (i : Nat) : bitOf b i = decide (b.toNat / 2 ^ (i % 8) % 2 = 1) := by
  rw [bitOf, ← BitVec.testBit_toNat, Nat.testBit_eq_decide_div_mod_eq]

/-- A bit as the word 0 or 1. -/
theorem ite_bitOf (b : Byte) (i : Nat) :
    (if bitOf b i then 1 else 0 : Word) = BitVec.ofNat 32 (b.toNat / 2 ^ (i % 8) % 2) := by
  rw [bitOf_eq_decide]
  rcases Nat.mod_two_eq_zero_or_one (b.toNat / 2 ^ (i % 8)) with hbit | hbit <;> rw [hbit] <;> rfl

/-! ### PL.GETF -/

/-- The number of a field (30_encoding.md R113). -/
def fieldNumber : Field → Nat
  | .station => 0
  | .fc => 1
  | .address => 2
  | .quantity => 3
  | .value => 4
  | .byteCount => 5
  | .diagCode => 6
  | .vq => 7
  | .status => 8
  | .variant => 9
  | .len => 10
  | .crcField => 11

theorem toNat_of_fieldOf {field : BitVec 4} {fld : Field} (h : fieldOf field = some fld) : field.toNat = fieldNumber fld := by
  obtain ⟨k, hk⟩ := field
  interval_cases k <;> cases h <;> rfl

/-- The value of a field: one of the buffer by the variants that have it, then the view's. -/
theorem fieldReading_fieldNumber (f : Selected) (fld : Field) : fieldReading f (fieldNumber fld) = fieldValue f fld := by
  cases fld with
  | station | fc => simp [fieldReading, fieldNumber, fieldValue, fieldPlace, readField_one]
  | address | quantity | value =>
    cases hv : f.variant <;> simp [fieldReading, fieldNumber, fieldValue, fieldPlace, hv, readField_two]
  | byteCount | diagCode =>
    cases hv : f.variant <;>
      simp [fieldReading, fieldNumber, fieldValue, fieldPlace, hv, isVariable, isBits, isRegs, valOff, readField_one]
  | vq | status | variant | len => rfl
  | crcField => simp [fieldReading, fieldNumber, fieldValue, setWidth_ofHiLo, Nat.add_comm]

/-- The numbers 12 to 15 name no field. -/
theorem fieldReading_of_none (f : Selected) {field : BitVec 4} (h : fieldOf field = none) :
    fieldReading f field.toNat = (.badArg, 0) := by
  obtain ⟨k, hk⟩ := field
  interval_cases k <;> cases h <;> rfl

/-- PL.GETF without a frame. -/
theorem exec_plGetf_none {sel : Sel} (hf : select sel s = none) (field : BitVec 4) :
    exec (.plGetf sel field) s = .next (s.returning .noFrame 0) :=
  withSelected_none hf _

/-- PL.GETF on the selected frame of a good state, for every field number. -/
theorem State.Inv.exec_plGetf_reading (h : s.Inv) {sel : Sel} {f : Selected} (hf : select sel s = some f) (field : BitVec 4) :
    exec (.plGetf sel field) s =
      .next (s.returning (fieldReading f field.toNat).1 (fieldReading f field.toNat).2) := by
  cases hfld : fieldOf field with
  | some fld =>
    rw [toNat_of_fieldOf hfld, fieldReading_fieldNumber]
    exact h.exec_plGetf hf hfld
  | none =>
    rw [fieldReading_of_none f hfld]
    show execPlGetf sel field s = _
    unfold execPlGetf
    rw [withSelected_some hf (h.select_len hf), hfld]
    rfl

/-- Settles O23: under either selector PL.GETF reads the frame that R240 selects. -/
theorem getFieldReadsTheSelectedFrame : Obligations.GetFieldReadsTheSelectedFrame := by
  refine fun s field h => ⟨fun hv => ?_, fun hv => ?_, fun hn => ?_, fun hn => ?_⟩
  · exact exec_plGetf_none (by rw [select_rx, hv]; rfl) field
  · exact h.exec_plGetf_reading (by rw [select_rx, if_pos hv]) field
  · exact exec_plGetf_none (by rw [select_tx, if_pos hn]) field
  · exact h.exec_plGetf_reading (by rw [select_tx, if_neg hn]) field

/-! ### PL.SETF -/

/-- What PL.SETF answers is decided by the field alone: whether it may ever be set, who owns it, and where it lies (R242). -/
theorem fieldWriting_fieldNumber (v : Variant) (fld : Field) :
    fieldWriting v (fieldNumber fld) =
      if settable fld = false then .error .badArg
      else if fld = .quantity ∧ isWriteMultiple v = true then .error .badVariant
      else (fieldPlace v fld).elim (.error .badVariant) .ok := by
  cases fld with
  | address | quantity | value | diagCode => cases v <;> rfl
  | _ => rfl

theorem fieldWriting_of_none (v : Variant) {field : BitVec 4} (h : fieldOf field = none) :
    fieldWriting v field.toNat = .error .badArg := by
  obtain ⟨k, hk⟩ := field
  interval_cases k <;> cases h <;> rfl

/-- What PL.SETF leaves: a refusal changes nothing, and a field is written at its place. -/
def State.settingField (s : State) (value : Half) : Except ResultCode (Nat × Nat) → State
  | .error code => s.returning code 0
  | .ok (o, w) => { s with txBuf := writeField s.txBuf o w value, result := .ok, rdata := 0 }

theorem State.Inv.exec_plSetf (h : s.Inv) (hn : s.txVariant ≠ .none) (value : Half) (field : BitVec 4) :
    exec (.plSetf value field) s = .next (s.settingField value (fieldWriting s.txVariant field.toNat)) := by
  show execPlSetf value field s = _
  unfold execPlSetf
  rw [withEnvelope_some hn (h.txLen_le hn)]
  cases hfld : fieldOf field with
  | none => rw [fieldWriting_of_none _ hfld]; rfl
  | some fld =>
    rw [toNat_of_fieldOf hfld, fieldWriting_fieldNumber]
    dsimp only
    split
    · rfl
    · rename_i hset
      split
      · rfl
      · rename_i hq
        cases hp : fieldPlace s.txVariant fld with
        | none => rfl
        | some place =>
          obtain ⟨-, -, hvar, -, hfix⟩ := settable_place (by simpa using hset) hq hp
          have hend := h.settable_le_txLen hn hvar hfix
          have hcap := h.txLen_le hn
          exact within_of_le (by omega) _

/-- A field's bytes, high byte first, and every other byte as before. -/
theorem read_writeField (m : Buf) (o w : Nat) (value : Half) (a : Nat) :
    (writeField m o w value).read a =
      if w = 1 then (if a = o then value.extractLsb' 0 8 else m.read a)
      else if a = o then value.extractLsb' 8 8
      else if a = o + 1 then value.extractLsb' 0 8
      else m.read a := by
  unfold writeField
  split
  · rw [Buf.read_write, lo_eq_extract]
  · rw [Buf.read_write16, lo_eq_extract, hi_eq_extract]
    by_cases hlo : a = o + 1
    · rw [if_pos hlo, if_neg (by omega), if_pos hlo]
    · rw [if_neg hlo, if_neg hlo]

/-- Settles O24: an accepted field is written at its place, and nowhere else. -/
theorem setFieldWritesOnlyItsField : Obligations.SetFieldWritesOnlyItsField := by
  refine fun s value field h => ⟨fun hn => withEnvelope_none hn _, fun hn code hcode => ?_, fun hn o w hplace => ?_⟩
  · rw [h.exec_plSetf hn, hcode]
    rfl
  · rw [h.exec_plSetf hn, hplace]
    exact ⟨_, rfl, rfl, read_writeField _ _ _ _⟩

/-! ### PL.RESIZE -/

/-- A command on the envelope refuses where there is none, and where its elements are of another class. -/
theorem State.Inv.refusesOutsideClass_of_withEnvelope (h : s.Inv) {i : Instr} {cls : Variant → Bool} {k : Outcome}
    (hi : exec i s = Machine.withEnvelope s k) (hk : cls s.txVariant = false → k = done s .badVariant 0) :
    RefusesOutsideClass i cls s := by
  unfold RefusesOutsideClass
  rw [hi]
  refine ⟨fun hn => withEnvelope_none hn _, fun hn hc => ?_⟩
  rw [withEnvelope_some hn (h.txLen_le hn), hk hc]
  rfl

/-- PL.RESIZE on a variable-length envelope stores `q` zeros. -/
theorem State.Inv.exec_plResize (h : s.Inv) (hv : isVariable s.txVariant = true) (q : Half) :
    exec (.plResize q) s = storeValues (List.replicate q.toNat 0#16) s := by
  have hn := ne_none_of_isVariable hv
  show execPlResize q s = _
  unfold execPlResize
  rw [withEnvelope_some hn (h.txLen_le hn), if_pos hv]

theorem elementList_replicate_zero (v : Variant) (q : Nat) : ElementList v (List.replicate q 0#16) :=
  fun _ _ he => .inl (List.eq_of_mem_replicate he)

/-- With a CAP of at least 264 only the byteCount bounds the values region. -/
theorem fits_iff_storageBytes_le {cap : Nat} {v : Variant} {q : Nat} (hv : isVariable v = true) (hcap : 264 ≤ cap) :
    Fits cap v q ↔ storageBytes v q ≤ 255 := by
  have ho := valOff_of_isVariable hv
  exact ⟨fun hf => hf.1, fun hle => ⟨hle, by omega⟩⟩

theorem fits_bits_iff {cap : Nat} {v : Variant} {q : Nat} (hb : isBits v = true) (hcap : 264 ≤ cap) :
    Fits cap v q ↔ q ≤ 2040 := by
  rw [fits_iff_storageBytes_le (isVariable_of_isBits hb) hcap, storageBytes, if_pos hb, cdiv8]
  omega

theorem fits_regs_iff {cap : Nat} {v : Variant} {q : Nat} (hr : isRegs v = true) (hcap : 264 ≤ cap) :
    Fits cap v q ↔ q ≤ 127 := by
  rw [fits_iff_storageBytes_le (isVariable_of_isRegs hr) hcap, storageBytes, isBits_eq_false_of_isRegs hr,
    if_neg Bool.false_ne_true]
  omega

/-- Settles O25: the zeros are an element list, stored all or not at all. -/
theorem resizeLeavesZeroElementsOrNothing : Obligations.ResizeLeavesZeroElementsOrNothing := by
  intro s q h
  have hlen : (List.replicate q.toNat 0#16).length = q.toNat := List.length_replicate
  refine ⟨h.refusesOutsideClass_of_withEnvelope rfl fun hv => by simp [hv], fun hv hf => ?_, fun hv hf => ?_,
    fun hcap => ⟨fun hb => fits_bits_iff hb hcap, fun hr => fits_regs_iff hr hcap⟩⟩
  · rw [h.exec_plResize hv, storeValues_noSpace (by rwa [hlen])]
    rfl
  · rw [h.exec_plResize hv, storeValues_fits (by rwa [hlen]) (h.byteCount_le hv), hlen, BitVec.ofNat_toNat, BitVec.setWidth_eq]
    exact ⟨_, rfl, rfl, storedBuf_stores hv (elementList_replicate_zero _ _) (by rw [hlen]; exact hf.1) (h.byteCount_tail hv)⟩

/-! ### PL.GETBIT and PL.GETREG -/

/-- PL.GETBIT on the selected frame of a good state: a bit of the view lies inside the PDU. -/
theorem State.Inv.exec_plGetbit (h : s.Inv) {sel : Sel} {f : Selected} (hf : select sel s = some f) (i : Half) :
    exec (.plGetbit sel i) s =
      if isBits f.variant = false then done s .badVariant 0
      else if f.vq ≤ i.toNat then done s .range 0
      else done s .ok (if bitOf (f.buf.read (valOff f.variant + i.toNat / 8)) i.toNat then 1 else 0) := by
  show execPlGetbit sel i s = _
  unfold execPlGetbit
  rw [withSelected_some hf (h.select_len hf)]
  split
  · rfl
  · rename_i hb
    split
    · rfl
    · rename_i hi
      have hlast := bit_end_le_storageBytes (by simpa using hb) (Nat.lt_of_not_le hi)
      obtain ⟨-, hend⟩ := h.select_region hf (Nat.lt_of_not_le hi)
      exact within_of_le (by omega) _

/-- PL.GETREG on the selected frame of a good state: a register of the view lies inside the PDU. -/
theorem State.Inv.exec_plGetreg (h : s.Inv) {sel : Sel} {f : Selected} (hf : select sel s = some f) (i : Half) :
    exec (.plGetreg sel i) s =
      if isRegs f.variant = false then done s .badVariant 0
      else if f.vq ≤ i.toNat then done s .range 0
      else done s .ok ((f.buf.read16 (valOff f.variant + 2 * i.toNat)).setWidth 32) := by
  show execPlGetreg sel i s = _
  unfold execPlGetreg
  rw [withSelected_some hf (h.select_len hf)]
  split
  · rfl
  · rename_i hr
    split
    · rfl
    · rename_i hi
      have hlast := reg_end_le_storageBytes (by simpa using hr) (Nat.lt_of_not_le hi)
      obtain ⟨-, hend⟩ := h.select_region hf (Nat.lt_of_not_le hi)
      exact within_of_le (by omega) _

/-- Settles O26: the checks in the rules' order, then the element as a number. -/
theorem getBitAndGetRegReturnOneElement : Obligations.GetBitAndGetRegReturnOneElement := by
  refine fun s sel i h => ⟨fun hf => ⟨withSelected_none hf _, withSelected_none hf _⟩, fun f hf => ?_⟩
  rw [h.exec_plGetbit hf, h.exec_plGetreg hf, ← ite_bitOf, ← setWidth_ofHiLo]
  refine ⟨fun hb => if_pos hb, fun hr => if_pos hr, fun hb hi => ?_, fun hr hi => ?_, fun hb hi => ?_, fun hr hi => ?_⟩
  · rw [if_neg (by simp [hb]), if_pos hi]
    rfl
  · rw [if_neg (by simp [hr]), if_pos hi]
    rfl
  · rw [if_neg (by simp [hb]), if_neg (by omega)]
    rfl
  · rw [if_neg (by simp [hr]), if_neg (by omega)]
    rfl

/-! ### PL.SETBIT and PL.SETREG -/

/-- PL.SETBIT on a good bit envelope: a bit below `tx_vq` lies inside the PDU. -/
theorem State.Inv.exec_plSetbit (h : s.Inv) (hb : isBits s.txVariant = true) (b : Bool) (i : Half) :
    exec (.plSetbit b i) s =
      let o := valOff s.txVariant + i.toNat / 8
      if s.txVq.toNat ≤ i.toNat then done s .range 0
      else done { s with txBuf := s.txBuf.write o (setBit (s.txBuf.read o) i.toNat b) } .ok 0 := by
  have hv := isVariable_of_isBits hb
  have hn := ne_none_of_isVariable hv
  show execPlSetbit b i s = _
  unfold execPlSetbit
  rw [withEnvelope_some hn (h.txLen_le hn), if_neg (by simp [hb])]
  dsimp only
  split
  · rfl
  · rename_i hi
    have hlast := bit_end_le_storageBytes hb (Nat.lt_of_not_le hi)
    have hend := h.txLen_eq hv
    exact within_of_le (by omega) _

/-- PL.SETREG on a good register envelope: a register below `tx_vq` lies inside the PDU. -/
theorem State.Inv.exec_plSetreg (h : s.Inv) (hr : isRegs s.txVariant = true) (w i : Half) :
    exec (.plSetreg w i) s =
      if s.txVq.toNat ≤ i.toNat then done s .range 0
      else done { s with txBuf := s.txBuf.write16 (valOff s.txVariant + 2 * i.toNat) w } .ok 0 := by
  have hv := isVariable_of_isRegs hr
  have hn := ne_none_of_isVariable hv
  show execPlSetreg w i s = _
  unfold execPlSetreg
  rw [withEnvelope_some hn (h.txLen_le hn), if_neg (by simp [hr])]
  split
  · rfl
  · rename_i hi
    have hlast := reg_end_le_storageBytes hr (Nat.lt_of_not_le hi)
    have hend := h.txLen_eq hv
    exact within_of_le (by omega) _

/-- A buffer with one bit of one byte set: that bit, and every other as before. -/
theorem getLsbD_read_write_setBit (m : Buf) (o i : Nat) (b : Bool) (a : Nat) {j : Nat} (hj : j < 8) :
    ((m.write o (setBit (m.read o) i b)).read a).getLsbD j =
      if a = o ∧ j = i % 8 then b else (m.read a).getLsbD j := by
  rw [Buf.read_write]
  by_cases ha : a = o
  · subst ha
    rw [if_pos rfl, getLsbD_setBit _ _ _ _ hj]
    simp only [true_and]
  · rw [if_neg ha, if_neg fun hc => ha hc.1]

/-- Settles O27: the byte of bit `i` is rewritten with that one bit set. -/
theorem setBitChangesExactlyOneBit : Obligations.SetBitChangesExactlyOneBit := by
  refine fun s b i h => ⟨h.refusesOutsideClass_of_withEnvelope rfl fun hc => if_pos hc, fun hb hi => ?_, fun hb hi => ?_⟩
  · rw [h.exec_plSetbit hb]
    exact if_pos hi
  · rw [h.exec_plSetbit hb]
    exact ⟨_, if_neg (by omega), rfl, fun a j hj => getLsbD_read_write_setBit _ _ _ _ _ hj⟩

/-- Settles O28: the register is the field of two bytes at its place. -/
theorem setRegWritesTwoBytes : Obligations.SetRegWritesTwoBytes := by
  refine fun s w i h => ⟨h.refusesOutsideClass_of_withEnvelope rfl fun hc => if_pos hc, fun hr hi => ?_, fun hr hi => ?_⟩
  · rw [h.exec_plSetreg hr]
    exact if_pos hi
  · rw [h.exec_plSetreg hr]
    exact ⟨_, if_neg (by omega), rfl, read_writeField _ _ 2 _⟩

end Sys2Proof.Machine
end

section
/-! PROOFS. The insert commands, and that an insert and a remove at the same end undo each other (43_payload_ops.md sections 5
and 6). -/

namespace Sys2Proof.Machine

variable {s t : State} {ins rem : Instr} {cls : Variant → Bool} {place : List Half → List Half → List Half}
  {out keep : List Half → List Half} {n : Nat}

/-! ### The entries of an insert as elements -/

theorem entryElements_append (v : Variant) (d es : List Half) :
    entryElements v (d ++ es) = entryElements v d ++ entryElements v es := by
  unfold entryElements
  split
  · exact List.map_append
  · rfl

/-- Of an element nothing but bit 0 is left to ignore. -/
theorem entryElements_of_elementList {v : Variant} {es : List Half} (h : ElementList v es) : entryElements v es = es := by
  unfold entryElements
  split
  · rename_i hb
    refine (List.map_congr_left fun e he => ?_).trans (List.map_id _)
    rcases h hb e he with rfl | rfl <;> rfl
  · rfl

theorem storedBuf_entryElements (v : Variant) (es : List Half) (m : Buf) :
    storedBuf v (entryElements v es) m = storedBuf v es m :=
  storedBuf_congr m (packElems_entryElements v es) (length_entryElements v es)

/-! ### The four insert commands -/

/-- An insert command that places `n` entries at one end of the list. -/
theorem State.Inv.inserts (h : s.Inv) (hi : exec ins s = insertElems cls place n s)
    (hcls : ∀ v, cls v = true → isVariable v = true) (hlen : ∀ d es, (place d es).length = es.length + d.length)
    (hplace : ∀ v d es, entryElements v (place d es) = place (entryElements v d) (entryElements v es)) :
    Inserts ins cls place n s := by
  have hq : n ≤ s.hdata.length → (place (s.hdata.take n) (envelopeElems s)).length = s.txVq.toNat + n := fun hn => by
    rw [hlen, List.length_take, Nat.min_eq_left hn, envelopeElems, length_elems]
  refine ⟨h.refusesOutsideClass hi, fun hc hn => ?_, fun hc hn hf => ?_, fun hc hn hf => ?_⟩
  · rw [hi, insertElems_badArg h hcls hc hn]
    rfl
  · rw [hi, insertElems_noSpace h hcls hc hn (by rwa [hq hn])]
  · have hv := hcls _ hc
    have helems : entryElements s.txVariant (place (s.hdata.take n) (envelopeElems s)) =
        place (entryElements s.txVariant (s.hdata.take n)) (envelopeElems s) := by
      rw [hplace, entryElements_of_elementList (es := envelopeElems s) (elementList_elems _ _ _)]
    have hstores := storedBuf_stores (es := entryElements s.txVariant (place (s.hdata.take n) (envelopeElems s))) hv
      (elementList_entryElements _ _) (by rw [length_entryElements, hq hn]; exact hf.1) (h.byteCount_tail hv)
    rw [storedBuf_entryElements, helems] at hstores
    rw [hi, insertElems_stored h hcls hc hn (by rwa [hq hn]), hq hn]
    exact ⟨_, rfl, rfl, hstores⟩

theorem State.Inv.inserts_head (h : s.Inv) (hcls : ∀ v, cls v = true → isVariable v = true)
    (hi : exec ins s = insertElems cls atHead n s) : Inserts ins cls (fun d es => d ++ es) n s :=
  h.inserts hi hcls (fun d es => by rw [List.length_append, Nat.add_comm]) entryElements_append

theorem State.Inv.inserts_tail (h : s.Inv) (hcls : ∀ v, cls v = true → isVariable v = true)
    (hi : exec ins s = insertElems cls atTail n s) : Inserts ins cls (fun d es => es ++ d) n s :=
  h.inserts hi hcls (fun _ _ => List.length_append) fun v d es => entryElements_append v es d

/-- Settles O29: each command places the entries at one end of the list. -/
theorem insertCommandsStoreTheNewElements : Obligations.InsertCommandsStoreTheNewElements := fun _ _ h =>
  ⟨h.inserts_head (fun _ => isVariable_of_isBits) rfl, h.inserts_tail (fun _ => isVariable_of_isBits) rfl,
    h.inserts_head (fun _ => isVariable_of_isRegs) rfl, h.inserts_tail (fun _ => isVariable_of_isRegs) rfl⟩

/-! ### The remove command of an end -/

theorem State.Inv.removes_head (h : s.Inv) (hcls : ∀ v, cls v = true → isVariable v = true)
    (hr : exec rem s = removeElems cls (cutHead n) n s) : Removes rem cls (fun es => es.take n) (fun es => es.drop n) n s :=
  h.removes hr hcls (fun _ _ => rfl) (fun es hes => by rw [List.length_drop, hes]) fun _ _ => List.mem_of_mem_drop

theorem State.Inv.removes_tail (h : s.Inv) (hcls : ∀ v, cls v = true → isVariable v = true)
    (hr : exec rem s = removeElems cls (cutTail n) n s) :
    Removes rem cls (fun es => es.drop (s.txVq.toNat - n)) (fun es => es.take (s.txVq.toNat - n)) n s :=
  h.removes hr hcls (fun es hes => by rw [cutTail, hes]) (fun es hes => by rw [List.length_take]; omega)
    fun _ _ => List.mem_of_mem_take

/-! ### Commands that return OK -/

/-- A command has one outcome, so where it returns OK no refusal of it applies. -/
theorem result_ok_of_exec {i : Instr} {u : State} (ht : exec i s = .next t) (hok : t.result = .ok) (hu : exec i s = .next u) :
    u.result = .ok := by
  obtain rfl := Host.Outcome.next.inj (hu.symm.trans ht)
  exact hok

/-- A command on the elements that returns OK has an envelope of its class. -/
theorem RefusesOutsideClass.cls_of_ok {i : Instr} (hr : RefusesOutsideClass i cls s) (ht : exec i s = .next t)
    (hok : t.result = .ok) : cls s.txVariant = true := by
  obtain ⟨hnone, hclass⟩ := hr
  by_cases hn : s.txVariant = .none
  · exact nomatch result_ok_of_exec ht hok (hnone hn)
  · by_contra hc
    exact nomatch result_ok_of_exec ht hok (hclass hn (by simpa using hc))

/-- An insert command that returns OK had the class, the entries and the room. -/
theorem Inserts.admitted_of_ok (hi : Inserts ins cls place n s) (ht : exec ins s = .next t) (hok : t.result = .ok) :
    cls s.txVariant = true ∧ n ≤ s.hdata.length ∧ Fits s.params.cap s.txVariant (s.txVq.toNat + n) := by
  obtain ⟨hrefuses, hbadArg, hnoSpace, -⟩ := hi
  have hc := hrefuses.cls_of_ok ht hok
  have hn : n ≤ s.hdata.length := by
    by_contra hn
    exact nomatch result_ok_of_exec ht hok (hbadArg hc (by omega))
  refine ⟨hc, hn, ?_⟩
  by_contra hf
  exact nomatch result_ok_of_exec ht hok (hnoSpace hc hn hf)

/-- A remove command that returns OK had the class and the elements. -/
theorem Removes.admitted_of_ok (hr : Removes rem cls out keep n s) (ht : exec rem s = .next t) (hok : t.result = .ok) :
    cls s.txVariant = true ∧ n ≤ s.txVq.toNat := by
  obtain ⟨hrefuses, hrange, -⟩ := hr
  have hc := hrefuses.cls_of_ok ht hok
  refine ⟨hc, ?_⟩
  by_contra hn
  exact nomatch result_ok_of_exec ht hok (hrange hc (by omega))

/-! ### Storing another list and then the old one -/

/-- The envelope of `s` holds in `t` the elements `es`, which fit, in canonical form. -/
structure Stored (s t : State) (es : List Half) : Prop where
  params : t.params = s.params
  variant : t.txVariant = s.txVariant
  vq : t.txVq = BitVec.ofNat 16 es.length
  len : t.txLen = valOff s.txVariant + storageBytes s.txVariant es.length
  fits : Fits s.params.cap s.txVariant es.length
  stores : StoresElements s.txVariant es s.txBuf t.txBuf

/-- A number of elements that fits is a 16-bit quantity. -/
theorem Fits.toNat_ofNat {cap : Nat} {v : Variant} {q : Nat} (hf : Fits cap v q) : (BitVec.ofNat 16 q).toNat = q := by
  obtain ⟨hbc, -⟩ := hf
  refine toNat_ofNat_16 ?_
  unfold storageBytes cdiv8 at hbc
  split at hbc <;> omega

theorem Stored.toNat_vq {es : List Half} (h : Stored s t es) : t.txVq.toNat = es.length := by
  rw [h.vq, h.fits.toNat_ofNat]

theorem Stored.envelopeElems_eq {es : List Half} (h : Stored s t es) : envelopeElems t = es := by
  obtain ⟨helems, -⟩ := h.stores
  rw [envelopeElems, h.variant, h.toNat_vq, helems]

theorem length_envelopeElems (s : State) : (envelopeElems s).length = s.txVq.toNat := length_elems ..

/-- Storing any list and then the elements a good envelope without a CRC had gives the envelope back: its bytes are those of the
element list and of the fields before it, which both stores keep. -/
theorem State.Inv.restored (h : s.Inv) (hv : isVariable s.txVariant = true) (h0 : s.txBuf.read s.txLen = 0)
    (h1 : s.txBuf.read (s.txLen + 1) = 0) {u : State} {es : List Half} (hst : Stored s t es)
    (htu : Stored t u (envelopeElems s)) (hu : u.Inv) : u.txBuf = s.txBuf ∧ u.txLen = s.txLen ∧ u.txVq = s.txVq := by
  have hstores := htu.stores
  have hlen := htu.len
  rw [hst.variant] at hstores hlen
  have hwf : u.txBuf.wf s.params.cap := by
    obtain ⟨-, hwf⟩ := hu.buffers
    rwa [htu.params, hst.params] at hwf
  obtain ⟨-, -, -, -, -, hhead⟩ := hst.stores
  refine ⟨Buf.ext_of_wf hwf h.buffers.2 (hstores.read_eq hv (h.storesElements hv h0 h1) hhead), ?_, ?_⟩
  · rw [hlen, length_envelopeElems, h.txLen_eq hv]
  · rw [htu.vq, length_envelopeElems, BitVec.ofNat_toNat, BitVec.setWidth_eq]

/-! ### The two commands of one end -/

/-- An insert and a remove command of one class and one end: `place` puts `n` elements there, and `out q` and `keep q` part a list
of `q` elements at the same place. -/
structure SameEnd (ins rem : Instr) (cls : Variant → Bool) (place : List Half → List Half → List Half)
    (out keep : Nat → List Half → List Half) (n : Nat) : Prop where
  isVariable : ∀ v, cls v = true → isVariable v = true
  insert_isWire : ins.isWire = false
  remove_isWire : rem.isWire = false
  inserts : ∀ s : State, s.Inv → Inserts ins cls place n s
  removes : ∀ s : State, s.Inv → Removes rem cls (out s.txVq.toNat) (keep s.txVq.toNat) n s
  length_place : ∀ d es, (place d es).length = es.length + d.length
  out_place : ∀ d es, d.length = n → out (es.length + n) (place d es) = d
  keep_place : ∀ d es, d.length = n → keep (es.length + n) (place d es) = es
  length_out : ∀ es, n ≤ es.length → (out es.length es).length = n
  mem_of_mem_out : ∀ q es, ∀ e ∈ out q es, e ∈ es
  place_cut : ∀ es, n ≤ es.length → place (out es.length es) (keep es.length es) = es

theorem sameEnd_head (hcls : ∀ v, cls v = true → isVariable v = true) (hwi : ins.isWire = false)
    (hwr : rem.isWire = false) (hi : ∀ s, exec ins s = insertElems cls atHead n s)
    (hr : ∀ s, exec rem s = removeElems cls (cutHead n) n s) :
    SameEnd ins rem cls (fun d es => d ++ es) (fun _ es => es.take n) (fun _ es => es.drop n) n where
  isVariable := hcls
  insert_isWire := hwi
  remove_isWire := hwr
  inserts s h := h.inserts_head hcls (hi s)
  removes s h := h.removes_head hcls (hr s)
  length_place d es := by rw [List.length_append, Nat.add_comm]
  out_place d es hd := List.take_left' hd
  keep_place d es hd := List.drop_left' hd
  length_out es hn := List.length_take_of_le hn
  mem_of_mem_out _ _ _ := List.mem_of_mem_take
  place_cut es _ := List.take_append_drop n es

theorem sameEnd_tail (hcls : ∀ v, cls v = true → isVariable v = true) (hwi : ins.isWire = false)
    (hwr : rem.isWire = false) (hi : ∀ s, exec ins s = insertElems cls atTail n s)
    (hr : ∀ s, exec rem s = removeElems cls (cutTail n) n s) :
    SameEnd ins rem cls (fun d es => es ++ d) (fun q es => es.drop (q - n)) (fun q es => es.take (q - n)) n where
  isVariable := hcls
  insert_isWire := hwi
  remove_isWire := hwr
  inserts s h := h.inserts_tail hcls (hi s)
  removes s h := h.removes_tail hcls (hr s)
  length_place d es := List.length_append
  out_place d es hd := List.drop_left' (by omega)
  keep_place d es hd := List.take_left' (by omega)
  length_out es hn := by rw [List.length_drop]; omega
  mem_of_mem_out _ _ _ := List.mem_of_mem_drop
  place_cut es _ := List.take_append_drop _ es

section SameEnd

variable {out keep : Nat → List Half → List Half} (he : SameEnd ins rem cls place out keep n)

include he

theorem SameEnd.length_keep {es : List Half} (hn : n ≤ es.length) : (keep es.length es).length + n = es.length := by
  have hcut := congrArg List.length (he.place_cut es hn)
  rwa [he.length_place, he.length_out es hn] at hcut

/-- An insert command that is admitted. -/
theorem SameEnd.insert_stores (h : s.Inv) (hc : cls s.txVariant = true) (hn : n ≤ s.hdata.length)
    (hf : Fits s.params.cap s.txVariant (s.txVq.toNat + n)) :
    ∃ t, exec ins s = .next t ∧ t.result = .ok ∧
      Stored s t (place (entryElements s.txVariant (s.hdata.take n)) (envelopeElems s)) := by
  obtain ⟨-, -, -, hstored⟩ := he.inserts s h
  obtain ⟨t, ht, hstate, hstores⟩ := hstored hc hn hf
  have hlen : (place (entryElements s.txVariant (s.hdata.take n)) (envelopeElems s)).length = s.txVq.toNat + n := by
    rw [he.length_place, length_envelopeElems, length_entryElements, List.length_take_of_le hn]
  refine ⟨t, ht, by rw [hstate], by rw [hstate], by rw [hstate], ?_, ?_, hlen ▸ hf, hstores⟩
  · rw [hlen, hstate]
  · rw [hlen, hstate]

/-- A remove command that is admitted. -/
theorem SameEnd.remove_stores (h : s.Inv) (hc : cls s.txVariant = true) (hn : n ≤ s.txVq.toNat) :
    ∃ t, exec rem s = .next t ∧ t.result = .ok ∧ Stored s t (keep s.txVq.toNat (envelopeElems s)) ∧
      t.hdata = (out s.txVq.toNat (envelopeElems s)).take s.params.hdataDepth := by
  obtain ⟨-, -, hstored⟩ := he.removes s h
  obtain ⟨t, ht, hstate, hstores⟩ := hstored hc hn
  have hlen : (keep s.txVq.toNat (envelopeElems s)).length = s.txVq.toNat - n := by
    have hes := length_envelopeElems s
    have hkeep := he.length_keep (es := envelopeElems s) (by omega)
    rw [hes] at hkeep
    omega
  refine ⟨t, ht, by rw [hstate], ⟨by rw [hstate], by rw [hstate], ?_, ?_, ?_, hstores⟩, by rw [hstate]; rfl⟩
  · rw [hlen, hstate]
  · rw [hlen, hstate]
  · rw [hlen]
    exact h.fits (he.isVariable _ hc) (by omega)

/-- Insert then remove: the remove finds the list the insert stored, parts it where it was joined, and stores the old elements
again. -/
theorem SameEnd.insert_remove (h : s.Inv) (h0 : s.txBuf.read s.txLen = 0) (h1 : s.txBuf.read (s.txLen + 1) = 0)
    (hdepth : n ≤ s.params.hdataDepth) (ht : exec ins s = .next t) (hok : t.result = .ok) :
    ∃ u, exec rem t = .next u ∧ u.result = .ok ∧ u.txBuf = s.txBuf ∧ u.txLen = s.txLen ∧ u.txVq = s.txVq ∧
      u.hdata = entryElements s.txVariant (s.hdata.take n) := by
  have hinv := exec_inv he.insert_isWire h ht
  obtain ⟨hc, hn, hf⟩ := (he.inserts s h).admitted_of_ok ht hok
  obtain ⟨t', ht', -, hst⟩ := he.insert_stores h hc hn hf
  obtain rfl : t = t' := Host.Outcome.next.inj (ht.symm.trans ht')
  have hd : (entryElements s.txVariant (s.hdata.take n)).length = n := by
    rw [length_entryElements, List.length_take_of_le hn]
  have hvq := hst.toNat_vq
  rw [he.length_place, hd] at hvq
  obtain ⟨u, hu, huok, htu, hhdata⟩ := he.remove_stores hinv (by rwa [hst.variant]) (by omega)
  rw [hst.envelopeElems_eq, hvq, he.keep_place _ _ hd] at htu
  rw [hst.envelopeElems_eq, hvq, he.out_place _ _ hd, hst.params, List.take_of_length_le (by omega)] at hhdata
  obtain ⟨hbuf, hlen, hq⟩ := h.restored (he.isVariable _ hc) h0 h1 hst htu (exec_inv he.remove_isWire hinv hu)
  exact ⟨u, hu, huok, hbuf, hlen, hq, hhdata⟩

/-- Remove then insert: the FIFO holds what was removed, which the insert joins to what was kept. -/
theorem SameEnd.remove_insert (h : s.Inv) (h0 : s.txBuf.read s.txLen = 0) (h1 : s.txBuf.read (s.txLen + 1) = 0)
    (hdepth : n ≤ s.params.hdataDepth) (ht : exec rem s = .next t) (hok : t.result = .ok) :
    ∃ u, exec ins t = .next u ∧ u.result = .ok ∧ u.txBuf = s.txBuf ∧ u.txLen = s.txLen ∧ u.txVq = s.txVq := by
  have hinv := exec_inv he.remove_isWire h ht
  obtain ⟨hc, hn⟩ := (he.removes s h).admitted_of_ok ht hok
  obtain ⟨t', ht', -, hst, hhdata⟩ := he.remove_stores h hc hn
  obtain rfl : t = t' := Host.Outcome.next.inj (ht.symm.trans ht')
  have hv := he.isVariable _ hc
  have hes := length_envelopeElems s
  have hout := he.length_out (envelopeElems s) (by omega)
  have hcut := he.place_cut (envelopeElems s) (by omega)
  rw [← hes, List.take_of_length_le (by omega)] at hhdata
  rw [← hes] at hst
  have hvq : t.txVq.toNat + n = s.txVq.toNat := by
    rw [hst.toNat_vq, he.length_keep (by omega), hes]
  have helems : entryElements s.txVariant (t.hdata.take n) = out (envelopeElems s).length (envelopeElems s) := by
    rw [hhdata, List.take_of_length_le (by omega)]
    exact entryElements_of_elementList fun hb e hmem => elementList_elems _ _ _ hb e (he.mem_of_mem_out _ _ e hmem)
  obtain ⟨u, hu, huok, htu⟩ := he.insert_stores hinv (by rwa [hst.variant]) (by rw [hhdata]; omega)
    (by rw [hst.variant, hst.params, hvq]; exact h.fits hv le_rfl)
  rw [hst.variant, helems, hst.envelopeElems_eq, hcut] at htu
  exact ⟨u, hu, huok, h.restored hv h0 h1 hst htu (exec_inv he.insert_isWire hinv hu)⟩

end SameEnd

/-- The four pairs are two classes at two ends. -/
theorem exists_sameEnd {n : Half} (h : (ins, rem) ∈ insertRemovePairs n) :
    ∃ cls place out keep, SameEnd ins rem cls place out keep n.toNat := by
  simp only [insertRemovePairs, List.mem_cons, Prod.mk.injEq, List.not_mem_nil, or_false] at h
  rcases h with ⟨rfl, rfl⟩ | ⟨rfl, rfl⟩ | ⟨rfl, rfl⟩ | ⟨rfl, rfl⟩
  · exact ⟨_, _, _, _, sameEnd_head (fun _ => isVariable_of_isBits) rfl rfl (fun _ => rfl) fun _ => rfl⟩
  · exact ⟨_, _, _, _, sameEnd_tail (fun _ => isVariable_of_isBits) rfl rfl (fun _ => rfl) fun _ => rfl⟩
  · exact ⟨_, _, _, _, sameEnd_head (fun _ => isVariable_of_isRegs) rfl rfl (fun _ => rfl) fun _ => rfl⟩
  · exact ⟨_, _, _, _, sameEnd_tail (fun _ => isVariable_of_isRegs) rfl rfl (fun _ => rfl) fun _ => rfl⟩

/-- Settles O31: each pair is the insert and the remove of one end and class. -/
theorem insertThenRemoveRestoresTheEnvelope : Obligations.InsertThenRemoveRestoresTheEnvelope := by
  intro s t n ins rem h hmem h0 h1 hdepth ht hok
  obtain ⟨_, _, _, _, he⟩ := exists_sameEnd hmem
  exact he.insert_remove h h0 h1 hdepth ht hok

/-- Settles O32: each pair, in the other order. -/
theorem removeThenInsertRestoresTheEnvelope : Obligations.RemoveThenInsertRestoresTheEnvelope := by
  intro s t n ins rem h hmem h0 h1 hdepth ht hok
  obtain ⟨_, _, _, _, he⟩ := exists_sameEnd hmem
  exact he.remove_insert h h0 h1 hdepth ht hok

end Sys2Proof.Machine
end

section
/-! PROOFS. What one phase of an update does (44_framing_fsm.md section 2), in the words of the statements: the drain, the end check
and the completion of a frame; and the update as its phases. -/

namespace Sys2Proof.Machine

variable {s t : State}

/-! ### The drain: the fields it never touches -/

@[simp] theorem drain_params (h1 : 1 ≤ s.params.cap) : (drain s).params = s.params := by rw [drain_keeps s h1]
@[simp] theorem drain_awaiting (h1 : 1 ≤ s.params.cap) : (drain s).awaiting = s.awaiting := by rw [drain_keeps s h1]
@[simp] theorem drain_allowed (h1 : 1 ≤ s.params.cap) : (drain s).allowed = s.allowed := by rw [drain_keeps s h1]
@[simp] theorem drain_txPending (h1 : 1 ≤ s.params.cap) : (drain s).txPending = s.txPending := by rw [drain_keeps s h1]
@[simp] theorem drain_evPending (h1 : 1 ≤ s.params.cap) : (drain s).evPending = s.evPending := by rw [drain_keeps s h1]
@[simp] theorem drain_rxView (h1 : 1 ≤ s.params.cap) : (drain s).rxView = s.rxView := by rw [drain_keeps s h1]
@[simp] theorem drain_now (h1 : 1 ≤ s.params.cap) : (drain s).now = s.now := by rw [drain_keeps s h1]
@[simp] theorem drain_txStampUs (h1 : 1 ≤ s.params.cap) : (drain s).txStampUs = s.txStampUs := by rw [drain_keeps s h1]
@[simp] theorem drain_silenceUs (h1 : 1 ≤ s.params.cap) : (drain s).silenceUs = s.silenceUs := by rw [drain_keeps s h1]
@[simp] theorem drain_respTimeoutUs (h1 : 1 ≤ s.params.cap) : (drain s).respTimeoutUs = s.respTimeoutUs := by
  rw [drain_keeps s h1]
@[simp] theorem drain_failKind (h1 : 1 ≤ s.params.cap) : (drain s).failKind = s.failKind := by rw [drain_keeps s h1]
@[simp] theorem drain_totalFrames (h1 : 1 ≤ s.params.cap) : (drain s).totalFrames = s.totalFrames := by rw [drain_keeps s h1]
@[simp] theorem drain_failedFrames (h1 : 1 ≤ s.params.cap) : (drain s).failedFrames = s.failedFrames := by rw [drain_keeps s h1]
@[simp] theorem drain_txlog (h1 : 1 ≤ s.params.cap) : (drain s).txlog = s.txlog := by rw [drain_keeps s h1]

/-! ### The drain: the bytes it moves -/

/-- A frame that has begun holds a byte (10_state.md R25). -/
theorem State.Inv.one_le_rxLen (h : s.Inv) (hst : s.rxState ≠ .waitStation) : 1 ≤ s.rxLen := by
  obtain ⟨-, hfc, hdata⟩ := h.receiver
  cases hr : s.rxState with
  | waitStation => exact absurd hr hst
  | waitFunctionCode => exact (hfc hr).ge
  | waitData => exact Nat.le_of_succ_le (hdata hr)

/-- After a drain that moves bytes the frame is one byte long exactly when that byte began it. -/
theorem State.Inv.drained_one_iff (h : s.Inv) (h0 : 0 < drainCount s) :
    s.rxState = .waitStation ∧ drainCount s = 1 ↔ drainStart s + drainCount s = 1 := by
  by_cases hst : s.rxState = .waitStation
  · simp [drainStart, hst]
  · have := h.one_le_rxLen hst
    simp only [drainStart, hst, false_and, if_false, false_iff]
    omega

/-- Settles O34: `drain_eq`, with the state of the receiver read off from the length of the frame. -/
theorem drainStoresTheQueueInOrder : Obligations.DrainStoresTheQueueInOrder := by
  intro s h start count hstart hcount
  have hcap := h.cap_ge
  obtain rfl : start = drainStart s := hstart
  obtain rfl : count = drainCount s := hcount
  rcases drain_eq (s := s) (by omega) with ⟨h0, he⟩ | ⟨h0, he⟩
  · exact ⟨fun _ => he, fun hpos => absurd h0 hpos.ne'⟩
  · refine ⟨fun hz => absurd hz h0.ne', fun _ => ⟨?_, fun a => ?_⟩⟩
    · rw [he]
      simp only [h.drained_one_iff h0]
    · have hlen : (s.rxq.take (drainCount s)).length = drainCount s := by
        rw [List.length_take]
        exact Nat.min_eq_left (Nat.min_le_left ..)
      rw [he, Buf.read_writeAll, hlen]
      split
      · rename_i ha
        rw [List.getD_eq_getElem?_getD, List.getElem?_take_of_lt (by omega), ← List.getD_eq_getElem?_getD]
      · rfl

/-! ### The end check -/

theorem endCheck_waits (hfree : s.rxLen < s.params.cap) (hquiet : elapsed s.now s.lastRxUs ≤ s.silenceUs.toNat) :
    endCheck s = .next s := by
  unfold endCheck
  rw [if_neg (Nat.not_le_of_lt hfree), if_neg (Nat.not_lt_of_le hquiet), ite_self]

theorem endCheck_overflow (hst : s.rxState ≠ .waitStation) (hfull : s.params.cap ≤ s.rxLen) :
    endCheck s = .next (s.counting.failing .overflow) := by
  unfold endCheck
  rw [if_neg hst, if_pos hfull]
  rfl

theorem endCheck_short (hst : s.rxState ≠ .waitStation) (hfree : s.rxLen < s.params.cap)
    (hsil : s.silenceUs.toNat < elapsed s.now s.lastRxUs) (h4 : s.rxLen < 4) :
    endCheck s = .next (s.counting.failing .timedout) := by
  unfold endCheck
  rw [if_neg hst, if_neg (Nat.not_le_of_lt hfree), if_pos hsil]
  exact if_pos h4

/-- Settles O35: one lemma for each branch of the check. -/
theorem endCheckTestsOverflowThenSilence : Obligations.EndCheckTestsOverflowThenSilence := by
  intro s silent hsilent
  rw [← elapsed_eq_mod] at hsilent
  subst hsilent
  exact ⟨fun hst => if_pos hst, endCheck_overflow, fun _ => endCheck_waits, endCheck_short,
    fun hst hfree hsil h4 => endCheck_of_silence hst h4 hfree hsil⟩

/-! ### The completion of a frame -/

/-- The CRC matches when the two bytes after the frame, the low one first, are its number (40_crc_and_envelope.md). -/
theorem crcMatches_iff_toNat (m : Buf) (len : Nat) : crcMatches m len = true ↔
    (crc16 (m.slice 0 len)).toNat = (m.read len).toNat + 256 * (m.read (len + 1)).toNat := by
  rw [crcMatches_iff, Nat.add_comm (BitVec.toNat _), ← toNat_ofHiLo, BitVec.toNat_inj]
  constructor
  · rintro ⟨hlo, hhi⟩
    rw [hlo, hhi, ofHiLo_hi_lo]
  · intro h
    rw [h, lo_ofHiLo, hi_ofHiLo]
    exact ⟨rfl, rfl⟩

/-- Settles O36: the three ways of `complete_cases`, told apart by the CRC and then by the function code. -/
theorem completionChecksCrcThenFunctionCode : Obligations.CompletionChecksCrcThenFunctionCode := by
  intro s h4 n c view counted hn hc hview hcounted
  subst hn hc hview
  obtain rfl : counted = frameCounted s := hcounted
  have hcrc := crcMatches_iff_toNat s.rxBuf (s.rxLen - 2)
  rw [show s.rxLen - 2 + 1 = s.rxLen - 1 by omega] at hcrc
  simp only [ne_eq, ← hcrc, pduDecode_unsupported_iff]
  rcases complete_cases s h4 with ⟨hm, he⟩ | ⟨hm, hw, he⟩ | ⟨hm, form, hw, he⟩
  · rw [he, if_pos (by simp [hm])]
    rfl
  · rw [he, if_neg (by simp [hm]), if_pos hw]
    rfl
  · rw [he, if_neg (by simp [hm]), if_neg (by simp [hw]), pduDecode_some hw, deliver_eq_delivering]

/-! ### The update -/

/-- Settles O37: each phase of an update from a good state goes on. -/
theorem updateRunsItsPhasesInOrder : Obligations.UpdateRunsItsPhasesInOrder := by
  intro s h
  obtain ⟨framed, sent, hframed, hsent, -, -, -, -, hupdate⟩ := h.update
  exact ⟨framed, sent, hframed, hsent, hupdate⟩

/-- The FAIL event leaves the FRAME event as it is. -/
theorem failEvent_keeps_frameEvent : ∀ ev : BitVec 2, (ev ||| 2#2) &&& 1#2 = ev &&& 1#2 := by decide

/-- Settles O38: the end check waits, and of the later phases only a response timeout touches the receiver. -/
theorem noFrameEndsWithoutSilence : Obligations.NoFrameEndsWithoutSilence := by
  intro s t _ ht hfree hquiet
  obtain ⟨h1, framed, sent, hframed, hsent, rfl⟩ := execFsmUpdate_eq_next (s := s) ht
  rw [endCheck_waits (by simpa [h1] using hfree) (by simpa [h1] using hquiet)] at hframed
  injection hframed with hframed
  subst hframed
  rw [deferredTransmit_frame hsent]
  rcases responseTimeout_cases (drain s) with ⟨he, -⟩ | ⟨hrole, hwait, hlate, he⟩
  · simp [he, h1]
  · simp only [h1, drain_params, drain_awaiting, drain_respTimeoutUs, drain_now, drain_txStampUs] at hrole hwait hlate
    simp [he, h1, hrole, hwait, hlate, failEvent_keeps_frameEvent]

/-- With no response awaited and no transmission deferred, an update is its drain and its end check. -/
theorem execFsmUpdate_of_free (h1 : 1 ≤ s.params.cap) (hframed : endCheck (drain s) = .next t) (ha : t.awaiting = false)
    (hp : t.txPending = false) : exec .fsmUpdate s = .next (t.returning .ok 0) := by
  have htimeout : responseTimeout t = t := if_neg (by simp [ha])
  show execFsmUpdate s = _
  unfold execFsmUpdate
  rw [within_of_le h1, hframed, chain_next, htimeout, deferredTransmit_waits (by simp [hp]), chain_next]
  rfl

/-- Settles O39: both are failures of the end check. -/
theorem shortAndOverlongFramesFail : Obligations.ShortAndOverlongFramesFail := by
  intro s h ha hp
  have hcap := h.cap_ge
  have h1 : 1 ≤ s.params.cap := by omega
  refine ⟨fun hst hq hlen hsil => ?short, fun hfull hst => ?overlong⟩
  case short =>
    have hframed : endCheck (drain s) = .next (s.counting.failing .timedout) := by
      rw [drain_of_empty hq]
      exact endCheck_short hst (by omega) hsil hlen
    exact execFsmUpdate_of_free h1 hframed ha hp
  case overlong =>
    have hframed := endCheck_overflow hst (by rw [drain_params h1, hfull])
    exact execFsmUpdate_of_free h1 hframed ((drain_awaiting h1).trans ha) ((drain_txPending h1).trans hp)

end Sys2Proof.Machine
end

section
/-! PROOFS. The counters and the gate flags over every step (44_framing_fsm.md R306, 45_role_gate.md section 2, 60_exceptions.md R411,
R412): what the end of a frame, a transmission and every other step do to them, each said once. -/

namespace Sys2Proof.Machine

variable {s t u : State}

/-! ### The ends of a frame -/

/-- One frame end that failed (60_exceptions.md R410). -/
structure Fails (s t : State) : Prop where
  total : t.totalFrames = s.totalFrames + 1
  failed : t.failedFrames = s.failedFrames + 1
  kind : t.failKind ≠ .none
  idle : t.rxState = .waitStation
  invalid : t.rxValid = false
  event : t.evPending.getLsbD 1 = true
  allowed : t.allowed = s.allowed
  wait : t.awaiting = true → s.awaiting = true

/-- One frame end that delivered its frame (44_framing_fsm.md R303, R304). -/
structure Delivers (s t : State) : Prop where
  total : t.totalFrames = s.totalFrames + 1
  failed : t.failedFrames = s.failedFrames
  kind : t.failKind = s.failKind
  idle : t.rxState = .waitStation
  valid : t.rxValid = true
  event : t.evPending.getLsbD 0 = true
  crc : crcMatches t.rxBuf (t.rxLen - 2) = true
  keeps : s.allowed = true → t.allowed = true
  opens : s.allowed = false → t.allowed = true → s.params.role = .slave ∧ t.rxBuf.read 0 = t.station
  wait : t.awaiting = true → s.awaiting = true
  master : t.params.role = .master → t.awaiting = false

theorem getLsbD_failEvent : ∀ ev : BitVec 2, (ev ||| 0b10#2).getLsbD 1 = true := by decide

theorem getLsbD_frameEvent : ∀ ev : BitVec 2, (ev ||| 0b01#2).getLsbD 0 = true := by decide

/-- A failure entry after the count of the frame end, whatever that count did to a master's wait. -/
theorem fails_failureEntry {kind : FailKind} (hk : kind ≠ .none) {counted : State} (htotal : counted.totalFrames = s.totalFrames + 1)
    (hfailed : counted.failedFrames = s.failedFrames) (hallowed : counted.allowed = s.allowed)
    (hwait : counted.awaiting = true → s.awaiting = true) : Fails s (failureEntry kind counted) where
  total := htotal
  failed := by rw [failureEntry_failedFrames, hfailed]
  kind := hk
  idle := rfl
  invalid := rfl
  event := getLsbD_failEvent _
  allowed := hallowed
  wait := hwait

theorem frameCounted_wait (h : (frameCounted s).awaiting = true) : s.awaiting = true := by
  unfold frameCounted at h
  dsimp only at h
  split at h
  · cases h
  · exact h

theorem delivers_deliver (hcrc : crcMatches s.rxBuf (s.rxLen - 2) = true) (view : View) :
    Delivers s (deliver (s.rxBuf.read 0) view (frameCounted s)) where
  total := rfl
  failed := rfl
  kind := rfl
  idle := rfl
  valid := rfl
  event := getLsbD_frameEvent _
  crc := hcrc
  keeps h := by simp [frameCounted, h]
  opens h h' := by simpa [frameCounted, h] using h'
  wait := frameCounted_wait
  master h := if_pos h

/-- The end check does nothing, fails the frame or delivers it. -/
theorem endCheck_fails_or_delivers (h : endCheck s = .next t) : t = s ∨ Fails s t ∨ Delivers s t := by
  have fails {kind : FailKind} (hk : kind ≠ .none) : Fails s (raiseFailure kind s) := fails_failureEntry hk rfl rfl rfl id
  have completionFails {kind : FailKind} (hk : kind ≠ .none) : Fails s (failureEntry kind (frameCounted s)) :=
    fails_failureEntry hk rfl rfl rfl frameCounted_wait
  rcases endCheck_cases s with ⟨-, he⟩ | ⟨-, -, he⟩ | ⟨-, -, -, -, he⟩ | ⟨-, -, -, h4, he⟩
  · rw [he] at h; injection h with h
    exact .inl h.symm
  · rw [he] at h; injection h with h
    exact .inr (.inl (h ▸ fails (by decide)))
  · rw [he] at h; injection h with h
    exact .inr (.inl (h ▸ fails (by decide)))
  · rw [he] at h
    rcases complete_cases s h4 with ⟨-, hc⟩ | ⟨-, -, hc⟩ | ⟨hcrc, form, -, hc⟩
    · rw [hc] at h; injection h with h
      exact .inr (.inl (h ▸ completionFails (by decide)))
    · rw [hc] at h; injection h with h
      exact .inr (.inl (h ▸ completionFails (by decide)))
    · rw [hc] at h; injection h with h
      exact .inr (.inr (h ▸ delivers_deliver hcrc _))

/-- The response timeout does nothing, or is a failure of a waiting master. -/
theorem responseTimeout_fails (s : State) : responseTimeout s = s ∨
    (s.params.role = .master ∧ s.awaiting = true ∧ Fails s (responseTimeout s)) := by
  rcases responseTimeout_cases s with ⟨he, -⟩ | ⟨hr, ha, -, he⟩
  · exact .inl he
  · exact .inr ⟨hr, ha, he ▸ fails_failureEntry (by decide) rfl rfl rfl nofun⟩

/-- The frame ends of one update: a delivery ends the wait, so no timeout follows it. -/
inductive FrameEnds (s t : State) : Prop
  | none (h : t = s)
  | failure (h : Fails s t)
  | twoFailures {u : State} (h : Fails s u) (h' : Fails u t)
  | delivery (h : Delivers s t)

theorem frameEnds_of_endCheck (h : endCheck s = .next t) : FrameEnds s (responseTimeout t) := by
  rcases responseTimeout_fails t with he | ⟨hr, ha, hlate⟩
  · rw [he]
    rcases endCheck_fails_or_delivers h with hkeeps | hfails | hdelivers
    · exact .none hkeeps
    · exact .failure hfails
    · exact .delivery hdelivers
  · rcases endCheck_fails_or_delivers h with rfl | hfails | hdelivers
    · exact .failure hlate
    · exact .twoFailures hfails hlate
    · rw [hdelivers.master hr] at ha
      cases ha

/-! ### The frame ends and the gate flags -/

theorem FrameEnds.keeps_allowed (h : FrameEnds s t) (ha : s.allowed = true) : t.allowed = true := by
  cases h with
  | none h => rw [h, ha]
  | failure h => rw [h.allowed, ha]
  | twoFailures h h' => rw [h'.allowed, h.allowed, ha]
  | delivery h => exact h.keeps ha

theorem FrameEnds.delivers_of_opens (h : FrameEnds s t) (ha : s.allowed = false) (ht : t.allowed = true) : Delivers s t := by
  have shut (he : t.allowed = s.allowed) : Delivers s t := absurd (ht.symm.trans (he.trans ha)) (by decide)
  cases h with
  | none h => exact shut (h ▸ rfl)
  | failure h => exact shut h.allowed
  | twoFailures h h' => exact shut (h'.allowed.trans h.allowed)
  | delivery h => exact h

theorem FrameEnds.wait (h : FrameEnds s t) (ha : t.awaiting = true) : s.awaiting = true := by
  cases h with
  | none h => exact h ▸ ha
  | failure h => exact h.wait ha
  | twoFailures h h' => exact h.wait (h'.wait ha)
  | delivery h => exact h.wait ha

/-- Every frame end is counted (60_exceptions.md R411). -/
theorem FrameEnds.counted_of_ended_wait (h : FrameEnds s t) (hs : s.awaiting = true) (ht : t.awaiting = false) :
    t.totalFrames ≠ s.totalFrames := by
  cases h with
  | none h => rw [h, hs] at ht; cases ht
  | failure h => rw [h.total]; bv_omega
  | twoFailures h h' => rw [h'.total, h.total]; bv_omega
  | delivery h => rw [h.total]; bv_omega

/-! ### The frame ends and the counters -/

/-- `ends` frame ends and `fails` failures lie between two states, and the events say so. -/
structure FrameCounts (s t : State) (ends fails : Nat) : Prop where
  which : (ends = fails ∧ ends ≤ 2) ∨ (ends = 1 ∧ fails = 0)
  total : t.totalFrames = s.totalFrames + BitVec.ofNat 32 ends
  failed : t.failedFrames = s.failedFrames + BitVec.ofNat 32 fails
  idle : 0 < ends → t.rxState = .waitStation
  failure : 0 < fails → t.evPending.getLsbD 1 = true ∧ t.failKind ≠ .none ∧ t.rxValid = false
  delivery : fails < ends → t.evPending.getLsbD 0 = true ∧ t.rxValid = true ∧ t.failKind = s.failKind

theorem frameCounts_zero (htotal : t.totalFrames = s.totalFrames) (hfailed : t.failedFrames = s.failedFrames) :
    FrameCounts s t 0 0 where
  which := .inl ⟨rfl, by decide⟩
  total := by simp [htotal]
  failed := by simp [hfailed]
  idle h := absurd h (by decide)
  failure h := absurd h (by decide)
  delivery h := absurd h (by decide)

/-- A failure counts one more on both counters. -/
theorem Fails.frameCounts_succ {n : Nat} (h : Fails u t) (hn : n ≤ 1) (hu : FrameCounts s u n n) : FrameCounts s t (n + 1) (n + 1) where
  which := .inl ⟨rfl, by omega⟩
  total := by rw [h.total, hu.total, BitVec.ofNat_add, BitVec.add_assoc]; rfl
  failed := by rw [h.failed, hu.failed, BitVec.ofNat_add, BitVec.add_assoc]; rfl
  idle _ := h.idle
  failure _ := ⟨h.event, h.kind, h.invalid⟩
  delivery hlt := absurd hlt (Nat.lt_irrefl _)

theorem Delivers.frameCounts (h : Delivers s t) : FrameCounts s t 1 0 where
  which := .inr ⟨rfl, rfl⟩
  total := h.total
  failed := by simp [h.failed]
  idle _ := h.idle
  failure hlt := absurd hlt (Nat.lt_irrefl _)
  delivery _ := ⟨h.event, h.valid, h.kind⟩

theorem FrameEnds.frameCounts (h : FrameEnds s t) : ∃ ends fails, FrameCounts s t ends fails := by
  have zero : FrameCounts s s 0 0 := frameCounts_zero rfl rfl
  cases h with
  | none h => exact ⟨0, 0, h ▸ zero⟩
  | failure h => exact ⟨1, 1, h.frameCounts_succ (by decide) zero⟩
  | twoFailures h h' => exact ⟨2, 2, h'.frameCounts_succ (by decide) (h.frameCounts_succ (by decide) zero)⟩
  | delivery h => exact ⟨1, 0, h.frameCounts⟩

/-- Failures never outnumber frame ends before a wrap (60_exceptions.md R412). -/
theorem FrameCounts.failed_le {ends fails : Nat} (h : FrameCounts s t ends fails)
    (hle : s.failedFrames.toNat ≤ s.totalFrames.toNat) (hwrap : s.totalFrames.toNat + ends < 2 ^ 32) :
    t.failedFrames.toNat ≤ t.totalFrames.toNat := by
  have hfails : fails ≤ ends := by
    rcases h.which with ⟨he, -⟩ | ⟨he, hf⟩ <;> omega
  rw [h.failed, h.total, BitVec.toNat_add, BitVec.toNat_add, BitVec.toNat_ofNat, BitVec.toNat_ofNat]
  omega

/-! ### A transmission -/

/-- A transmission appends to the log and closes the gate of the role (45_role_gate.md R335, R336, R337). -/
structure Sends (s t : State) : Prop where
  log : t.txlog ≠ s.txlog
  master : s.params.role = .master → t.allowed = s.allowed ∧ t.awaiting = true ∧ t.txStampUs = s.now
  slave : s.params.role = .slave → t.allowed = false ∧ t.awaiting = s.awaiting

theorem sends_sentState (target : Byte) (s : State) : Sends s (sentState target s) where
  log := by simp [sentState, txGroup]
  master h := by simp [sentState, h]
  slave h := by simp [sentState, h]

theorem Sends.not_opens (h : Sends s t) (hs : s.allowed = false) : t.allowed = false := by
  cases hr : s.params.role with
  | master => rw [(h.master hr).1, hs]
  | slave => exact (h.slave hr).1

theorem Sends.not_ends_wait (h : Sends s t) (hs : s.awaiting = true) : t.awaiting = true := by
  cases hr : s.params.role with
  | master => exact (h.master hr).2.1
  | slave => rw [(h.slave hr).2, hs]

/-- Only a master's transmission begins a wait, stamped with the time (45_role_gate.md R336). -/
theorem Sends.arms (h : Sends s t) (hs : s.awaiting = false) (ht : t.awaiting = true) :
    s.params.role = .master ∧ t.txlog ≠ s.txlog ∧ t.txStampUs = s.now := by
  cases hr : s.params.role with
  | master => exact ⟨rfl, h.log, (h.master hr).2.2⟩
  | slave =>
    rw [(h.slave hr).2, hs] at ht
    cases ht

/-- The deferred transmission leaves the gate flags alone, or transmits. -/
theorem deferredTransmit_sends_or (h : deferredTransmit s = .next t) :
    (t.allowed = s.allowed ∧ t.awaiting = s.awaiting) ∨ Sends s t := by
  rcases deferredTransmit_eq_next h with ⟨rfl, -⟩ | ⟨-, -, -, rfl⟩ | ⟨-, -, -, -, rfl⟩
  · exact .inl ⟨rfl, rfl⟩
  · exact .inl ⟨rfl, rfl⟩
  · obtain ⟨hlog, hmaster, hslave⟩ := sends_sentState s.pendingTarget { s with txPending := false }
    exact .inr ⟨hlog, hmaster, hslave⟩

/-! ### An update -/

/-- An update is its frame ends, which leave the clock and the transmit log, and then its deferred transmission. -/
theorem execFsmUpdate_frameEnds (h : execFsmUpdate s = .next t) : 1 ≤ s.params.cap ∧ ∃ timed sent,
    FrameEnds (drain s) timed ∧ timed.params = s.params ∧ timed.now = s.now ∧ timed.txlog = s.txlog ∧
      deferredTransmit timed = .next sent ∧ t = sent.returning .ok 0 := by
  obtain ⟨h1, framed, sent, hframed, hsent, rfl⟩ := execFsmUpdate_eq_next h
  refine ⟨h1, responseTimeout framed, sent, frameEnds_of_endCheck hframed, ?_, ?_, ?_, hsent, rfl⟩
  · rw [responseTimeout_frame, endCheck_frame hframed, drain_params h1]
  · rw [responseTimeout_frame, endCheck_frame hframed, drain_now h1]
  · rw [responseTimeout_frame, endCheck_frame hframed, drain_txlog h1]

theorem execFsmUpdate_frameCounts (h : execFsmUpdate s = .next t) : ∃ ends fails, FrameCounts s t ends fails := by
  obtain ⟨h1, timed, sent, hends, -, -, -, hsent, rfl⟩ := execFsmUpdate_frameEnds h
  obtain ⟨ends, fails, hwhich, htotal, hfailed, hidle, hfailure, hdelivery⟩ := hends.frameCounts
  rw [drain_totalFrames h1] at htotal
  rw [drain_failedFrames h1] at hfailed
  rw [drain_failKind h1] at hdelivery
  refine ⟨ends, fails, ?_⟩
  rw [deferredTransmit_frame hsent]
  exact ⟨hwhich, htotal, hfailed, hidle, hfailure, hdelivery⟩

/-- A slave's reply gate opens in an update by the delivery of a frame for its own station. -/
theorem execFsmUpdate_opens (h : execFsmUpdate s = .next t) (hs : s.allowed = false) (ht : t.allowed = true) :
    s.params.role = .slave ∧ t.rxValid = true ∧ t.rxBuf.read 0 = t.station ∧ crcMatches t.rxBuf (t.rxLen - 2) = true ∧
      t.totalFrames = s.totalFrames + 1 ∧ t.failedFrames = s.failedFrames := by
  obtain ⟨h1, timed, sent, hends, -, -, -, hsent, rfl⟩ := execFsmUpdate_frameEnds h
  change sent.allowed = true at ht
  have hs' : (drain s).allowed = false := (drain_allowed h1).trans hs
  have htimed : timed.allowed = true := by
    rcases deferredTransmit_sends_or hsent with ⟨ha, -⟩ | hsends
    · exact ha ▸ ht
    · exact Bool.eq_true_of_not_eq_false fun hc => by simp [hsends.not_opens hc] at ht
  have hdelivers := hends.delivers_of_opens hs' htimed
  obtain ⟨hrole, hstation⟩ := hdelivers.opens hs' htimed
  have htotal := hdelivers.total
  have hfailed := hdelivers.failed
  rw [drain_params h1] at hrole
  rw [drain_totalFrames h1] at htotal
  rw [drain_failedFrames h1] at hfailed
  rw [deferredTransmit_frame hsent]
  exact ⟨hrole, hdelivers.valid, hstation, hdelivers.crc, htotal, hfailed⟩

/-- The reply gate closes in an update by a transmission. -/
theorem execFsmUpdate_closes (h : execFsmUpdate s = .next t) (hs : s.allowed = true) (ht : t.allowed = false) :
    t.txlog ≠ s.txlog := by
  obtain ⟨h1, timed, sent, hends, -, -, hlog, hsent, rfl⟩ := execFsmUpdate_frameEnds h
  have htimed : timed.allowed = true := hends.keeps_allowed ((drain_allowed h1).trans hs)
  rcases deferredTransmit_sends_or hsent with ⟨ha, -⟩ | hsends
  · exact absurd (htimed.symm.trans (ha.symm.trans ht)) (by decide)
  · exact hlog ▸ hsends.log

/-- A master's wait begins in an update by a transmission. -/
theorem execFsmUpdate_arms (h : execFsmUpdate s = .next t) (hs : s.awaiting = false) (ht : t.awaiting = true) :
    s.params.role = .master ∧ t.txlog ≠ s.txlog ∧ t.txStampUs = s.now := by
  obtain ⟨h1, timed, sent, hends, hparams, hnow, hlog, hsent, rfl⟩ := execFsmUpdate_frameEnds h
  change sent.awaiting = true at ht
  have htimed : timed.awaiting = false := Bool.eq_false_of_not_eq_true fun hc => by
    simp [← drain_awaiting h1, hends.wait hc] at hs
  rcases deferredTransmit_sends_or hsent with ⟨-, ha⟩ | hsends
  · exact absurd (htimed.symm.trans (ha.symm.trans ht)) (by decide)
  · obtain ⟨hrole, hne, hstamp⟩ := hsends.arms htimed ht
    exact ⟨hparams ▸ hrole, hlog ▸ hne, hnow ▸ hstamp⟩

/-- A master's wait ends in an update with a counted frame end. -/
theorem execFsmUpdate_ends_wait (h : execFsmUpdate s = .next t) (hs : s.awaiting = true) (ht : t.awaiting = false) :
    t.totalFrames ≠ s.totalFrames := by
  obtain ⟨h1, timed, sent, hends, -, -, -, hsent, rfl⟩ := execFsmUpdate_frameEnds h
  change sent.awaiting = false at ht
  have htimed : timed.awaiting = false := by
    rcases deferredTransmit_sends_or hsent with ⟨-, ha⟩ | hsends
    · exact ha ▸ ht
    · exact Bool.eq_false_of_not_eq_true fun hc => by simp [hsends.not_ends_wait hc] at ht
  have hcounted := hends.counted_of_ended_wait ((drain_awaiting h1).trans hs) htimed
  rw [drain_totalFrames h1] at hcounted
  rw [deferredTransmit_frame hsent]
  exact hcounted

/-! ### Every step -/

/-- The next step is the host's write of the opcode `op` to CMD_OP. -/
def State.runs (s : State) (op : Byte) : Prop := ∃ value, s.inputs.head? = some (.write 0x00 value) ∧ value.setWidth 8 = op

/-- Both counters are as before. -/
def CountersKept (s t : State) : Prop := t.totalFrames = s.totalFrames ∧ t.failedFrames = s.failedFrames

/-- Both gate flags are as before. -/
def GatesKept (s t : State) : Prop := t.allowed = s.allowed ∧ t.awaiting = s.awaiting

/-- What a command can do to the counters and the gate flags. -/
inductive CommandMoves (i : Instr) (s t : State) : Prop
  | keeps (hc : CountersKept s t) (hg : GatesKept s t)
  | sends (hc : CountersKept s t) (hs : Sends s t)
  | softResets (hi : i = .sysSoftreset) (hc : CountersKept s t) (hg : t.allowed = false ∧ t.awaiting = false)
  | updates (hi : i = .fsmUpdate) (h : execFsmUpdate s = .next t)

theorem execRoleXmit_moves {target : Byte} (h : execRoleXmit target s = .next t) : CommandMoves (.roleXmit target) s t := by
  rcases execRoleXmit_eq_next h with ⟨-, rfl⟩ | ⟨-, rfl⟩
  · exact .keeps ⟨rfl, rfl⟩ ⟨rfl, rfl⟩
  · obtain ⟨hlog, hmaster, hslave⟩ := sends_sentState target s
    exact .sends ⟨rfl, rfl⟩ ⟨hlog, hmaster, hslave⟩

/-- Of the commands only FSM.UPDATE, SYS.SOFTRESET and ROLE.XMIT move a counter or a gate flag. -/
theorem exec_moves {i : Instr} (hw : i.isWire = false) (h : exec i s = .next t) : CommandMoves i s t := by
  have kept (ht : CountersKept s t ∧ GatesKept s t) : CommandMoves i s t := .keeps ht.1 ht.2
  cases exec_effect hw h with
  | answers ht => exact kept (by rw [ht]; exact ⟨⟨rfl, rfl⟩, rfl, rfl⟩)
  | edits _ ht | creates _ ht | defers _ ht | accumulates _ ht | setsBaud _ ht | setsSilence _ ht | setsSendback _ ht
  | setsTimeout _ ht | setsStation _ ht | acknowledges _ ht | masks _ ht =>
    exact kept (by rw [ht]; exact ⟨⟨rfl, rfl⟩, rfl, rfl⟩)
  | stores _ _ ht => exact kept (by rw [ht]; exact ⟨⟨rfl, rfl⟩, rfl, rfl⟩)
  | updates hi _ => exact .updates hi (by rw [hi] at h; exact h)
  | transmits hi _ =>
    cases i with
    | roleXmit target => exact execRoleXmit_moves h
    | _ => cases hi
  | resets hi _ =>
    subst hi
    injection h with h
    exact .softResets rfl (h ▸ ⟨rfl, rfl⟩) (h ▸ ⟨rfl, rfl⟩)

/-- What a step can do to the counters and the gate flags. -/
inductive StepMoves (s t : State) : Prop
  | keeps (hc : CountersKept s t) (hg : GatesKept s t)
  | sends (hc : CountersKept s t) (hs : Sends s t)
  | softResets (hin : s.runs 0x48#8) (hc : CountersKept s t) (hg : t.allowed = false ∧ t.awaiting = false)
  | hardResets (hin : s.inputs.head? = some .reset) (hc : t.totalFrames = 0 ∧ t.failedFrames = 0)
      (hg : t.allowed = false ∧ t.awaiting = false)
  | updates (hin : s.runs 0x30#8) {rest : List Input} {count : Nat}
      (h : execFsmUpdate { s with inputs := rest, freeCount := count } = .next t)

/-- A command without operands is decoded from its own opcode alone (30_encoding.md R112). -/
theorem opcode_of_decodeCommand {op op' : Byte} {arg0 arg1 : Word} {i : Instr} (h : decodeCommand op arg0 arg1 = .ok i)
    (hi : encode i = .command op' 0 0) : op = op' := by
  have he := (commandDecodeReadsExactlyTheListedBits op arg0 arg1 i h).1
  rw [hi] at he
  injection he with he
  exact he.symm

theorem eq_zero_of_registerAt_cmdOp {offset : Nat} (h : registerAt offset = some .cmdOp) : offset = 0 := by
  have hall : ∀ p ∈ registerTable, p.2 = .cmdOp → p.1 = 0 := by decide
  obtain ⟨l₁, l₂, hl, -⟩ := List.lookup_eq_some_iff.1 h
  exact hall (offset, .cmdOp) (by rw [hl]; simp) rfl

theorem writePort_moves {offset : Nat} {value : Word} {rest : List Input} (hin : s.inputs = .write offset value :: rest)
    (h : writePort offset value (takeInput (.write offset value) rest s) = .next t) : StepMoves s t := by
  unfold writePort at h
  split at h
  · rename_i hr
    obtain rfl := eq_zero_of_registerAt_cmdOp hr
    have hruns : s.runs (value.setWidth 8) := ⟨value, by rw [hin]; rfl, rfl⟩
    unfold runCommand at h
    split at h
    · rename_i i hdec
      cases exec_moves (isWire_of_decodeCommand hdec) h with
      | keeps hc hg => exact .keeps hc hg
      | sends hc hs => exact .sends hc ⟨hs.log, hs.master, hs.slave⟩
      | softResets hi hc hg => exact .softResets (opcode_of_decodeCommand hdec (by rw [hi]; rfl) ▸ hruns) hc hg
      | updates hi h => exact .updates (opcode_of_decodeCommand hdec (by rw [hi]; rfl) ▸ hruns) h
    · injection h with h
      exact .keeps (h ▸ ⟨rfl, rfl⟩) (h ▸ ⟨rfl, rfl⟩)
  · rename_i r _ _
    injection h with h
    subst h
    cases r <;> exact .keeps ⟨rfl, rfl⟩ ⟨rfl, rfl⟩
  · cases h

theorem step_moves (h : step s = .next t) : StepMoves s t := by
  cases hin : s.inputs with
  | nil =>
    unfold step at h
    rw [hin] at h
    injection h with h
    exact .keeps (h ▸ ⟨rfl, rfl⟩) (h ▸ ⟨rfl, rfl⟩)
  | cons i rest =>
    rw [step_cons hin] at h
    cases i with
    | tick n | arrive b =>
      injection h with h
      exact .keeps (h ▸ ⟨rfl, rfl⟩) (h ▸ ⟨rfl, rfl⟩)
    | write offset value => exact writePort_moves hin h
    | read offset =>
      change readPort offset _ = _ at h
      unfold readPort at h
      split at h
      · injection h with h
        exact .keeps (h ▸ ⟨rfl, rfl⟩) (h ▸ ⟨rfl, rfl⟩)
      · cases h
    | reset =>
      injection h with h
      exact .hardResets (by rw [hin]; rfl) (h ▸ ⟨rfl, rfl⟩) (h ▸ ⟨rfl, rfl⟩)

/-- A step is a hard reset, or counts its frame ends, of which only an update has any. -/
theorem step_frameCounts (h : step s = .next t) : (s.inputs.head? = some .reset ∧ t.totalFrames = 0 ∧ t.failedFrames = 0) ∨
    ∃ ends fails, FrameCounts s t ends fails ∧ (0 < ends → s.runs 0x30#8) := by
  have kept (hc : CountersKept s t) : ∃ ends fails, FrameCounts s t ends fails ∧ (0 < ends → s.runs 0x30#8) :=
    ⟨0, 0, frameCounts_zero hc.1 hc.2, fun h0 => absurd h0 (by decide)⟩
  cases step_moves h with
  | keeps hc _ => exact .inr (kept hc)
  | sends hc _ => exact .inr (kept hc)
  | softResets _ hc _ => exact .inr (kept hc)
  | hardResets hin hc _ => exact .inl ⟨hin, hc⟩
  | updates hin h =>
    obtain ⟨ends, fails, hwhich, htotal, hfailed, hidle, hfailure, hdelivery⟩ := execFsmUpdate_frameCounts h
    exact .inr ⟨ends, fails, ⟨hwhich, htotal, hfailed, hidle, hfailure, hdelivery⟩, fun _ => hin⟩

/-- Settles O40: only an update and a hard reset move a counter, and an update counts its frame ends. -/
theorem countersCountFrameEndsAndFailures : Obligations.CountersCountFrameEndsAndFailures := by
  intro s t _ ht
  rcases step_frameCounts ht with hreset | ⟨ends, fails, h, hin⟩
  · exact .inl hreset
  · exact .inr ⟨ends, fails, h.which, h.total, h.failed, fun h0 => ⟨hin h0, h.idle h0⟩, h.failure, h.delivery, h.failed_le⟩

/-- Settles O47: the gate flags move in an update, with a transmission, and with either reset. -/
theorem gateFlagsMoveOnlyAsTheRulesSay : Obligations.GateFlagsMoveOnlyAsTheRulesSay := by
  intro s t _ ht
  cases step_moves ht with
  | keeps _ hg =>
    obtain ⟨ha, hw⟩ := hg
    exact ⟨fun hs ht => by simp [ha, hs] at ht, fun hs ht => by simp [ha, hs] at ht, fun hs ht => by simp [hw, hs] at ht,
      fun hs ht => by simp [hw, hs] at ht⟩
  | sends _ hsends =>
    exact ⟨fun hs ht => by simp [hsends.not_opens hs] at ht, fun _ _ => .inl hsends.log, hsends.arms,
      fun hs ht => by simp [hsends.not_ends_wait hs] at ht⟩
  | softResets hin _ hg =>
    obtain ⟨ha, hw⟩ := hg
    exact ⟨fun _ ht => by simp [ha] at ht, fun _ _ => .inr (.inr hin), fun _ ht => by simp [hw] at ht,
      fun _ _ => .inr (.inr hin)⟩
  | hardResets hin _ hg =>
    obtain ⟨ha, hw⟩ := hg
    exact ⟨fun _ ht => by simp [ha] at ht, fun _ _ => .inr (.inl hin), fun _ ht => by simp [hw] at ht,
      fun _ _ => .inr (.inl hin)⟩
  | updates _ h =>
    have opens := execFsmUpdate_opens h
    have closes := execFsmUpdate_closes h
    have arms := execFsmUpdate_arms h
    have ends := execFsmUpdate_ends_wait h
    exact ⟨opens, fun hs ht => .inl (closes hs ht), arms, fun hs ht => .inl (ends hs ht)⟩

end Sys2Proof.Machine
end

section
/-! PROOFS. The role gate (45_role_gate.md): what it asks, what the three ROLE commands answer, the response timeout, and that no frame
is handed to the transport but one the gate admitted. -/

namespace Sys2Proof.Machine

variable {s t : State} {target : Byte}

/-! ### The gate -/

/-- The role permits a transmission to the target (45_role_gate.md R331, R344); a slave has no target. -/
def State.Admits (s : State) (target : Byte) : Prop :=
  (s.params.role = .master → s.awaiting = false ∧ target.toNat ≤ 247) ∧ (s.params.role = .slave → s.allowed = true)

theorem availTx_eq_true_iff : availTx s = true ↔
    s.txPending = false ∧ (s.params.role = .master → s.awaiting = false) ∧ (s.params.role = .slave → s.allowed = true) := by
  unfold availTx
  cases hr : s.params.role <;> simp

theorem availTx_eq_false (h : s.txPending = true ∨ (s.params.role = .master ∧ s.awaiting = true) ∨
    (s.params.role = .slave ∧ s.allowed = false)) : availTx s = false := by
  refine Bool.eq_false_iff.2 fun hav => ?_
  obtain ⟨hp, hmaster, hslave⟩ := availTx_eq_true hav
  rcases h with h | ⟨hr, h⟩ | ⟨hr, h⟩
  · simp [hp] at h
  · simp [hmaster hr] at h
  · simp [hslave hr] at h

theorem gate_noFrame (hn : s.txVariant = .none) (target : Byte) : gate target s = .noFrame := if_pos hn

theorem gate_badArg (hn : s.txVariant ≠ .none) (hr : s.params.role = .master) (ht : 247 < target.toNat) :
    gate target s = .badArg := by
  unfold gate
  rw [if_neg hn, if_pos ⟨hr, ht⟩]

theorem gate_busy (hn : s.txVariant ≠ .none) (ht : s.params.role = .master → target.toNat ≤ 247) (hav : availTx s = false) :
    gate target s = .busy := by
  unfold gate
  rw [if_neg hn, if_neg fun hc => Nat.not_lt_of_le (ht hc.1) hc.2, if_pos hav]

/-- The gate is open to a frame with no other one pending that the role permits. -/
theorem gate_eq_ok_iff : gate target s = .ok ↔ s.txVariant ≠ .none ∧ s.txPending = false ∧ s.Admits target := by
  constructor
  · intro h
    obtain ⟨hn, htarget, hav⟩ := gate_ok h
    obtain ⟨hp, hmaster, hslave⟩ := availTx_eq_true hav
    exact ⟨hn, hp, fun hr => ⟨hmaster hr, Nat.le_of_not_lt fun hlt => htarget ⟨hr, hlt⟩⟩, hslave⟩
  · rintro ⟨hn, hp, hmaster, hslave⟩
    have hav : availTx s = true := availTx_eq_true_iff.2 ⟨hp, fun hr => (hmaster hr).1, hslave⟩
    unfold gate
    rw [if_neg hn, if_neg fun hc => Nat.not_lt_of_le (hmaster hc.1).2 hc.2, if_neg (by simp [hav])]

/-! ### The commands -/

/-- Both transmit commands answer a closed gate with its code and do nothing else. -/
theorem exec_of_gate_closed {i : Instr} {code : ResultCode} (hi : i ∈ [.roleXmit target, .roleXmitdef target])
    (hg : gate target s = code) (hc : code ≠ .ok) : exec i s = .next (s.returning code 0) := by
  simp only [List.mem_cons, List.not_mem_nil, or_false] at hi
  rcases hi with rfl | rfl
  · show execRoleXmit target s = _
    unfold execRoleXmit
    rw [hg]
    cases code with
    | ok => exact absurd rfl hc
    | _ => rfl
  · show execRoleXmitdef target s = _
    unfold execRoleXmitdef
    rw [hg]
    cases code with
    | ok => exact absurd rfl hc
    | _ => rfl

theorem exec_roleXmitdef (hg : gate target s = .ok) : exec (.roleXmitdef target) s =
    .next { s with
      txPending := true, pendingTarget := if s.params.role = .master then target else 0, result := .ok, rdata := 0 } := by
  show execRoleXmitdef target s = _
  unfold execRoleXmitdef
  rw [hg]
  rfl

/-- In a good state the envelope lies inside CAP, so an open gate always sends. -/
theorem State.Inv.exec_roleXmit (h : s.Inv) (hg : gate target s = .ok) :
    exec (.roleXmit target) s = .next ((sentState target s).returning .ok 0) := by
  obtain ⟨hn, -, -⟩ := gate_eq_ok_iff.1 hg
  show execRoleXmit target s = _
  unfold execRoleXmit
  rw [hg, doXmit_eq (h.txLen_le hn)]
  rfl

theorem sentStation_master (hr : s.params.role = .master) : sentStation target s = target := if_pos hr

theorem sentStation_slave (hr : s.params.role = .slave) : sentStation target s = s.station := if_neg (by simp [hr])

theorem State.Inv.sentBuffer (h : s.Inv) (hn : s.txVariant ≠ .none) (target : Byte) :
    SentBuffer (sentStation target s) s.txLen s.txBuf (sentState target s).txBuf :=
  sentBuffer_sentBuf _ (Nat.le_trans (by decide) (h.three_le_txLen hn)) _

/-- Settles O42: the gate's refusals in its order, which both transmit commands answer. -/
theorem gateAnswersAndRefuses : Obligations.GateAnswersAndRefuses := by
  intro s target i hi
  have refuses {code : ResultCode} (hg : gate target s = code) (hc : code ≠ .ok) := exec_of_gate_closed hi hg hc
  refine ⟨?_, fun hn => refuses (gate_noFrame hn target) (by decide),
    fun hn hr ht => refuses (gate_badArg hn hr ht) (by decide), fun hn hr ht hbusy => ?_, fun hn hr hbusy => ?_⟩
  · simp only [← availTx_eq_true_iff]
    rfl
  · have hav := availTx_eq_false (hbusy.imp_right fun ha => .inl ⟨hr, ha⟩)
    exact refuses (gate_busy hn (fun _ => ht) hav) (by decide)
  · have hav := availTx_eq_false (hbusy.imp_right fun ha => .inr ⟨hr, ha⟩)
    exact refuses (gate_busy hn (fun hm => by simp [hr] at hm) hav) (by decide)

/-- Settles O45: the gate of the role is open, and the command records. -/
theorem deferredTransmitRecordsTheIntent : Obligations.DeferredTransmitRecordsTheIntent := by
  intro s target hn hp
  refine ⟨fun hr ht ha => ?_, fun hr ha => ?_⟩
  · have hg : gate target s = .ok := gate_eq_ok_iff.2 ⟨hn, hp, fun _ => ⟨ha, ht⟩, by simp [hr]⟩
    rw [exec_roleXmitdef hg, if_pos hr]
  · have hg : gate target s = .ok := gate_eq_ok_iff.2 ⟨hn, hp, by simp [hr], fun _ => ha⟩
    rw [exec_roleXmitdef hg, if_neg (by simp [hr])]

/-- Settles O43: an open gate sends `sentState`, read for a master. -/
theorem masterTransmitSendsAndArms : Obligations.MasterTransmitSendsAndArms := by
  intro s target h hr hn ht hp ha
  have hg : gate target s = .ok := gate_eq_ok_iff.2 ⟨hn, hp, fun _ => ⟨ha, ht⟩, by simp [hr]⟩
  have hsent := h.sentBuffer hn target
  rw [sentStation_master hr] at hsent
  refine ⟨_, h.exec_roleXmit hg, ?_, hsent⟩
  simp [sentState, State.returning, txGroup, aduBytes, hr]

/-- Settles O44: an open gate sends `sentState`, read for a slave. -/
theorem slaveTransmitSendsAndDisarms : Obligations.SlaveTransmitSendsAndDisarms := by
  intro s target h hr hn hp ha
  have hg : gate target s = .ok := gate_eq_ok_iff.2 ⟨hn, hp, by simp [hr], fun _ => ha⟩
  have hsent := h.sentBuffer hn target
  rw [sentStation_slave hr] at hsent
  refine ⟨_, h.exec_roleXmit hg, ?_, hsent⟩
  simp [sentState, State.returning, txGroup, aduBytes, hr]

/-! ### The response timeout -/

/-- Settles O41: the condition of the timeout, and its failure entry. -/
theorem responseTimeoutEndsTheWait : Obligations.ResponseTimeoutEndsTheWait := by
  intro s waited hwaited
  rw [← elapsed_eq_mod] at hwaited
  subst hwaited
  refine ⟨fun hquiet => if_neg fun ⟨hr, ha, hlate⟩ => ?_, fun hr ha hlate => if_pos ⟨hr, ha, hlate⟩⟩
  rcases hquiet with hr' | ha' | hearly
  · simp [hr] at hr'
  · simp [ha] at ha'
  · exact Nat.not_lt_of_le hlate hearly

/-! ### The frame that is sent -/

/-- The bytes a transmission hands to the transport (45_role_gate.md R335). -/
def sentFrame (target : Byte) (s : State) : List Byte := aduBytes (sentBuf (sentStation target s) s.txLen s.txBuf) s.txLen

@[simp] theorem length_sentFrame (target : Byte) (s : State) : (sentFrame target s).length = s.txLen + 2 := Buf.length_slice ..

theorem head?_sentFrame (hlen : 1 ≤ s.txLen) : (sentFrame target s).head? = some (sentStation target s) := by
  unfold sentFrame aduBytes
  rw [Buf.slice_succ, List.head?_cons, sentBuf_read _ _ hlen, if_pos rfl]

theorem sentFrame_crc (target : Byte) (s : State) :
    (sentFrame target s).drop s.txLen = crcBytes ((sentFrame target s).take s.txLen) := sentBuf_crc ..

/-- A transmission between two states: the gate of the first admitted the target, its envelope went out, and the gate of the role is
closed (45_role_gate.md R335, R336, R337). -/
structure Transmits (s t : State) (target : Byte) : Prop where
  envelope : s.txVariant ≠ .none
  admitted : s.Admits target
  log : t.txlog = s.txlog ++ txGroup (sentFrame target s)
  arms : s.params.role = .master → t.awaiting = true
  disarms : s.params.role = .slave → t.allowed = false

theorem transmits_sentState (hn : s.txVariant ≠ .none) (ha : s.Admits target) : Transmits s (sentState target s) target where
  envelope := hn
  admitted := ha
  log := rfl
  arms hr := if_pos hr
  disarms hr := if_neg (by simp [hr])

/-! ### A deferred transmission -/

/-- A good state still admits what it has deferred (45_role_gate.md R341). -/
theorem State.Inv.admits_pendingTarget (h : s.Inv) (hp : s.txPending = true) : s.Admits s.pendingTarget := by
  obtain ⟨master, slave⟩ := State.gatesOk_iff.1 h.gates
  refine ⟨fun hr => ?_, fun hr => ?_⟩
  · obtain ⟨-, -, hle, hfree⟩ := master hr
    exact ⟨hfree hp, hle⟩
  · obtain ⟨-, -, -, hallowed⟩ := slave hr
    exact hallowed hp

/-- Nothing but what the first three phases of an update write differs: the envelope, the deferred request and the log are kept. -/
def OnlyReceives (s t : State) : Prop :=
  t = { s with
    rxBuf := t.rxBuf, rxq := t.rxq, rxLen := t.rxLen, rxState := t.rxState, rxValid := t.rxValid, rxView := t.rxView
    lastRxUs := t.lastRxUs, lastActUs := t.lastActUs, totalFrames := t.totalFrames, failedFrames := t.failedFrames
    failKind := t.failKind, evPending := t.evPending, awaiting := t.awaiting, allowed := t.allowed }

theorem OnlyReceives.trans {u : State} (h : OnlyReceives s u) (h' : OnlyReceives u t) : OnlyReceives s t := by
  unfold OnlyReceives at h
  exact Eq.trans h' (by rw [h])

theorem onlyReceives_responseTimeout (h1 : 1 ≤ s.params.cap) (h : endCheck (drain s) = .next t) :
    OnlyReceives s (responseTimeout t) := by
  have drained : OnlyReceives s (drain s) := by
    unfold OnlyReceives
    rw [drain_keeps s h1]
  have checked : OnlyReceives (drain s) t := by
    unfold OnlyReceives
    rw [endCheck_frame h]
  have timed : OnlyReceives t (responseTimeout t) := by
    unfold OnlyReceives
    rw [responseTimeout_frame t]
  exact (drained.trans checked).trans timed

/-- An update that writes the log sends what was deferred before it, as the gate admitted it then. -/
theorem State.Inv.execFsmUpdate_transmits (h : s.Inv) (ht : execFsmUpdate s = .next t) (hlog : t.txlog ≠ s.txlog) :
    Transmits s t s.pendingTarget := by
  obtain ⟨h1, framed, sent, hframed, hsent, rfl⟩ := execFsmUpdate_eq_next ht
  have hkeeps := onlyReceives_responseTimeout h1 hframed
  unfold OnlyReceives at hkeeps
  rcases deferredTransmit_eq_next hsent with ⟨rfl, -⟩ | ⟨-, -, -, rfl⟩ | ⟨hp, -, hn, -, rfl⟩
  · exact absurd (by rw [hkeeps]) hlog
  · exact absurd (by rw [hkeeps]) hlog
  · rw [hkeeps] at hp hn ⊢
    exact ⟨hn, h.admits_pendingTarget hp, rfl, fun hr => if_pos hr, fun hr => if_neg (by simp [hr])⟩

/-! ### Every step -/

/-- A command that writes the log transmits. -/
theorem State.Inv.exec_transmits {i : Instr} (h : s.Inv) (ht : exec i s = .next t) (hlog : t.txlog ≠ s.txlog) :
    ∃ target, Transmits s t target := by
  obtain ⟨-, -, -, hwriter, -⟩ := transmitStateHasOnlyItsWriters i s t ht
  rcases hwriter with hi | rfl | ⟨hkept, -⟩
  · cases i with
    | roleXmit target =>
      rcases execRoleXmit_eq_next ht with ⟨-, rfl⟩ | ⟨hg, rfl⟩
      · exact absurd rfl hlog
      · obtain ⟨hn, -, ha⟩ := gate_eq_ok_iff.1 hg
        obtain ⟨-, -, hsent, harms, hdisarms⟩ := transmits_sentState hn ha
        exact ⟨target, hn, ha, hsent, harms, hdisarms⟩
    | _ => cases hi
  · exact ⟨_, h.execFsmUpdate_transmits ht hlog⟩
  · exact absurd hkept hlog

theorem State.Inv.runCommand_transmits {op : Byte} (h : s.Inv) (ht : runCommand op s = .next t) (hlog : t.txlog ≠ s.txlog) :
    ∃ target, Transmits s t target := by
  unfold runCommand at ht
  split at ht
  · exact h.exec_transmits ht hlog
  · injection ht with ht
    exact absurd (ht ▸ rfl) hlog

theorem writeRegister_txlog (r : Register) (value : Word) (s : State) : (writeRegister r value s).txlog = s.txlog := by
  cases r <;> rfl

theorem State.Inv.writePort_transmits {offset : Nat} {value : Word} (h : s.Inv) (ht : writePort offset value s = .next t)
    (hlog : t.txlog ≠ s.txlog) : ∃ target, Transmits s t target := by
  unfold writePort at ht
  split at ht
  · exact h.runCommand_transmits ht hlog
  · injection ht with ht
    exact absurd (ht ▸ writeRegister_txlog ..) hlog
  · cases ht

/-- A step of an agent that writes the log is a hard reset or transmits. -/
theorem State.Inv.perform_transmits {i : Input} (h : s.Inv) (ht : perform i s = .next t) (hlog : t.txlog ≠ s.txlog) :
    (i = .reset ∧ t.txlog = []) ∨ ∃ target, Transmits s t target := by
  cases i with
  | tick n | arrive b =>
    injection ht with ht
    exact absurd (ht ▸ rfl) hlog
  | write offset value => exact .inr (h.writePort_transmits ht hlog)
  | read offset =>
    change readPort offset s = .next t at ht
    unfold readPort at ht
    split at ht
    · injection ht with ht
      exact absurd (ht ▸ rfl) hlog
    · cases ht
  | reset =>
    injection ht with ht
    exact .inl ⟨rfl, ht ▸ rfl⟩

theorem State.Inv.step_transmits (h : s.Inv) (ht : step s = .next t) (hlog : t.txlog ≠ s.txlog) :
    (s.inputs.head? = some .reset ∧ t.txlog = []) ∨ ∃ target, Transmits s t target := by
  cases hin : s.inputs with
  | nil =>
    unfold step at ht
    rw [hin] at ht
    injection ht with ht
    exact absurd (ht ▸ rfl) hlog
  | cons i rest =>
    rw [step_cons hin] at ht
    rcases (h.tookInput i rest).perform_transmits ht hlog with ⟨rfl, hempty⟩ | ⟨target, hn, ha, hsent, harms, hdisarms⟩
    · exact .inl ⟨rfl, hempty⟩
    · exact .inr ⟨target, hn, ha, hsent, harms, hdisarms⟩

/-- Settles O48: a step that writes the log resets or transmits, and what a good state transmits carries its own CRC. -/
theorem everyTransmissionPassesTheGateWithItsCrc : Obligations.EveryTransmissionPassesTheGateWithItsCrc := by
  intro s t h ht
  by_cases hlog : t.txlog = s.txlog
  · exact .inl hlog
  refine .inr ((h.step_transmits ht hlog).imp_right fun ⟨target, hn, ⟨hmaster, hslave⟩, hsent, harms, hdisarms⟩ => ?_)
  have hlen := h.three_le_txLen hn
  have hhead := head?_sentFrame (target := target) (show 1 ≤ s.txLen by omega)
  refine ⟨sentFrame target s, by simp [hsent, txGroup], by simpa using hlen, by simpa using h.txLen_le hn, ?_, fun hr => ?_,
    fun hr => ?_⟩
  · rw [length_sentFrame, Nat.add_sub_cancel]
    exact sentFrame_crc target s
  · rw [sentStation_slave hr] at hhead
    exact ⟨hslave hr, hdisarms hr, hhead⟩
  · rw [sentStation_master hr] at hhead
    obtain ⟨hfree, hle⟩ := hmaster hr
    exact ⟨hfree, harms hr, target, hhead, hle⟩

end Sys2Proof.Machine
end

section
/-! PROOFS. The configuration, event and system commands (46_config_and_system.md): the derived intervals are exact and saturate, each
setter writes its register, and a raw read answers with one byte of a buffer. -/

namespace Sys2Proof.Machine

variable {s : State}

/-! ### CFG.SETBAUD -/

/-- The least `q` that holds `n` in parts of `d`, or `c` where none below `c` does, is the clamped ceiling of the quotient. -/
theorem eq_min_ceilDiv_of_least {n d c q : Nat} (hd : 0 < d) (hleast : ∀ k, k < q → k < c ∧ k * d < n)
    (hholds : q = c ∨ n ≤ q * d) : q = min (n ⌈/⌉ d) c := by
  have holds_iff (k : Nat) : n ⌈/⌉ d ≤ k ↔ n ≤ k * d := by rw [ceilDiv_le_iff_le_mul hd, Nat.mul_comm]
  refine Nat.le_antisymm (Nat.le_min.2 ⟨Nat.le_of_not_lt fun hlt => ?_, Nat.le_of_not_lt fun hlt => ?_⟩) ?_
  · obtain ⟨-, hshort⟩ := hleast _ hlt
    exact Nat.not_le_of_lt hshort ((holds_iff _).1 (Nat.le_refl _))
  · obtain ⟨hclamped, -⟩ := hleast c hlt
    exact Nat.lt_irrefl c hclamped
  · rcases hholds with rfl | henough
    · exact Nat.min_le_right ..
    · exact Nat.le_trans (Nat.min_le_left ..) ((holds_iff q).2 henough)

/-- The silence interval rounds up (R371). -/
theorem silenceOf_eq_saturate_ceilDiv (p : Params) {baud : Word} (hb : 0 < baud.toNat) :
    silenceOf p baud = saturate (3500000 * p.charBits ⌈/⌉ baud.toNat) := by
  rw [silenceOf, ← Nat.add_sub_assoc hb, ← Nat.ceilDiv_eq_add_pred_div]

theorem silenceOf_eq_of_least (p : Params) {baud : Word} (hb : 0 < baud.toNat) {silence : Nat}
    (hleast : ∀ k, k < silence → k < 2 ^ 32 - 1 ∧ k * baud.toNat < 3500000 * p.charBits)
    (hholds : silence = 2 ^ 32 - 1 ∨ 3500000 * p.charBits ≤ silence * baud.toNat) :
    silenceOf p baud = BitVec.ofNat 32 silence := by
  rw [silenceOf_eq_saturate_ceilDiv p hb, saturate, ← eq_min_ceilDiv_of_least hb hleast hholds]

theorem sendbackOf_ofNat (p : Params) {silence : Nat} (h : silence ≤ 2 ^ 32 - 1) :
    sendbackOf p (BitVec.ofNat 32 silence) = BitVec.ofNat 32 (min (2 ^ 32 - 1) (p.sendbackMult * silence)) := by
  rw [sendbackOf, saturate, BitVec.toNat_ofNat, Nat.mod_eq_of_lt (by omega), Nat.min_comm]

theorem exec_cfgSetbaud_zero (s : State) : exec (.cfgSetbaud 0) s = .next (s.returning .badArg 0) := rfl

theorem exec_cfgSetbaud {baud : Word} (hb : baud ≠ 0) (s : State) : exec (.cfgSetbaud baud) s =
    .next { s with
      baud := baud, silenceUs := silenceOf s.params baud, sendbackUs := sendbackOf s.params (silenceOf s.params baud)
      result := .ok, rdata := 0 } :=
  if_neg hb

/-- Settles O49: the silence interval is the clamped ceiling of the quotient, and the send-back interval its clamped
multiple; the table of R371 is evaluated. -/
theorem setBaudDerivesBothIntervals : Obligations.SetBaudDerivesBothIntervals := by
  refine ⟨exec_cfgSetbaud_zero, fun s baud hb silence sendback hleast hholds hsendback => ?_, by decide⟩
  have hpos : 0 < baud.toNat := Nat.pos_of_ne_zero fun h0 => hb (BitVec.eq_of_toNat_eq h0)
  have hclamp : silence ≤ 2 ^ 32 - 1 := (eq_min_ceilDiv_of_least hpos hleast hholds).trans_le (Nat.min_le_right ..)
  rw [exec_cfgSetbaud hb, silenceOf_eq_of_least s.params hpos hleast hholds, sendbackOf_ofNat s.params hclamp, ← hsendback]

/-! ### CFG.SETSTATION -/

theorem exec_cfgSetstation_master (hr : s.params.role = .master) (station : Byte) :
    exec (.cfgSetstation station) s = .next (s.returning .badArg 0) :=
  if_pos hr

/-- The setter of a slave asks whether the station is legal. -/
theorem exec_cfgSetstation_slave (hr : s.params.role = .slave) (station : Byte) : exec (.cfgSetstation station) s =
    if station = 0 ∨ 247 < station.toNat then .next (s.returning .badArg 0)
    else .next { s with station := station, result := .ok, rdata := 0 } :=
  if_neg (by simp [hr])

/-! ### EV.ACK -/

/-- Clearing the selected events, bit by bit (R378). -/
theorem and_not_eq_append (pending m : BitVec 2) : pending &&& ~~~m =
    BitVec.ofBool (pending.getLsbD 1 && !m.getLsbD 1) ++ BitVec.ofBool (pending.getLsbD 0 && !m.getLsbD 0) := by
  refine BitVec.eq_of_getLsbD_eq fun i hi => ?_
  simp only [BitVec.getLsbD_and, BitVec.getLsbD_not, BitVec.getLsbD_append, BitVec.getLsbD_ofBool]
  interval_cases i <;> simp

theorem exec_evAck (m : BitVec 2) (s : State) :
    exec (.evAck m) s = .next { s with evPending := s.evPending &&& ~~~m, result := .ok, rdata := 0 } := rfl

/-- Settles O50: one assignment each, with the station refused by the role and by its value, and the events cleared bit by bit. -/
theorem settersSoftResetAndEventCommands : Obligations.SettersSoftResetAndEventCommands := by
  refine fun s us station m => ⟨rfl, rfl, rfl, fun hr => exec_cfgSetstation_master hr station, fun hr hbad => ?_,
    fun hr hpos hle => ?_, rfl, ?_, rfl⟩
  · rw [exec_cfgSetstation_slave hr, if_pos hbad]
  · have hlegal : ¬(station = 0 ∨ 247 < station.toNat) := by
      rintro (rfl | hlt)
      · exact absurd hpos (by decide)
      · exact Nat.not_lt_of_le hle hlt
    rw [exec_cfgSetstation_slave hr, if_neg hlegal]
  · rw [exec_evAck, and_not_eq_append]

/-! ### SYS.RDBUF -/

/-- The received bytes of a good state lie inside CAP, so each of them can be read. -/
theorem State.Inv.exec_sysRdbuf_rx (h : s.Inv) {off : Half} (hoff : off.toNat < s.rxLen) : exec (.sysRdbuf .rx off) s =
    .next (s.returning .ok (BitVec.ofNat 32 (s.rxBuf.read off.toNat).toNat)) := by
  obtain ⟨hcap, -, -⟩ := h.receiver
  rw [BitVec.ofNat_toNat]
  exact (if_neg (Nat.not_le_of_lt hoff)).trans (within_of_le (by omega) _)

/-- The envelope of a good state lies inside CAP with its CRC, so each of its bytes can be read. -/
theorem State.Inv.exec_sysRdbuf_tx (h : s.Inv) (hn : s.txVariant ≠ .none) {off : Half} (hoff : off.toNat < s.txLen + 2) :
    exec (.sysRdbuf .tx off) s = .next (s.returning .ok (BitVec.ofNat 32 (s.txBuf.read off.toNat).toNat)) := by
  have hcap := h.txLen_le hn
  rw [BitVec.ofNat_toNat]
  exact (if_neg (not_or.2 ⟨hn, Nat.not_le_of_lt hoff⟩)).trans (within_of_le (by omega) _)

/-- Settles O51: beyond the end the read is refused, and below it the byte lies inside the buffer. -/
theorem rawReadReturnsOneBufferByte : Obligations.RawReadReturnsOneBufferByte :=
  fun _ _ h => ⟨fun hend => if_pos hend, fun hoff => h.exec_sysRdbuf_rx hoff, fun hend => if_pos hend,
    fun hn hoff => h.exec_sysRdbuf_tx hn hoff⟩

end Sys2Proof.Machine
end

section
/-! PROOFS. The synchronous refusals (60_exceptions.md R405): a command that returns a code other than OK has changed nothing, but
for the two exceptions the rule documents. -/

namespace Sys2Proof.Machine

variable {s t : State}

/-! ### Refusing and changing nothing -/

/-- Where the outcome goes on with a code other than OK, that code is not BADCMD and nothing else has changed. -/
def RefusesUnchanged (s : State) (o : Outcome) : Prop :=
  ∀ t, o = .next t → t.result ≠ .ok → t.result ≠ .badCmd ∧ t = s.returning t.result 0

theorem RefusesUnchanged.ok {u : State} {value : Word} : RefusesUnchanged s (done u .ok value) := by
  intro t ht hr
  injection ht with ht
  exact absurd (ht ▸ rfl) hr

theorem RefusesUnchanged.refusal {code : ResultCode} (hc : code ≠ .badCmd) : RefusesUnchanged s (done s code 0) := by
  intro t ht _
  injection ht with ht
  subst ht
  exact ⟨hc, rfl⟩

theorem RefusesUnchanged.ite {c : Prop} [Decidable c] {o p : Outcome} (ho : RefusesUnchanged s o) (hp : RefusesUnchanged s p) :
    RefusesUnchanged s (if c then o else p) := by
  split
  · exact ho
  · exact hp

theorem RefusesUnchanged.within {k : Outcome} {n limit : Nat} (hk : RefusesUnchanged s k) :
    RefusesUnchanged s (within n limit k) :=
  fun t ht => hk t (within_eq_next ht).2

theorem RefusesUnchanged.withEnvelope {k : Outcome} (hk : RefusesUnchanged s k) : RefusesUnchanged s (withEnvelope s k) :=
  .ite (.refusal nofun) (.within hk)

theorem RefusesUnchanged.withSelected {sel : Sel} {k : Selected → Outcome} (hk : ∀ f, RefusesUnchanged s (k f)) :
    RefusesUnchanged s (withSelected sel s k) := by
  unfold Machine.withSelected
  split
  · exact .refusal nofun
  · exact .within (hk _)

/-! ### Commands one by one -/

theorem execEnvVerifycrc_refuses (sel : Sel) (s : State) : RefusesUnchanged s (execEnvVerifycrc sel s) := by
  cases sel with
  | rx => exact .ite (.refusal nofun) (.within .ok)
  | tx => exact .withEnvelope .ok

/-- The value of a field is refused with 0, by a variant without the field or by a frame too short for it. -/
theorem fieldValue_refuses (f : Selected) (fld : Field) (s : State) :
    RefusesUnchanged s (done s (fieldValue f fld).1 (fieldValue f fld).2) := by
  cases fld with
  | vq | status | variant | len | crcField => exact .ok
  | _ =>
    unfold fieldValue
    dsimp only
    split
    · exact .refusal nofun
    · split
      · exact .refusal nofun
      · exact .ok

theorem execPlGetf_refuses (sel : Sel) (field : BitVec 4) (s : State) : RefusesUnchanged s (execPlGetf sel field s) := by
  refine .withSelected fun f => ?_
  split
  · exact .refusal nofun
  · exact fieldValue_refuses f _ s

theorem execPlSetf_refuses (value : Half) (field : BitVec 4) (s : State) : RefusesUnchanged s (execPlSetf value field s) := by
  refine .withEnvelope ?_
  split
  · exact .refusal nofun
  · refine .ite (.refusal nofun) (.ite (.refusal nofun) ?_)
    split
    · exact .refusal nofun
    · exact .within .ok

theorem storeValues_refuses (es : List Half) (s : State) : RefusesUnchanged s (storeValues es s) :=
  .ite (.refusal nofun) (.within .ok)

theorem execPlResize_refuses (q : Half) (s : State) : RefusesUnchanged s (execPlResize q s) :=
  .withEnvelope (.ite (storeValues_refuses _ s) (.refusal nofun))

theorem execPlGetbit_refuses (sel : Sel) (i : Half) (s : State) : RefusesUnchanged s (execPlGetbit sel i s) :=
  .withSelected fun _ => .ite (.refusal nofun) (.ite (.refusal nofun) (.within .ok))

theorem execPlGetreg_refuses (sel : Sel) (i : Half) (s : State) : RefusesUnchanged s (execPlGetreg sel i s) :=
  .withSelected fun _ => .ite (.refusal nofun) (.ite (.refusal nofun) (.within .ok))

theorem execPlSetbit_refuses (b : Bool) (i : Half) (s : State) : RefusesUnchanged s (execPlSetbit b i s) :=
  .withEnvelope (.ite (.refusal nofun) (.ite (.refusal nofun) (.within .ok)))

theorem execPlSetreg_refuses (w i : Half) (s : State) : RefusesUnchanged s (execPlSetreg w i s) :=
  .withEnvelope (.ite (.refusal nofun) (.ite (.refusal nofun) (.within .ok)))

/-- An update always returns OK. -/
theorem execFsmUpdate_refuses (s : State) : RefusesUnchanged s (execFsmUpdate s) := by
  intro t ht hr
  obtain ⟨-, framed, sent, -, -, rfl⟩ := execFsmUpdate_eq_next ht
  exact absurd rfl hr

theorem gate_ne_badCmd (target : Byte) (s : State) : gate target s ≠ .badCmd := by
  unfold gate
  split
  · nofun
  · split
    · nofun
    · split <;> nofun

theorem execRoleXmit_refuses (target : Byte) (s : State) : RefusesUnchanged s (execRoleXmit target s) := by
  intro t ht hr
  rcases execRoleXmit_eq_next ht with ⟨-, rfl⟩ | ⟨-, rfl⟩
  · exact ⟨gate_ne_badCmd target s, rfl⟩
  · exact absurd rfl hr

theorem execRoleXmitdef_refuses (target : Byte) (s : State) : RefusesUnchanged s (execRoleXmitdef target s) := by
  intro t ht hr
  rcases execRoleXmitdef_eq_next ht with ⟨-, rfl⟩ | ⟨-, rfl⟩
  · exact ⟨gate_ne_badCmd target s, rfl⟩
  · exact absurd rfl hr

theorem execCfgSetbaud_refuses (baud : Word) (s : State) : RefusesUnchanged s (execCfgSetbaud baud s) :=
  .ite (.refusal nofun) .ok

theorem execCfgSetstation_refuses (station : Byte) (s : State) : RefusesUnchanged s (execCfgSetstation station s) :=
  .ite (.refusal nofun) (.ite (.refusal nofun) .ok)

theorem execSysRdbuf_refuses (sel : Sel) (off : Half) (s : State) : RefusesUnchanged s (execSysRdbuf sel off s) := by
  cases sel with
  | rx | tx => exact .ite (.refusal nofun) (.within .ok)

/-! ### The element commands -/

theorem refusesUnchanged_of_exec {i : Instr} {code : ResultCode} (h : exec i s = .next (s.returning code 0)) (hc : code ≠ .badCmd) :
    RefusesUnchanged s (exec i s) := by
  rw [h]
  exact .refusal hc

theorem refusesUnchanged_of_exec_ok {i : Instr} {u : State} (h : exec i s = .next u) (hok : u.result = .ok) :
    RefusesUnchanged s (exec i s) :=
  fun _ ht hr => absurd (result_ok_of_exec h hok ht) hr

/-- A command on the elements of an envelope of another class, or of none. -/
theorem RefusesOutsideClass.refuses {i : Instr} {cls : Variant → Bool} (h : RefusesOutsideClass i cls s)
    (hc : cls s.txVariant ≠ true) : RefusesUnchanged s (exec i s) := by
  obtain ⟨hnone, hclass⟩ := h
  by_cases hn : s.txVariant = .none
  · exact refusesUnchanged_of_exec (hnone hn) nofun
  · exact refusesUnchanged_of_exec (hclass hn (by simpa using hc)) nofun

/-- A remove command always has the room for the elements it keeps (43_payload_ops.md R252). -/
theorem Removes.refuses {i : Instr} {cls : Variant → Bool} {out keep : List Half → List Half} {n : Nat}
    (h : Removes i cls out keep n s) : RefusesUnchanged s (exec i s) := by
  obtain ⟨hrefuses, hrange, hremoves⟩ := h
  by_cases hc : cls s.txVariant = true
  · rcases Nat.lt_or_ge s.txVq.toNat n with hn | hn
    · exact refusesUnchanged_of_exec (hrange hc hn) nofun
    · obtain ⟨u, hu, hok, -⟩ := hremoves hc hn
      exact refusesUnchanged_of_exec_ok hu (congrArg State.result hok)
  · exact hrefuses.refuses hc

/-! ### Every command but the creates and the inserts -/

/-- A command that is neither a create nor an insert has no exception. -/
theorem State.Inv.exec_refuses (h : s.Inv) {i : Instr} (hw : i.isWire = false) (hcreate : i.isCreate = false)
    (hinsert : i.insertCount? = none) : RefusesUnchanged s (exec i s) := by
  cases i with
  | crcReset | crcUpdate | crcValue | roleAvail | cfgSetsilence | cfgSetsendback | cfgSettimeout | sysSoftreset | evAck
  | evSetmask => exact .ok
  | envApplycrc => exact .withEnvelope .ok
  | envVerifycrc sel => exact execEnvVerifycrc_refuses sel s
  | envCreq | envCrsp | envCdiag => cases hcreate
  | plGetf sel field => exact execPlGetf_refuses sel field s
  | plSetf value field => exact execPlSetf_refuses value field s
  | plResize q => exact execPlResize_refuses q s
  | plGetbit sel i => exact execPlGetbit_refuses sel i s
  | plSetbit b i => exact execPlSetbit_refuses b i s
  | plGetreg sel i => exact execPlGetreg_refuses sel i s
  | plSetreg w i => exact execPlSetreg_refuses w i s
  | plInsbitsH | plInsbitsT | plInsregsH | plInsregsT => cases hinsert
  | plRembitsH => exact (h.removes_head (fun _ => isVariable_of_isBits) rfl).refuses
  | plRembitsT => exact (h.removes_tail (fun _ => isVariable_of_isBits) rfl).refuses
  | plRemregsH => exact (h.removes_head (fun _ => isVariable_of_isRegs) rfl).refuses
  | plRemregsT => exact (h.removes_tail (fun _ => isVariable_of_isRegs) rfl).refuses
  | fsmUpdate => exact execFsmUpdate_refuses s
  | roleXmit target => exact execRoleXmit_refuses target s
  | roleXmitdef target => exact execRoleXmitdef_refuses target s
  | cfgSetbaud baud => exact execCfgSetbaud_refuses baud s
  | cfgSetstation station => exact execCfgSetstation_refuses station s
  | sysRdbuf sel off => exact execSysRdbuf_refuses sel off s
  | _ => cases hw

/-! ### The exceptions -/

/-- What R405 lets a refused command leave: nothing changed, or one of the two documented exceptions. -/
inductive Refused (i : Instr) (s t : State) : Prop
  | unchanged (hc : t.result ≠ .badCmd) (h : t = s.returning t.result 0)
  | empties (hi : i.isCreate = true)
      (h : t = { s with txBuf := [], txVariant := .none, txLen := 0, txVq := 0, result := .unsupported, rdata := 0 })
  | pops (n : Nat) (hi : i.insertCount? = some n) (hn : n ≤ s.hdata.length)
      (h : t = { s with hdata := s.hdata.drop n, result := .noSpace, rdata := 0 })

theorem RefusesUnchanged.refused {i : Instr} (h : RefusesUnchanged s (exec i s)) (ht : exec i s = .next t) (hr : t.result ≠ .ok) :
    Refused i s t :=
  let ⟨hc, hs⟩ := h t ht hr
  .unchanged hc hs

/-- A create command refuses only NONE, with the envelope emptied (42_pdu_create_encode.md R213). -/
theorem createEnvelope_refused {i : Instr} {v : Variant} {fcb : Byte} (hi : i.isCreate = true)
    (ht : createEnvelope v fcb s = .next t) (hr : t.result ≠ .ok) : Refused i s t := by
  unfold createEnvelope at ht
  split at ht
  · injection ht with ht
    exact .empties hi ht.symm
  · obtain ⟨hc, hs⟩ := RefusesUnchanged.within .ok t ht hr
    exact .unchanged hc hs

/-- An insert command without the room has popped its entries (43_payload_ops.md R250). -/
theorem Inserts.refused {i : Instr} {cls : Variant → Bool} {place : List Half → List Half → List Half} {n : Nat}
    (h : Inserts i cls place n s) (hi : i.insertCount? = some n) (ht : exec i s = .next t) (hr : t.result ≠ .ok) :
    Refused i s t := by
  obtain ⟨hrefuses, hbadArg, hnoSpace, hstores⟩ := h
  by_cases hc : cls s.txVariant = true
  · rcases Nat.lt_or_ge s.hdata.length n with hn | hn
    · exact (refusesUnchanged_of_exec (hbadArg hc hn) nofun).refused ht hr
    · by_cases hf : Fits s.params.cap s.txVariant (s.txVq.toNat + n)
      · obtain ⟨u, hu, hok, -⟩ := hstores hc hn hf
        exact (refusesUnchanged_of_exec_ok hu (congrArg State.result hok)).refused ht hr
      · exact .pops n hi hn (Host.Outcome.next.inj (ht.symm.trans (hnoSpace hc hn hf)))
  · exact (hrefuses.refuses hc).refused ht hr

/-- What any command that refuses in a good state leaves. -/
theorem State.Inv.exec_refused (h : s.Inv) {i : Instr} (hw : i.isWire = false) (ht : exec i s = .next t) (hr : t.result ≠ .ok) :
    Refused i s t := by
  cases i with
  | envCreq | envCrsp | envCdiag => exact createEnvelope_refused rfl ht hr
  | plInsbitsH => exact (h.inserts_head (fun _ => isVariable_of_isBits) rfl).refused rfl ht hr
  | plInsbitsT => exact (h.inserts_tail (fun _ => isVariable_of_isBits) rfl).refused rfl ht hr
  | plInsregsH => exact (h.inserts_head (fun _ => isVariable_of_isRegs) rfl).refused rfl ht hr
  | plInsregsT => exact (h.inserts_tail (fun _ => isVariable_of_isRegs) rfl).refused rfl ht hr
  | _ => exact (h.exec_refuses hw rfl rfl).refused ht hr

/-- Settles O55: a refused command has changed nothing or is one of the two exceptions, and each leaves 0 in `rdata`. -/
theorem refusedCommandsChangeNothing : Obligations.RefusedCommandsChangeNothing := by
  intro i s t h hw ht hr
  cases h.exec_refused hw ht hr with
  | unchanged hc hs => exact ⟨congrArg State.rdata hs, hc, .inl hs⟩
  | empties hi hs =>
    subst hs
    exact ⟨rfl, nofun, .inr (.inl ⟨hi, rfl, rfl⟩)⟩
  | pops n hi hn hs =>
    subst hs
    exact ⟨rfl, nofun, .inr (.inr ⟨n, hi, rfl, hn, rfl⟩)⟩

end Sys2Proof.Machine
end

section
/-! PROOFS. The steps of the clock, the transport and the reset input (60_exceptions.md R415, R420; 70_reset_and_hazards.md R441). -/

namespace Sys2Proof.Machine

/-- One more Tick after `n` of them. -/
theorem tick_succ (n : Nat) (s : State) : tick (n + 1) s = { tick n s with now := (tick n s).now + 1 } := by
  have hnow : s.now + BitVec.ofNat 32 (n + 1) = s.now + BitVec.ofNat 32 n + 1 := by
    rw [BitVec.ofNat_add, ← BitVec.add_assoc]
    rfl
  exact congrArg (fun now => { s with now := now }) hnow

/-- `TICK n` is `n` single ticks (R415). -/
theorem tick_eq_iterate (n : Nat) (s : State) : tick n s = (fun t : State => { t with now := t.now + 1 })^[n] s := by
  induction n with
  | zero => simp [tick]
  | succ n ih => rw [Function.iterate_succ_apply', ← ih, tick_succ]

/-- Settles O9: the one step `TICK n` is `n` single ticks, by induction on `n`. -/
theorem clockAndTransportStepsChangeOnlyTheirOwn : Obligations.ClockAndTransportStepsChangeOnlyTheirOwn :=
  fun s n _ => ⟨rfl, congrArg Host.Outcome.next (tick_eq_iterate n s), rfl⟩

/-- Settles O52: the table of R441 is what `hardReset` leaves, element by element, whatever the state was. -/
theorem hardResetSetsEveryElement : Obligations.HardResetSetsEveryElement :=
  fun s => ⟨hardReset s, rfl, rfl⟩

end Sys2Proof.Machine
end
